-- ==== Sys2Proof/Word.lean ====
section
/-! DEFINITION. The word types of the block: bytes of the ring store and of payloads, 16-bit samples, 32-bit command
words and response values (spec R20, R30, R91, R98). -/

namespace Sys2Proof

/-- A byte of the ring store or of a payload (R20, R90). -/
abbrev Byte := BitVec 8

/-- A sample bit pattern: 16 bits, two's complement, only ever copied (R30, R93). -/
abbrev Sample := BitVec 16

/-- A command word or a response value (R91, R98). -/
abbrev Word := BitVec 32

end Sys2Proof
end

