-- ==== Sys2Proof/Syntax.lean ====
section
/-! DEFINITION. The syntax of the block's commands: the context tag and the nineteen commands of spec R94. -/

namespace Sys2Proof

/-- The 2-bit context tag of a command record, set by the port the command arrives on (R90, R207). -/
inductive Ctx where
  /-- F, foreground: consumer loop and command handling -/
  | foreground
  /-- P, interrupt: timer and ADC completion handlers -/
  | interrupt
  /-- A, the converter's write port -/
  | converter
  /-- the reserved tag 0b11 (R96 c) -/
  | reserved
  deriving DecidableEq, Repr

/-- The nineteen commands (R94), with the operands of R93. -/
inductive Instr where
  /-- SYS.STATUS (R146) -/
  | sysStatus
  /-- RB.INIT hen (R120) -/
  | rbInit (hen : Bool)
  /-- RB.PUT len, with its payload of `len` bytes (R121); `len` is the payload's length -/
  | rbPut (data : List Byte)
  /-- RB.GET len (R122) -/
  | rbGet (len : BitVec 16)
  /-- RB.OCC (R140) -/
  | rbOcc
  /-- RB.WCUR (R141) -/
  | rbWcur
  /-- RB.RCUR (R142) -/
  | rbRcur
  /-- RB.TOTRD (R143) -/
  | rbTotrd
  /-- RB.TOTWR (R144) -/
  | rbTotwr
  /-- RB.OVWC (R145) -/
  | rbOvwc
  /-- ADC.CONFIG err (R150) -/
  | adcConfig (err : BitVec 8)
  /-- ADC.EVT_READY (R151) -/
  | adcEvtReady
  /-- ADC.EVT_BUFREQ (R152) -/
  | adcEvtBufreq
  /-- ADC.EVT_DONE idx, n (R153) -/
  | adcEvtDone (idx : BitVec 1) (n : BitVec 8)
  /-- ADC.EVT_FIN (R154) -/
  | adcEvtFin
  /-- ADC.START (R155) -/
  | adcStart
  /-- ADC.STOP (R156) -/
  | adcStop
  /-- ADC.BYTES (R157) -/
  | adcBytes
  /-- ADC.SWR idx, k, v (R158) -/
  | adcSwr (idx : BitVec 1) (k : BitVec 7) (v : Sample)
  deriving DecidableEq, Repr

end Sys2Proof
end

