-- ==== Sys2Proof/WellFormed.lean ====
section
/-! DEFINITION. Which command terms a command record can carry: every operand of a fixed width is typed with it, so the
one check left is that a payload's length fits the 16-bit `len` field (spec R90, R92 format L, R93). -/

namespace Sys2Proof

/-- The payload of RB.PUT has 0 to 65535 bytes (R93); every other operand is in its field's range by its type. -/
def Instr.wellFormed : Instr → Bool
  | .rbPut data => decide (data.length < 2 ^ 16)
  | .sysStatus => true
  | .rbInit _ => true
  | .rbGet _ => true
  | .rbOcc => true
  | .rbWcur => true
  | .rbRcur => true
  | .rbTotrd => true
  | .rbTotwr => true
  | .rbOvwc => true
  | .adcConfig _ => true
  | .adcEvtReady => true
  | .adcEvtBufreq => true
  | .adcEvtDone _ _ => true
  | .adcEvtFin => true
  | .adcStart => true
  | .adcStop => true
  | .adcBytes => true
  | .adcSwr _ _ _ => true

end Sys2Proof
end

