-- ==== Sys2Proof/Decode.lean ====
section
/-! DEFINITION. Decoding of command records and the encoder, from the formats and the opcode map of spec R90 to R96. -/

namespace Sys2Proof

/-- Why a command record is not one of the nineteen commands. The first four are the conditions of R96 (a) to (d), an
ILLEGAL command; the last is no command record at all (R90, log 7). -/
inductive DecodeError where
  /-- R96 (a): the opcode is none of the nineteen -/
  | unassignedOpcode
  /-- R96 (b): a must-be-zero bit of the format is 1 -/
  | mbzNotZero
  /-- R96 (c): the context tag is 0b11 -/
  | reservedContext
  /-- R96 (d): the context is not the one R94 lists -/
  | wrongContext
  /-- the payload's length is not the one the word gives (R90) -/
  | payloadNotOfLength
  deriving DecidableEq, Repr

/-- `ctx` as 2 bits (R90). -/
def Ctx.code : Ctx → BitVec 2
  | .foreground => 0b00
  | .interrupt => 0b01
  | .converter => 0b10
  | .reserved => 0b11

/-- The only context that may issue the command (R94, R208). -/
def Instr.ctx : Instr → Ctx
  | .sysStatus => .foreground
  | .rbInit _ => .foreground
  | .rbPut _ => .interrupt
  | .rbGet _ => .foreground
  | .rbOcc => .foreground
  | .rbWcur => .foreground
  | .rbRcur => .foreground
  | .rbTotrd => .foreground
  | .rbTotwr => .foreground
  | .rbOvwc => .foreground
  | .adcConfig _ => .foreground
  | .adcEvtReady => .interrupt
  | .adcEvtBufreq => .interrupt
  | .adcEvtDone _ _ => .interrupt
  | .adcEvtFin => .interrupt
  | .adcStart => .foreground
  | .adcStop => .foreground
  | .adcBytes => .foreground
  | .adcSwr _ _ _ => .converter

/-- Bits 31:24, the opcode of every format (R91). -/
def opcodeField (w : Word) : BitVec 8 := w.extractLsb' 24 8

/-- Bit 0 of format I, `hen` (R92). -/
def henField (w : Word) : Bool := w.getLsbD 0

/-- Bits 15:0 of format L, `len` (R92). -/
def lenField (w : Word) : BitVec 16 := w.extractLsb' 0 16

/-- Bits 7:0 of format E, `err` (R92). -/
def errField (w : Word) : BitVec 8 := w.extractLsb' 0 8

/-- Bit 8 of format D, `idx` (R92). -/
def doneIdxField (w : Word) : BitVec 1 := w.extractLsb' 8 1

/-- Bits 7:0 of format D, `n` (R92). -/
def countField (w : Word) : BitVec 8 := w.extractLsb' 0 8

/-- Bit 23 of format W, `idx` (R92). -/
def swrIdxField (w : Word) : BitVec 1 := w.extractLsb' 23 1

/-- Bits 22:16 of format W, `k` (R92). -/
def entryField (w : Word) : BitVec 7 := w.extractLsb' 16 7

/-- Bits 15:0 of format W, `v` (R92). -/
def sampleField (w : Word) : Sample := w.extractLsb' 0 16

/-- Answers `i` if the must-be-zero bits 23:`lo` of `w` are 0 (R92, R96 b). -/
def mbzAbove (lo : Nat) (w : Word) (i : Instr) : Except DecodeError Instr :=
  if w.extractLsb' lo (24 - lo) = 0 then .ok i else .error .mbzNotZero

/-- The command a word stands for, the payload being the operand of RB.PUT (R91 to R94). The context and the payload's
length are checked in `decodeCommand`. -/
def decodeWord (w : Word) (payload : List Byte) : Except DecodeError Instr :=
  if opcodeField w = 0x01#8 then mbzAbove 0 w .sysStatus
  else if opcodeField w = 0x10#8 then mbzAbove 1 w (.rbInit (henField w))
  else if opcodeField w = 0x11#8 then mbzAbove 16 w (.rbPut payload)
  else if opcodeField w = 0x12#8 then mbzAbove 16 w (.rbGet (lenField w))
  else if opcodeField w = 0x13#8 then mbzAbove 0 w .rbOcc
  else if opcodeField w = 0x14#8 then mbzAbove 0 w .rbWcur
  else if opcodeField w = 0x15#8 then mbzAbove 0 w .rbRcur
  else if opcodeField w = 0x16#8 then mbzAbove 0 w .rbTotrd
  else if opcodeField w = 0x17#8 then mbzAbove 0 w .rbTotwr
  else if opcodeField w = 0x18#8 then mbzAbove 0 w .rbOvwc
  else if opcodeField w = 0x20#8 then mbzAbove 8 w (.adcConfig (errField w))
  else if opcodeField w = 0x21#8 then mbzAbove 0 w .adcEvtReady
  else if opcodeField w = 0x22#8 then mbzAbove 0 w .adcEvtBufreq
  else if opcodeField w = 0x23#8 then mbzAbove 9 w (.adcEvtDone (doneIdxField w) (countField w))
  else if opcodeField w = 0x24#8 then mbzAbove 0 w .adcEvtFin
  else if opcodeField w = 0x25#8 then mbzAbove 0 w .adcStart
  else if opcodeField w = 0x26#8 then mbzAbove 0 w .adcStop
  else if opcodeField w = 0x27#8 then mbzAbove 0 w .adcBytes
  else if opcodeField w = 0x28#8 then .ok (.adcSwr (swrIdxField w) (entryField w) (sampleField w))
  else .error .unassignedOpcode

/-- How many payload bytes a record of this word carries: `len` for RB.PUT, none for any other command (R90). -/
def payloadLength (w : Word) : Instr → Nat
  | .rbPut _ => (lenField w).toNat
  | _ => 0

/-- Decoding of a command record `(ctx, word, payload)` (R90, R96): total, and rejecting by name. The context is checked
before the payload is looked at, since an illegal word consumes none (R96). -/
def decodeCommand (c : Ctx) (w : Word) (payload : List Byte) : Except DecodeError Instr :=
  if c = .reserved then .error .reservedContext
  else
    match decodeWord w payload with
    | .error e => .error e
    | .ok i =>
      if i.ctx ≠ c then .error .wrongContext
      else if payload.length ≠ payloadLength w i then .error .payloadNotOfLength
      else .ok i

/-- Format N (R92). -/
def formatN (op : BitVec 8) : Word := op ++ 0#24

/-- Format I (R92). -/
def formatI (op : BitVec 8) (hen : Bool) : Word := op ++ 0#23 ++ BitVec.ofBool hen

/-- Format L (R92). -/
def formatL (op : BitVec 8) (len : BitVec 16) : Word := op ++ 0#8 ++ len

/-- Format E (R92). -/
def formatE (op : BitVec 8) (err : BitVec 8) : Word := op ++ 0#16 ++ err

/-- Format D (R92). -/
def formatD (op : BitVec 8) (idx : BitVec 1) (n : BitVec 8) : Word := op ++ 0#15 ++ idx ++ n

/-- Format W (R92). -/
def formatW (op : BitVec 8) (idx : BitVec 1) (k : BitVec 7) (v : Sample) : Word := op ++ idx ++ k ++ v

/-- The opcode of each command (R94). -/
def Instr.opcode : Instr → BitVec 8
  | .sysStatus => 0x01
  | .rbInit _ => 0x10
  | .rbPut _ => 0x11
  | .rbGet _ => 0x12
  | .rbOcc => 0x13
  | .rbWcur => 0x14
  | .rbRcur => 0x15
  | .rbTotrd => 0x16
  | .rbTotwr => 0x17
  | .rbOvwc => 0x18
  | .adcConfig _ => 0x20
  | .adcEvtReady => 0x21
  | .adcEvtBufreq => 0x22
  | .adcEvtDone _ _ => 0x23
  | .adcEvtFin => 0x24
  | .adcStart => 0x25
  | .adcStop => 0x26
  | .adcBytes => 0x27
  | .adcSwr _ _ _ => 0x28

/-- The command word of a command: its opcode in the format R94 gives it. -/
def encodeWord : Instr → Word
  | .sysStatus => formatN 0x01
  | .rbInit hen => formatI 0x10 hen
  | .rbPut data => formatL 0x11 (BitVec.ofNat 16 data.length)
  | .rbGet len => formatL 0x12 len
  | .rbOcc => formatN 0x13
  | .rbWcur => formatN 0x14
  | .rbRcur => formatN 0x15
  | .rbTotrd => formatN 0x16
  | .rbTotwr => formatN 0x17
  | .rbOvwc => formatN 0x18
  | .adcConfig err => formatE 0x20 err
  | .adcEvtReady => formatN 0x21
  | .adcEvtBufreq => formatN 0x22
  | .adcEvtDone idx n => formatD 0x23 idx n
  | .adcEvtFin => formatN 0x24
  | .adcStart => formatN 0x25
  | .adcStop => formatN 0x26
  | .adcBytes => formatN 0x27
  | .adcSwr idx k v => formatW 0x28 idx k v

/-- The payload of a command record: present only for RB.PUT (R90). -/
def encodePayload : Instr → List Byte
  | .rbPut data => data
  | _ => []

/-- The word and the payload of a command's record (R90). -/
def encode (i : Instr) : Word × List Byte := (encodeWord i, encodePayload i)

/-- The `match` column of the opcode map (R94). -/
def Instr.matchBits : Instr → Word
  | .sysStatus => 0x01000000
  | .rbInit _ => 0x10000000
  | .rbPut _ => 0x11000000
  | .rbGet _ => 0x12000000
  | .rbOcc => 0x13000000
  | .rbWcur => 0x14000000
  | .rbRcur => 0x15000000
  | .rbTotrd => 0x16000000
  | .rbTotwr => 0x17000000
  | .rbOvwc => 0x18000000
  | .adcConfig _ => 0x20000000
  | .adcEvtReady => 0x21000000
  | .adcEvtBufreq => 0x22000000
  | .adcEvtDone _ _ => 0x23000000
  | .adcEvtFin => 0x24000000
  | .adcStart => 0x25000000
  | .adcStop => 0x26000000
  | .adcBytes => 0x27000000
  | .adcSwr _ _ _ => 0x28000000

/-- The `mask` column of the opcode map (R94). -/
def Instr.maskBits : Instr → Word
  | .sysStatus => 0xFFFFFFFF
  | .rbInit _ => 0xFFFFFFFE
  | .rbPut _ => 0xFFFF0000
  | .rbGet _ => 0xFFFF0000
  | .rbOcc => 0xFFFFFFFF
  | .rbWcur => 0xFFFFFFFF
  | .rbRcur => 0xFFFFFFFF
  | .rbTotrd => 0xFFFFFFFF
  | .rbTotwr => 0xFFFFFFFF
  | .rbOvwc => 0xFFFFFFFF
  | .adcConfig _ => 0xFFFFFF00
  | .adcEvtReady => 0xFFFFFFFF
  | .adcEvtBufreq => 0xFFFFFFFF
  | .adcEvtDone _ _ => 0xFFFFFE00
  | .adcEvtFin => 0xFFFFFFFF
  | .adcStart => 0xFFFFFFFF
  | .adcStop => 0xFFFFFFFF
  | .adcBytes => 0xFFFFFFFF
  | .adcSwr _ _ _ => 0xFF000000

/-- The command record of a word whose payload bytes are all zero: the payload has the length the word gives (R90). -/
def zeroPayload (w : Word) : List Byte :=
  if opcodeField w = 0x11#8 then List.replicate (lenField w).toNat 0 else []

/-- The port the opcode map names for a word, F for a word that is no command (R94). -/
def portOfWord (w : Word) : Ctx :=
  match decodeWord w (zeroPayload w) with
  | .ok i => i.ctx
  | .error _ => .foreground

/-- A word of `nbits` bits as the 32-bit command word: the bits above `nbits` are 0. -/
def tableWord (nbits w : Nat) : Word := BitVec.ofNat 32 (w % 2 ^ nbits)

/-- The command the decoder reads from a table word, presented on the word's own port with a payload of zeros. -/
def decodeTableWord (nbits w : Nat) : Option Instr :=
  match decodeCommand (portOfWord (tableWord nbits w)) (tableWord nbits w) (zeroPayload (tableWord nbits w)) with
  | .ok i => some i
  | .error _ => none

end Sys2Proof
end

