-- ==== Sys2Proof/Config.lean ====
section
/-! DEFINITION. The parameters of an instance of the block (spec R6, R197) and the free values of the model: what the
spec leaves open and no proof may see. -/

namespace Sys2Proof

/-- The parameters of R6. An instance of the block carries one such record and never changes it (R41, R197).
`LEN_W` is no field: the command format fixes it at 16 (D7). `LOG_EVERY` is no field: R5 (c) puts it out of scope. -/
structure Params where
  /-- `C`, the ring capacity in bytes -/
  capacity : Nat
  /-- `SB_LEN`, the entries of one sample buffer -/
  sbLen : Nat
  /-- `CNT_W`, the width of the four counters -/
  cntW : Nat
  /-- `GET_ATOMIC`, whether RB.GET is one transition or the three steps of R240 -/
  getAtomic : Bool
  /-- `CHUNK`, the bytes the host asks for per get (R188) -/
  chunk : Nat
  /-- `AUTO_STOP_S`, the session duration that forces a stop (R190) -/
  autoStopS : Nat
  /-- `TICK_S`: timing only, read by no rule (R244) -/
  tickS : Nat
  /-- `T_SAMPLE_US`: timing only, read by no rule (R244) -/
  sampleUs : Nat
  /-- `ACQ_BASELINE`, host only (D31) -/
  acqBaseline : Bool
  deriving DecidableEq, Repr

/-- `SB_BYTES = 2 * SB_LEN` (R6). -/
def Params.sbBytes (p : Params) : Nat := 2 * p.sbLen

/-- The constraints of R6. DEDUCED (log 6): `CNT_W ≤ 32`, since the counters are answered as `zext_32(counter)` (R143,
R144, R145) and `zext_N` widens (R8). -/
def Params.valid (p : Params) : Bool :=
  decide (1 ≤ p.capacity) && decide (p.cntW ≤ 32) && decide (p.capacity < 2 ^ p.cntW) &&
    decide (1 ≤ p.sbLen) && decide (p.sbLen ≤ 128) && decide (1 ≤ p.chunk) && decide (p.chunk ≤ 65535)

/-- The reference configuration of R6. -/
def Config.reference : Params where
  capacity := 10000
  sbLen := 122
  cntW := 32
  getAtomic := true
  chunk := 244
  autoStopS := 30
  tickS := 1
  sampleUs := 62
  acqBaseline := false

/-- Free value (log 4): what a read of a ring cell that nothing has written since reset gives (R61, U5). No body: nothing
can be proved of it. -/
opaque Config.freeByte : Nat → Byte

/-- Free value (log 4): what a read of a sample cell that nothing has written since reset gives (R61, U5). No body: nothing
can be proved of it. -/
opaque Config.freeSample : Nat → Sample

end Sys2Proof
end

