-- ==== Sys2Proof/Machine/State.lean ====
section
/-! DEFINITION. The state of the block RBADC (spec 10_state.md), of its interface (R90, R98, R206) and of the environment
agents (43_environment_agents.md), as plain data, and the state right after reset (R44). -/

namespace Sys2Proof.Machine

/-- `drv_state` (R31). Its 2-bit codes are `DrvState.code`. -/
inductive DrvState where
  | notReady
  | ready
  | sampling
  | stopped
  deriving DecidableEq, Repr

/-- `cfg` (R34); the code 0b11 is never produced, so it is no value here (U13). -/
inductive CfgState where
  | unconfigured
  | configured
  | failed
  deriving DecidableEq, Repr

/-- The status of a response (R99); the codes 0x7 to 0xF are never returned, so they are no values here (U13). -/
inductive Status where
  | ok
  | notReady
  | noEffect
  | cfgError
  | badOperand
  | illegal
  | outOfOrder
  deriving DecidableEq, Repr

/-- A response record (R98). -/
structure Response where
  status : Status
  value : Word
  data : List Byte
  deriving DecidableEq, Repr

/-- An output event (R206). -/
inductive Event where
  /-- `OVW(c)`, c the new value of `ovw_count` -/
  | ovw (c : Nat)
  /-- `INFO_FIN()` -/
  | infoFin
  deriving DecidableEq, Repr

/-- A memory of cells of `w` bits: the written cells as (address, content) pairs, addresses strictly rising. A cell that is
not listed has not been written since reset and holds no value (R44, U5). `Memory 8` is a list of `Host.Cell`. -/
abbrev Memory (w : Nat) := List (Nat × BitVec w)

/-- What step G1 of a split RB.GET fixed, and the bytes step G2 read once it has run (R240). -/
structure GetProgress where
  k : Nat
  r0 : Nat
  out : Option (List Byte)
  deriving DecidableEq, Repr

/-- Who presented a command, which is who gets its response (R98). -/
inductive Source where
  /-- software or hardware the model leaves unconstrained (R180 a) -/
  | external
  /-- the converter, for a command whose answer it does not use (R182) -/
  | converter
  /-- the converter, for a buffer-request: the answer is its next destination (R182 c, R183 (2)) -/
  | converterRequest
  /-- the consumer loop (R186) -/
  | host
  deriving DecidableEq, Repr

/-- A command record waiting on a port (R90); the port gives its context tag. -/
structure Packet where
  word : Word
  payload : List Byte
  source : Source
  deriving DecidableEq, Repr

/-- A command that was answered, as its port saw it (R98). -/
structure Answer where
  ctx : Ctx
  response : Response
  deriving DecidableEq, Repr

/-- One move of the system: the block serves a port, or an agent of the environment acts. The arguments are the free
inputs of U15. -/
inductive Move where
  /-- the block serves the command at the head of the port with this tag (R72) -/
  | serve (c : Ctx)
  /-- an unconstrained agent presents a command record on a port (R180 a) -/
  | present (c : Ctx) (word : Word) (payload : List Byte)
  /-- a timer compare event: the converter takes a sample of value `v` (R181, R182 a) -/
  | sample (v : Sample)
  /-- the converter starts the buffer it was given (R182 c) -/
  | startBuffer
  /-- the converter finishes the buffer it fills (R182 b, e) -/
  | endOfBatch
  /-- the converter raises driver-ready (R182 d) -/
  | driverReady
  /-- the command collaborator delivers Start (R194) -/
  | startEvent
  /-- the command collaborator delivers Stop (R194) -/
  | stopEvent
  /-- the session timer raises a tick (R190) -/
  | tick
  /-- the consumer loop takes its next turn; `sendOk` is what the transport would answer to a send (R188, R193) -/
  | hostTurn (sendOk : Bool)
  deriving DecidableEq, Repr

/-- The converter's own state (R182). -/
structure Converter where
  /-- `f`, the buffer it is filling -/
  filling : Option (BitVec 1)
  /-- `p`, the position in it -/
  pos : Nat
  /-- the buffer it was given as next destination -/
  next : Option (BitVec 1)
  /-- driver-ready was raised (it is raised once, R182 d) -/
  readyRaised : Bool
  /-- a conversion-done of its own was answered since `trig_en` became 0: the one that may race with a stop has arrived
  (R184, R236; the field is the model's own, log 14) -/
  stopReported : Bool
  deriving DecidableEq, Repr

/-- `loop_state` (R186). -/
inductive LoopState where
  | idle
  | streaming
  deriving DecidableEq, Repr

/-- Which answer the consumer loop waits for (R187 to R191). -/
inductive HostPhase where
  /-- none: the loop can take its next turn -/
  | ready
  /-- the answer to ADC.START -/
  | awaitStart
  /-- the answer to the ADC.BYTES that gives the baseline (D31) -/
  | awaitBaseline
  /-- the answer to a drain's RB.GET -/
  | awaitChunk (sendOk : Bool)
  /-- the answer to the next telemetry read, after those in `got` -/
  | awaitTelemetry (got : List Word)
  /-- the answer to ADC.STOP -/
  | awaitStop
  deriving DecidableEq, Repr

/-- An asynchronous input of the host (R210). -/
inductive HostEvent where
  | start
  | stop
  | tick
  deriving DecidableEq, Repr

/-- A telemetry record of the observability sink (R195). The two quotients are not formed: the record carries both operands
of each (R190, N23; log 15). -/
structure Telemetry where
  elapsedS : Nat
  bytesSent : Nat
  acquired : Word
  occupied : Word
  writeCursor : Word
  readCursor : Word
  totalRead : Word
  totalWritten : Word
  deriving DecidableEq, Repr

/-- A chunk handed to the transport and whether the send succeeded (R188, R193). -/
structure Send where
  payload : List Byte
  ok : Bool
  deriving DecidableEq, Repr

/-- What the host reports to the sink (R195). -/
inductive HostReport where
  /-- the configuration failed with this error code (R202) -/
  | configError (code : Word)
  /-- a start command was rejected with this status (R187, R204) -/
  | startRejected (status : Status)
  /-- a send of so many bytes failed (R188) -/
  | sendFailed (bytes : Nat)
  deriving DecidableEq, Repr

/-- The state of the consumer loop, and what it has handed out (R186 to R195). -/
structure HostLoop where
  loopState : LoopState
  elapsedS : Nat
  bytesSent : Nat
  /-- the session timer is enabled (R187, R191) -/
  timerOn : Bool
  /-- the ADC.BYTES value at the start of the session (D31) -/
  baseline : Word
  phase : HostPhase
  /-- events delivered and not yet handled, oldest first -/
  inbox : List HostEvent
  telemetry : List Telemetry
  sends : List Send
  reports : List HostReport
  deriving DecidableEq, Repr

/-- Why the machine stops with a fault. The block itself never traps (R200), so no command's meaning raises one. -/
inductive Fault where
  /-- raised by `step` when the instance's parameters break a constraint of R6, so that there is no such block (log 6). SAFE:
  a state without a block proves nothing of any block -/
  | noSuchConfiguration
  deriving DecidableEq, Repr

/-- Why the machine gives no next state. No command's meaning raises one. -/
inductive Refusal where
  /-- raised by an arm of `exec` whose instruction has no meaning yet; no arm is left. SAFE -/
  | notModelled (mnemonic : String)
  /-- raised by the block's serving of a port when the record's payload has not the length its word gives: R90 knows no such
  record (log 7). SAFE -/
  | payloadNotOfLength
  deriving DecidableEq, Repr

/-- The state of one instance: the block, its interface, the environment agents and the scheduler's draws. -/
@[ext]
structure State where
  /-- the instance's parameters, never changed (R6, R41, R197) -/
  params : Params
  /-- `RB[]` (R20) -/
  ring : Memory 8
  /-- `wcur` (R21) -/
  wcur : Nat
  /-- `rcur` (R22) -/
  rcur : Nat
  /-- `occ` (R23) -/
  occ : Nat
  /-- `bytes_written` (R24) -/
  bytesWritten : Nat
  /-- `bytes_read` (R25) -/
  bytesRead : Nat
  /-- `ovw_count` (R26) -/
  ovwCount : Nat
  /-- `hen` (R27) -/
  hen : Bool
  /-- `inited` (R28) -/
  inited : Bool
  /-- `SB[][]` (R30), keyed by `sampleAddress` -/
  samples : Memory 16
  /-- `drv_state` (R31) -/
  drvState : DrvState
  /-- `act` (R32) -/
  act : BitVec 1
  /-- `event_count` (R33) -/
  eventCount : Nat
  /-- `cfg` (R34) -/
  cfg : CfgState
  /-- `cfg_err` (R35) -/
  cfgErr : BitVec 8
  /-- `fault` (R37) -/
  fault : BitVec 4
  /-- a split RB.GET between its steps (R240) -/
  getInFlight : Option GetProgress
  /-- the response to the last command served, absent while that command is a split RB.GET in progress (R98, R240) -/
  response : Option Response
  /-- the output event stream, oldest first (R206) -/
  events : List Event
  /-- the model's own: the answers given so far, oldest first (log 3) -/
  answered : List Answer
  /-- the model's own: the index of the next free value (log 4) -/
  draws : Nat
  /-- commands pending on port F, next first (R90, R43 b) -/
  portF : List Packet
  /-- commands pending on port P -/
  portP : List Packet
  /-- commands pending on port A -/
  portA : List Packet
  /-- commands pending under the reserved tag 0b11 (R96 c) -/
  portX : List Packet
  /-- the model's own: the scheduler's draws, next move first (R72 d, U14; log 2) -/
  schedule : List Move
  /-- the converter (R182) -/
  converter : Converter
  /-- the consumer loop (R186) -/
  host : HostLoop
  deriving DecidableEq, Repr

/-- The converter before anything is configured (log 5). -/
def Converter.initial : Converter where
  filling := none
  pos := 0
  next := none
  readyRaised := false
  stopReported := false

/-- The consumer loop at process start: Idle, with both session counters 0 (R186; the rest log 5). -/
def HostLoop.initial : HostLoop where
  loopState := .idle
  elapsedS := 0
  bytesSent := 0
  timerOn := false
  baseline := 0
  phase := .ready
  inbox := []
  telemetry := []
  sends := []
  reports := []

/-- The state of an instance with parameters `p` after reset (R44, R197). -/
def State.resetWith (p : Params) : State where
  params := p
  ring := []
  wcur := 0
  rcur := 0
  occ := 0
  bytesWritten := 0
  bytesRead := 0
  ovwCount := 0
  hen := false
  inited := false
  samples := []
  drvState := .notReady
  act := 0
  eventCount := 0
  cfg := .unconfigured
  cfgErr := 0
  fault := 0
  getInFlight := none
  response := none
  events := []
  answered := []
  draws := 0
  portF := []
  portP := []
  portA := []
  portX := []
  schedule := []
  converter := Converter.initial
  host := HostLoop.initial

/-- The state after reset, in the reference configuration (R6, R44). -/
def State.reset : State := State.resetWith Config.reference

end Sys2Proof.Machine
end

