-- ==== Sys2Proof/Machine/Flags.lean ====
section
/-! DEFINITION. The codes of the status fields, the sticky fault register, the continuous outputs and the word SYS.STATUS
answers (spec R31, R34, R36, R37, R99, R146). -/

namespace Sys2Proof.Machine

/-- The 2-bit code of `drv_state` (R31). -/
def DrvState.code : DrvState → BitVec 2
  | .notReady => 0b00
  | .ready => 0b01
  | .sampling => 0b10
  | .stopped => 0b11

/-- The 2-bit code of `cfg` (R34). -/
def CfgState.code : CfgState → BitVec 2
  | .unconfigured => 0b00
  | .configured => 0b01
  | .failed => 0b10

/-- The 4-bit status code of a response (R99). -/
def Status.code : Status → BitVec 4
  | .ok => 0x0
  | .notReady => 0x1
  | .noEffect => 0x2
  | .cfgError => 0x3
  | .badOperand => 0x4
  | .illegal => 0x5
  | .outOfOrder => 0x6

/-- `F_ILL`, bit 0 of `fault` (R37). -/
def faultIll : BitVec 4 := 0b0001

/-- `F_OPD`, bit 1 of `fault` (R37). -/
def faultOpd : BitVec 4 := 0b0010

/-- `F_SEQ`, bit 2 of `fault` (R37). -/
def faultSeq : BitVec 4 := 0b0100

/-- The fault bit that goes with a status, 0 for a status without one (R201). -/
def Status.faultBit : Status → BitVec 4
  | .ok => 0
  | .notReady => 0
  | .noEffect => 0
  | .cfgError => 0
  | .badOperand => faultOpd
  | .illegal => faultIll
  | .outOfOrder => faultSeq

/-- The output `trig_en` (R36). -/
def trigEn (s : State) : Bool := s.drvState == .sampling

/-- The output `bufsel` (R36). -/
def bufsel (s : State) : BitVec 1 := s.act

/-- The value SYS.STATUS answers (R146). -/
def statusWord (s : State) : Word :=
  0#12 ++ s.cfgErr ++ s.fault ++ 0#1 ++ BitVec.ofBool s.hen ++ BitVec.ofBool s.inited ++ s.act ++
    s.cfg.code ++ s.drvState.code

end Sys2Proof.Machine
end

