-- ==== Sys2Proof/Machine/Ops.lean ====
section
/-! DEFINITION. The shared operations: memory primitives (spec R61, R62), the response and the error report (R98, R200,
R201), output events (R206), counters (R24), the put core (R123) and the two forms of a get (R122, R240). -/

namespace Sys2Proof.Machine

/-- The canonical form of a memory: addresses strictly rising. Since an unlisted cell holds no value, every content may be
listed. -/
abbrev Memory.wf {w : Nat} (m : Memory w) : Prop := m.Pairwise (fun x y => x.1 < y.1)

/-- The content of a cell, absent if nothing has written it since reset (R61). -/
def memRead {w : Nat} : Memory w → Nat → Option (BitVec w)
  | [], _ => none
  | (b, u) :: m, a => if a = b then some u else memRead m a

/-- Writes one cell (R62). -/
def memWrite {w : Nat} : Memory w → Nat → BitVec w → Memory w
  | [], a, v => [(a, v)]
  | (b, u) :: m, a, v =>
    if a < b then (a, v) :: (b, u) :: m
    else if a = b then (a, v) :: m
    else (b, u) :: memWrite m a v

/-- Writes the bytes of `data` to the cells `a mod c`, `(a + 1) mod c`, and so on (R69, R123). -/
def memWriteRun (c : Nat) : Memory 8 → Nat → List Byte → Memory 8
  | m, _, [] => m
  | m, a, b :: data => memWriteRun c (memWrite m (a % c) b) (a + 1) data

/-- A read of ring cell `(a + i) mod C` as the `i`-th read of an operation: its content, or a free value if nothing has
written it (R61, R69, U5). -/
def ringRead (s : State) (a i : Nat) : Byte :=
  (memRead s.ring ((a + i) % s.params.capacity)).getD (Config.freeByte (s.draws + i))

/-- The `k` bytes from ring position `a` on (R69). -/
def ringReadRun (s : State) (a k : Nat) : List Byte := (List.range k).map (ringRead s a)

/-- Counter addition modulo `2 ^ CNT_W` (R24). -/
def counterAdd (s : State) (a b : Nat) : Nat := (a + b) % 2 ^ s.params.cntW

/-- Cursor advance modulo `C` (R69, R124). -/
def cursorAdd (s : State) (a k : Nat) : Nat := (a + k) % s.params.capacity

/-- `free = C - occ` (R23). -/
def freeSpace (s : State) : Nat := s.params.capacity - s.occ

/-- The response record of the command being served (R98). -/
def respond (st : Status) (value : Word) (data : List Byte) (s : State) : State :=
  { s with response := some { status := st, value := value, data := data } }

/-- Reports an error: sets the status' sticky fault bit and answers the status with value 0, and changes nothing else
(R200, R201). This is what the block has in place of an exception entry. -/
def reportError (st : Status) (s : State) : State :=
  respond st 0 [] { s with fault := s.fault ||| st.faultBit }

/-- An illegal command (R96). -/
def reportIllegal (s : State) : State := reportError .illegal s

/-- Appends an event to the output event stream (R206). -/
def emit (e : Event) (s : State) : State := { s with events := s.events ++ [e] }

/-- `k = min(L, free)`, the bytes of a put of length `len` that fit (R123). -/
def putAccepted (s : State) (len : Nat) : Nat := min len (freeSpace s)

/-- The first part of the put core: the prefix that fits is stored and the cursor, the occupancy and `bytes_written` follow
(R123). -/
def putStore (data : List Byte) (s : State) : State :=
  { s with
    ring := memWriteRun s.params.capacity s.ring s.wcur (data.take (putAccepted s data.length))
    wcur := cursorAdd s s.wcur (putAccepted s data.length)
    occ := s.occ + putAccepted s data.length
    bytesWritten := counterAdd s s.bytesWritten (putAccepted s data.length) }

/-- The second part of the put core: a truncated put is counted and, if a handler is registered, signalled with the new
count (R123, R212). -/
def countTruncated (s : State) : State :=
  if s.hen then
    emit (.ovw (counterAdd s s.ovwCount 1)) { s with ovwCount := counterAdd s s.ovwCount 1 }
  else { s with ovwCount := counterAdd s s.ovwCount 1 }

/-- The put core (R123), shared by RB.PUT and ADC.EVT_DONE. Its result `k` is `putAccepted`. -/
def putCore (data : List Byte) (s : State) : State :=
  if freeSpace s < data.length then countTruncated (putStore data s) else putStore data s

/-- `k = min(len, occ)`, the bytes a get of `len` returns (R122). -/
def getAvailable (s : State) (len : Nat) : Nat := min len s.occ

/-- The bytes leave the queue: cursor, occupancy and `bytes_read` after a get of `k` bytes from `r0` (R122, R240 G3). -/
def getRetire (r0 k : Nat) (s : State) : State :=
  { s with
    rcur := cursorAdd s r0 k
    occ := s.occ - k
    bytesRead := counterAdd s s.bytesRead k }

/-- Moves on the index of the free values by the `k` reads of an operation (log 4). -/
def advanceDraws (k : Nat) (s : State) : State := { s with draws := s.draws + k }

/-- RB.GET in one transition (R122). -/
def getWhole (len : Nat) (s : State) : State :=
  respond .ok (BitVec.ofNat 32 (getAvailable s len)) (ringReadRun s s.rcur (getAvailable s len))
    (getRetire s.rcur (getAvailable s len) (advanceDraws (getAvailable s len) s))

/-- Step G1 of a split RB.GET (R240): `k` and `r0` are fixed and nothing is answered yet. -/
def getBegin (len : Nat) (s : State) : State :=
  { s with
    getInFlight := some { k := getAvailable s len, r0 := s.rcur, out := none }
    response := none }

/-- Step G2 of a split RB.GET (R240): the bytes are read and nothing is answered yet. -/
def getFetch (g : GetProgress) (s : State) : State :=
  advanceDraws g.k
    { s with
      getInFlight := some { g with out := some (ringReadRun s g.r0 g.k) }
      response := none }

/-- Step G3 of a split RB.GET (R240). -/
def getFinish (g : GetProgress) (out : List Byte) (s : State) : State :=
  respond .ok (BitVec.ofNat 32 g.k) out (getRetire g.r0 g.k { s with getInFlight := none })

/-- The next step of a split RB.GET: G2 until the bytes are read, then G3 (R240). -/
def getContinue (g : GetProgress) (s : State) : State :=
  match g.out with
  | none => getFetch g s
  | some out => getFinish g out s

end Sys2Proof.Machine
end

