-- ==== Sys2Proof/Machine/Ports.lean ====
section
/-! DEFINITION. The command ports as queues of records presented and not yet answered (spec R90, R43 b, R72 c). -/

namespace Sys2Proof.Machine

/-- The commands pending under a context tag, next first. -/
def portQueue (c : Ctx) (s : State) : List Packet :=
  match c with
  | .foreground => s.portF
  | .interrupt => s.portP
  | .converter => s.portA
  | .reserved => s.portX

/-- Replaces the commands pending under a context tag. -/
def setPortQueue (c : Ctx) (q : List Packet) (s : State) : State :=
  match c with
  | .foreground => { s with portF := q }
  | .interrupt => { s with portP := q }
  | .converter => { s with portA := q }
  | .reserved => { s with portX := q }

/-- A record is presented on a port, behind those already pending there (R72 c, R184). -/
def present (c : Ctx) (p : Packet) (s : State) : State := setPortQueue c (portQueue c s ++ [p]) s

/-- An agent of the environment issues a command on the command's own port. -/
def issue (src : Source) (i : Instr) (s : State) : State :=
  present i.ctx { word := encodeWord i, payload := encodePayload i, source := src } s

end Sys2Proof.Machine
end

