-- ==== Sys2Proof/Machine/ConverterAgent.lean ====
section
/-! DEFINITION. The moves of the trigger and the converter (spec R181, R182), each a guarded change of the converter's own
state that issues commands on ports A and P. A move whose guard fails does nothing. The guards make this converter keep
ENV_HANDOFF (R183) and ENV_DELIVERY (R184); a converter that breaks them is an unconstrained sender (R180 a; log 14). -/

namespace Sys2Proof.Machine

/-- A conversion-done that the converter raised. -/
def isOwnDone (p : Packet) : Bool := p.source == .converter && opcodeField p.word == 0x23#8

/-- A conversion-done of the converter is raised and not yet delivered (R184). -/
def donePending (s : State) : Bool := s.portP.any isOwnDone

/-- A sample write of the converter is not yet in the store. -/
def samplesPending (s : State) : Bool := s.portA.any (fun p => p.source == .converter)

/-- Move (d) of R182: once, after the configuration succeeded, driver-ready is raised. The "buffer-set" step of that
configuration gave the converter buffer 0 as its first destination (R150, R183 (1)). DESIGN CHOICE (log 14): R182 speaks of
the external configuration; the converter of the model raises driver-ready only once ADC.CONFIG has reported that success to
the block, that is once `cfg` is Configured. -/
def converterDriverReady (s : State) : State :=
  if s.cfg = .configured ∧ s.converter.readyRaised = false then
    issue .converter .adcEvtReady
      { s with converter := { s.converter with readyRaised := true, next := some 0 } }
  else s

/-- Move (c) of R182: the converter starts buffer `b` and raises the buffer-request that will name the one after it. -/
def converterBegin (b : BitVec 1) (s : State) : State :=
  issue .converterRequest .adcEvtBufreq
    { s with converter := { s.converter with filling := some b, pos := 0, next := none } }

/-- The converter fills nothing and was given a buffer: it starts it, while `trig_en` is 1, since the production of
buffer-requests is gated by it (R210). -/
def converterStartBuffer (s : State) : State :=
  match s.converter.filling, s.converter.next with
  | none, some b => if trigEn s then converterBegin b s else s
  | none, none => s
  | some _, _ => s

/-- Move (a) of R182: a timer compare event, which the timer raises only while `trig_en` is 1 (R181), makes the converter
write one sample of value `v` into the buffer it fills. -/
def converterSample (v : Sample) (s : State) : State :=
  match s.converter.filling with
  | some f =>
    if trigEn s ∧ s.converter.pos < s.params.sbLen then
      issue .converter (.adcSwr f (BitVec.ofNat 7 s.converter.pos) v)
        { s with converter := { s.converter with pos := s.converter.pos + 1 } }
    else s
  | none => s

/-- The converter fills no buffer. The next destination it may have been given stays with it. -/
def converterRest (s : State) : State :=
  { s with converter := { s.converter with filling := none, pos := 0 } }

/-- The end-of-batch link (R181, R182 b, e): the converter starts the buffer it was given as next, or raises finished if it
was given none. While `trig_en` is 0 it raises nothing more (R210): it rests, and starts the next buffer after the next
ADC.START (log 14). -/
def converterLink (s : State) : State :=
  if trigEn s then
    match s.converter.next with
    | some b => converterBegin b s
    | none => issue .converter .adcEvtFin (converterRest s)
  else converterRest s

/-- What move (b) of R182 waits for. The buffer is full, and every entry of it is in the store, so that conversion-done never
copies an entry that was not written (U5 under ENV_HANDOFF). No earlier conversion-done waits for delivery, so that ADC.STOP
finds at most one, and none was answered since a stop, so that one at most follows it (R184, R236; log 14). A buffer that is
full when ADC.STOP runs, or whose last writes are then still on their way, is reported after the stop (P2 of the spec's
programs, lines 14 to 16). -/
def batchComplete (s : State) : Bool :=
  s.converter.pos == s.params.sbLen && !samplesPending s && !donePending s && !s.converter.stopReported

/-- Move (b) of R182: a full buffer is reported done with `n = SB_LEN`, then the end-of-batch link follows. -/
def converterEndOfBatch (s : State) : State :=
  match s.converter.filling with
  | some f =>
    if batchComplete s then
      converterLink (issue .converter (.adcEvtDone f (BitVec.ofNat 8 s.params.sbLen)) s)
    else s
  | none => s

/-- What the converter keeps of the answer to the record `p`, `s` being the state after the command: the one conversion-done
that may follow a stop is spent once a conversion-done of its own is answered while `trig_en` is 0, until `trig_en` is 1 again
(R184). -/
def converterAfterAnswer (p : Packet) (s : State) : Converter :=
  { s.converter with stopReported := !trigEn s && (isOwnDone p || s.converter.stopReported) }

/-- The answer to a buffer-request is the converter's next destination (R152, R183 (2)). -/
def converterReceive (r : Response) (s : State) : State :=
  { s with converter := { s.converter with next := some (r.value.extractLsb' 0 1) } }

end Sys2Proof.Machine
end

