-- ==== Sys2Proof/Machine/Operands.lean ====
section
/-! DEFINITION. The operands of the ADC commands: sample addresses, the ranges of `n` and `k`, and the bytes a conversion-done
copies (spec R60, R64, R93, R97, R153, R158). -/

namespace Sys2Proof.Machine

/-- The key of sample cell (idx, k): the 8-bit field of bits 23:16 of format W as a number (R60, R92; log 9). -/
def sampleAddress (idx : BitVec 1) (k : Nat) : Nat := idx.toNat * 128 + k

/-- `n` of ADC.EVT_DONE is legal: 0 to SB_LEN (R93, R153). -/
def countLegal (s : State) (n : BitVec 8) : Bool := decide (n.toNat ≤ s.params.sbLen)

/-- `k` of ADC.SWR is legal: 0 to SB_LEN - 1 (R93, R158). -/
def entryLegal (s : State) (k : BitVec 7) : Bool := decide (k.toNat < s.params.sbLen)

/-- A read of sample cell (idx, j) as the `j`-th read of an operation: its content, or a free value if nothing has written
it (R61, U5). -/
def sampleRead (s : State) (idx : BitVec 1) (j : Nat) : Sample :=
  (memRead s.samples (sampleAddress idx j)).getD (Config.freeSample (s.draws + j))

/-- A sample as bytes, low byte first (R64). -/
def sampleBytes (v : Sample) : List Byte := [v.extractLsb' 0 8, v.extractLsb' 8 8]

/-- The 2n bytes of the first `n` samples of a buffer, in rising entry order (R64, R153). -/
def bufferBytes (s : State) (idx : BitVec 1) (n : Nat) : List Byte :=
  (List.range n).flatMap (fun j => sampleBytes (sampleRead s idx j))

end Sys2Proof.Machine
end

