-- ==== Sys2Proof/Machine/Handoff.lean ====
section
/-! DEFINITION. The ADC handoff commands (spec R150 to R158). -/

namespace Sys2Proof.Machine

/-- ADC.CONFIG (R150). -/
def execAdcConfig (err : BitVec 8) (s : State) : Host.Outcome State Fault Refusal :=
  if s.cfg = .unconfigured then
    if err = 0 then .next (respond .ok 0 [] { s with cfg := .configured, act := 0 })
    else .next (respond .cfgError (err.zeroExtend 32) [] { s with cfg := .failed, cfgErr := err })
  else .next (respond .noEffect (s.cfgErr.zeroExtend 32) [] s)

/-- ADC.EVT_READY (R151). -/
def execAdcEvtReady (s : State) : Host.Outcome State Fault Refusal :=
  if s.drvState = .notReady ∧ s.cfg = .configured then
    .next (respond .ok 0 [] { s with drvState := .ready })
  else .next (respond .noEffect 0 [] s)

/-- ADC.EVT_BUFREQ (R152). -/
def execAdcEvtBufreq (s : State) : Host.Outcome State Fault Refusal :=
  .next (respond .ok ((s.act ^^^ 1).zeroExtend 32) [] { s with act := s.act ^^^ 1 })

/-- ADC.EVT_DONE (R153): the first `n` samples of the buffer go through the put core as bytes, and the event is counted. -/
def execAdcEvtDone (idx : BitVec 1) (n : BitVec 8) (s : State) : Host.Outcome State Fault Refusal :=
  if s.inited then
    if countLegal s n then
      .next (respond .ok (BitVec.ofNat 32 (putAccepted s (2 * n.toNat))) []
        { putCore (bufferBytes s idx n.toNat) (advanceDraws n.toNat s) with
          eventCount := counterAdd s s.eventCount 1 })
    else .next (reportError .badOperand s)
  else .next (reportError .outOfOrder s)

/-- ADC.EVT_FIN (R154). -/
def execAdcEvtFin (s : State) : Host.Outcome State Fault Refusal :=
  .next (respond .ok 0 [] (emit .infoFin s))

/-- ADC.START (R155). -/
def execAdcStart (s : State) : Host.Outcome State Fault Refusal :=
  match s.drvState with
  | .notReady => .next (respond .notReady 0 [] s)
  | .ready => .next (respond .ok 0 [] { s with drvState := .sampling })
  | .stopped => .next (respond .ok 0 [] { s with drvState := .sampling })
  | .sampling => .next (respond .noEffect 0 [] s)

/-- ADC.STOP (R156). -/
def execAdcStop (s : State) : Host.Outcome State Fault Refusal :=
  if s.drvState = .sampling then .next (respond .ok 0 [] { s with drvState := .stopped })
  else .next (respond .noEffect 0 [] s)

/-- ADC.BYTES (R157): the product over the naturals, truncated to 32 bits. -/
def execAdcBytes (s : State) : Host.Outcome State Fault Refusal :=
  .next (respond .ok (BitVec.ofNat 32 (s.eventCount * s.params.sbBytes)) [] s)

/-- ADC.SWR (R158). -/
def execAdcSwr (idx : BitVec 1) (k : BitVec 7) (v : Sample) (s : State) : Host.Outcome State Fault Refusal :=
  if entryLegal s k then
    .next (respond .ok 0 [] { s with samples := memWrite s.samples (sampleAddress idx k.toNat) v })
  else .next (reportError .badOperand s)

end Sys2Proof.Machine
end

