-- ==== Sys2Proof/Machine/Introspection.lean ====
section
/-! DEFINITION. The introspection commands (spec R140 to R146): each answers a value and changes nothing. -/

namespace Sys2Proof.Machine

/-- `respond(OK, zext_32(v))`, the whole of a read (41_introspection.md). -/
def answerValue (v : Word) (s : State) : Host.Outcome State Fault Refusal := .next (respond .ok v [] s)

/-- SYS.STATUS (R146). -/
def execSysStatus (s : State) : Host.Outcome State Fault Refusal := answerValue (statusWord s) s

/-- RB.OCC (R140). -/
def execRbOcc (s : State) : Host.Outcome State Fault Refusal := answerValue (BitVec.ofNat 32 s.occ) s

/-- RB.WCUR (R141). -/
def execRbWcur (s : State) : Host.Outcome State Fault Refusal := answerValue (BitVec.ofNat 32 s.wcur) s

/-- RB.RCUR (R142). -/
def execRbRcur (s : State) : Host.Outcome State Fault Refusal := answerValue (BitVec.ofNat 32 s.rcur) s

/-- RB.TOTRD (R143). -/
def execRbTotrd (s : State) : Host.Outcome State Fault Refusal := answerValue (BitVec.ofNat 32 s.bytesRead) s

/-- RB.TOTWR (R144). -/
def execRbTotwr (s : State) : Host.Outcome State Fault Refusal := answerValue (BitVec.ofNat 32 s.bytesWritten) s

/-- RB.OVWC (R145). -/
def execRbOvwc (s : State) : Host.Outcome State Fault Refusal := answerValue (BitVec.ofNat 32 s.ovwCount) s

end Sys2Proof.Machine
end

