-- ==== Sys2Proof/Machine/Ring.lean ====
section
/-! DEFINITION. The ring buffer commands RB.INIT, RB.PUT and RB.GET (spec R120 to R122, R240). -/

namespace Sys2Proof.Machine

/-- RB.INIT (R120). -/
def execRbInit (hen : Bool) (s : State) : Host.Outcome State Fault Refusal :=
  if s.inited then .next (reportError .outOfOrder s)
  else
    .next (respond .ok 0 []
      { s with
        wcur := 0
        rcur := 0
        occ := 0
        bytesWritten := 0
        bytesRead := 0
        ovwCount := 0
        hen := hen
        inited := true })

/-- RB.PUT (R121). -/
def execRbPut (data : List Byte) (s : State) : Host.Outcome State Fault Refusal :=
  if s.inited then
    .next (respond .ok (BitVec.ofNat 32 (putAccepted s data.length)) [] (putCore data s))
  else .next (reportError .outOfOrder s)

/-- RB.GET (R122); with `GET_ATOMIC` false its step G1 (R240), `getContinue` being the steps after it. -/
def execRbGet (len : BitVec 16) (s : State) : Host.Outcome State Fault Refusal :=
  if s.inited then
    if s.params.getAtomic then .next (getWhole len.toNat s) else .next (getBegin len.toNat s)
  else .next (reportError .outOfOrder s)

end Sys2Proof.Machine
end

