-- ==== Sys2Proof/Machine/Dispatch.lean ====
section
/-! DEFINITION. One arm per command: its meaning. -/

namespace Sys2Proof.Machine

def exec (i : Instr) (s : State) : Host.Outcome State Fault Refusal :=
  match i with
  | .sysStatus => Sys2Proof.Machine.execSysStatus s
  | .rbInit hen => Sys2Proof.Machine.execRbInit hen s
  | .rbPut data => Sys2Proof.Machine.execRbPut data s
  | .rbGet len => Sys2Proof.Machine.execRbGet len s
  | .rbOcc => Sys2Proof.Machine.execRbOcc s
  | .rbWcur => Sys2Proof.Machine.execRbWcur s
  | .rbRcur => Sys2Proof.Machine.execRbRcur s
  | .rbTotrd => Sys2Proof.Machine.execRbTotrd s
  | .rbTotwr => Sys2Proof.Machine.execRbTotwr s
  | .rbOvwc => Sys2Proof.Machine.execRbOvwc s
  | .adcConfig err => Sys2Proof.Machine.execAdcConfig err s
  | .adcEvtReady => Sys2Proof.Machine.execAdcEvtReady s
  | .adcEvtBufreq => Sys2Proof.Machine.execAdcEvtBufreq s
  | .adcEvtDone idx n => Sys2Proof.Machine.execAdcEvtDone idx n s
  | .adcEvtFin => Sys2Proof.Machine.execAdcEvtFin s
  | .adcStart => Sys2Proof.Machine.execAdcStart s
  | .adcStop => Sys2Proof.Machine.execAdcStop s
  | .adcBytes => Sys2Proof.Machine.execAdcBytes s
  | .adcSwr idx k v => Sys2Proof.Machine.execAdcSwr idx k v s

end Sys2Proof.Machine
end

