-- ==== Sys2Proof/Machine/HostAgent.lean ====
section
/-! DEFINITION. The streaming consumer loop (spec R186 to R195): its turns, which issue commands on port F, and what it does
with each answer. Between a command and its answer any command of another port may be served. -/

namespace Sys2Proof.Machine

/-- The host issues a command and waits in phase `p` for the answer. -/
def hostIssue (p : HostPhase) (i : Instr) (s : State) : State :=
  issue .host i { s with host := { s.host with phase := p } }

/-- An event reaches the host (R190, R194). -/
def hostDeliver (e : HostEvent) (s : State) : State :=
  { s with host := { s.host with inbox := s.host.inbox ++ [e] } }

/-- The session timer raises a tick only while it is enabled (R190). -/
def hostTimerTick (s : State) : State := if s.host.timerOn then hostDeliver .tick s else s

/-- The stop transition (R191): the session timer is disabled and ADC.STOP is issued; ticks it raised before are gone, since
a tick in Idle cannot occur (R190; log 12). -/
def hostStop (s : State) : State :=
  hostIssue .awaitStop .adcStop
    { s with host := { s.host with timerOn := false, inbox := s.host.inbox.filter (· ≠ .tick) } }

/-- What the host does with an event: a Start in Idle issues ADC.START (R187), a Stop in Streaming is the stop transition
(R191), a tick in Streaming counts and begins the telemetry reads (R190), and the rest is ignored (R191). -/
def hostHandle (e : HostEvent) (s : State) : State :=
  match e, s.host.loopState with
  | .start, .idle => hostIssue .awaitStart .adcStart s
  | .start, .streaming => s
  | .stop, .idle => s
  | .stop, .streaming => hostStop s
  | .tick, .idle => s
  | .tick, .streaming =>
    hostIssue (.awaitTelemetry []) .adcBytes
      { s with host := { s.host with elapsedS := s.host.elapsedS + 1 } }

/-- A drain (R188): one RB.GET of CHUNK bytes. -/
def hostDrain (sendOk : Bool) (s : State) : State :=
  hostIssue (.awaitChunk sendOk) (.rbGet (BitVec.ofNat 16 s.params.chunk)) s

/-- The host's turn, if it waits for no answer: the oldest event, or a drain if there is none and it is Streaming
(R187 to R191). -/
def hostTurn (sendOk : Bool) (s : State) : State :=
  if s.host.phase = .ready then
    match s.host.inbox with
    | e :: rest => hostHandle e { s with host := { s.host with inbox := rest } }
    | [] =>
      match s.host.loopState with
      | .streaming => hostDrain sendOk s
      | .idle => s
  else s

/-- A session begins (R187); with ACQ_BASELINE the host then reads its baseline (D31; log 13). -/
def hostSessionBegins (s : State) : State :=
  if s.params.acqBaseline then
    hostIssue .awaitBaseline .adcBytes
      { s with host :=
        { s.host with loopState := .streaming, timerOn := true, elapsedS := 0, bytesSent := 0 } }
  else
    { s with host :=
      { s.host with
        loopState := .streaming
        timerOn := true
        elapsedS := 0
        bytesSent := 0
        phase := .ready } }

/-- The answer to ADC.START: OK begins the session, any other status is reported and the host stays Idle (R187, R204;
log 11). -/
def hostReceiveStart (r : Response) (s : State) : State :=
  if r.status = .ok then hostSessionBegins s
  else
    { s with host :=
      { s.host with phase := .ready, reports := s.host.reports ++ [.startRejected r.status] } }

/-- The answer to a drain (R188): a non-empty chunk is handed to the transport; success counts the bytes, failure is reported
and the chunk is not sent again. An empty chunk is not sent (R189). -/
def hostReceiveChunk (sendOk : Bool) (r : Response) (s : State) : State :=
  if r.data = [] then { s with host := { s.host with phase := .ready } }
  else if sendOk then
    { s with host :=
      { s.host with
        phase := .ready
        sends := s.host.sends ++ [{ payload := r.data, ok := true }]
        bytesSent := s.host.bytesSent + r.data.length } }
  else
    { s with host :=
      { s.host with
        phase := .ready
        sends := s.host.sends ++ [{ payload := r.data, ok := false }]
        reports := s.host.reports ++ [.sendFailed r.data.length] } }

/-- The acquired total of the telemetry: the ADC.BYTES value, or with ACQ_BASELINE its difference from the baseline modulo
2^32 (D31). -/
def hostAcquired (s : State) (v : Word) : Word := if s.params.acqBaseline then v - s.host.baseline else v

/-- The last telemetry read is answered: one record is emitted and then the automatic stop is checked (R190). -/
def hostEmitTelemetry (t : Telemetry) (s : State) : State :=
  if s.params.autoStopS ≤ s.host.elapsedS then
    hostStop { s with host := { s.host with telemetry := s.host.telemetry ++ [t] } }
  else
    { s with host := { s.host with phase := .ready, telemetry := s.host.telemetry ++ [t] } }

/-- The answer to a telemetry read: the next of the six is issued, in the order of R195, or the record is complete. -/
def hostReceiveTelemetry (got : List Word) (v : Word) (s : State) : State :=
  match got with
  | [] => hostIssue (.awaitTelemetry [v]) .rbOcc s
  | [a] => hostIssue (.awaitTelemetry [a, v]) .rbWcur s
  | [a, b] => hostIssue (.awaitTelemetry [a, b, v]) .rbRcur s
  | [a, b, c] => hostIssue (.awaitTelemetry [a, b, c, v]) .rbTotrd s
  | [a, b, c, d] => hostIssue (.awaitTelemetry [a, b, c, d, v]) .rbTotwr s
  | a :: b :: c :: d :: e :: _ =>
    hostEmitTelemetry
      { elapsedS := s.host.elapsedS
        bytesSent := s.host.bytesSent
        acquired := hostAcquired s a
        occupied := b
        writeCursor := c
        readCursor := d
        totalRead := e
        totalWritten := v } s

/-- The answer to ADC.STOP: the per-session counters are reset and the loop is Idle (R191). DESIGN CHOICE (log 11): R191 does
not say what the host does where ADC.STOP is answered NO_EFFECT, and R195 names "the host's reports of rejected commands"
without listing them; the model ends the session on any answer, and reports nothing to the sink for a rejected ADC.STOP. -/
def hostReceiveStop (s : State) : State :=
  { s with host := { s.host with loopState := .idle, elapsedS := 0, bytesSent := 0, phase := .ready } }

/-- The host's report of a configuration error, when ADC.CONFIG, the set-up software's command, is answered CFG_ERROR (R195,
R198, R202). No other answer has that status, so it is reported once. -/
def hostReportConfigError (r : Response) (s : State) : State :=
  if r.status = .cfgError then
    { s with host := { s.host with reports := s.host.reports ++ [.configError r.value] } }
  else s

/-- The host receives the answer to its command. -/
def hostReceive (r : Response) (s : State) : State :=
  match s.host.phase with
  | .ready => s
  | .awaitStart => hostReceiveStart r s
  | .awaitBaseline => { s with host := { s.host with phase := .ready, baseline := r.value } }
  | .awaitChunk sendOk => hostReceiveChunk sendOk r s
  | .awaitTelemetry got => hostReceiveTelemetry got r.value s
  | .awaitStop => hostReceiveStop s

end Sys2Proof.Machine
end

