-- ==== Sys2Proof/Machine/Serve.lean ====
section
/-! DEFINITION. One move of the system: the block serves the command at the head of a port, or an agent of the environment
moves (spec R9, R72, R73, R96, R180, R240). -/

namespace Sys2Proof.Machine

/-- The split RB.GET that port `c` is in the middle of: only port F can be (R240). -/
def getPending (c : Ctx) (s : State) : Option GetProgress :=
  match c with
  | .foreground => s.getInFlight
  | .interrupt => none
  | .converter => none
  | .reserved => none

/-- The block takes a fresh command record: an illegal one is reported (R96), a legal one executed. -/
def runRecord (c : Ctx) (p : Packet) (s : State) : Host.Outcome State Fault Refusal :=
  match decodeCommand c p.word p.payload with
  | .ok i => exec i s
  | .error .unassignedOpcode => .next (reportIllegal s)
  | .error .mbzNotZero => .next (reportIllegal s)
  | .error .reservedContext => .next (reportIllegal s)
  | .error .wrongContext => .next (reportIllegal s)
  | .error .payloadNotOfLength => .refused .payloadNotOfLength

/-- The block's work on the record at the head of port `c`: the next step of a split RB.GET, or a fresh command. -/
def runPacket (c : Ctx) (p : Packet) (s : State) : Host.Outcome State Fault Refusal :=
  match getPending c s with
  | some g => .next (getContinue g s)
  | none => runRecord c p s

/-- Who presented the command gets the response (R98). Of the commands no agent of the model presents, a failed ADC.CONFIG is
what the host reports (R195; log 16). -/
def deliver (src : Source) (r : Response) (s : State) : State :=
  match src with
  | .external => hostReportConfigError r s
  | .converter => s
  | .converterRequest => converterReceive r s
  | .host => hostReceive r s

/-- Once the command is answered it leaves its port and its response goes back (R98), and the converter keeps count of the
conversion-done that may follow a stop (R184); a split RB.GET that is not answered yet stays (R240; log 3). -/
def settle (c : Ctx) (p : Packet) (rest : List Packet) (s : State) : State :=
  match s.response with
  | none => s
  | some r =>
    deliver p.source r
      { setPortQueue c rest s with
        answered := s.answered ++ [{ ctx := c, response := r }]
        converter := converterAfterAnswer p s }

/-- Applies `f` to the next state, if there is one. -/
def onNext (f : State → State) (o : Host.Outcome State Fault Refusal) : Host.Outcome State Fault Refusal :=
  match o with
  | .next t => .next (f t)
  | .fault e => .fault e
  | .refused r => .refused r

/-- The block serves port `c`: nothing happens if nothing is pending there. -/
def serve (c : Ctx) (s : State) : Host.Outcome State Fault Refusal :=
  match portQueue c s with
  | [] => .next s
  | p :: rest => onNext (settle c p rest) (runPacket c p s)

/-- One move of the system (R72, R180). -/
def performMove (m : Move) (s : State) : Host.Outcome State Fault Refusal :=
  match m with
  | .serve c => serve c s
  | .present c w payload => .next (present c { word := w, payload := payload, source := .external } s)
  | .sample v => .next (converterSample v s)
  | .startBuffer => .next (converterStartBuffer s)
  | .endOfBatch => .next (converterEndOfBatch s)
  | .driverReady => .next (converterDriverReady s)
  | .startEvent => .next (hostDeliver .start s)
  | .stopEvent => .next (hostDeliver .stop s)
  | .tick => .next (hostTimerTick s)
  | .hostTurn sendOk => .next (hostTurn sendOk s)

/-- The scheduler's next draw is performed; with none the system rests, which no rule forbids and no rule announces
(R246). An instance whose parameters break R6 does not exist (log 6). -/
def performNext (s : State) : Host.Outcome State Fault Refusal :=
  if s.params.valid then
    match s.schedule with
    | [] => .next s
    | m :: rest => performMove m { s with schedule := rest }
  else .fault .noSuchConfiguration

/-- Places a command word, with a payload of zeros, at the head of the port the opcode map names for it and lets the next move
serve that port; a split RB.GET that stands in the way is put back to its beginning. -/
def placeCommand (w : Word) (s : State) : State :=
  let p : Packet := { word := w, payload := zeroPayload w, source := .external }
  let c := portOfWord w
  setPortQueue c (p :: portQueue c s)
    { s with
      schedule := .serve c :: s.schedule
      getInFlight := if c = .foreground then none else s.getInFlight }

end Sys2Proof.Machine
end

