-- ==== Sys2Proof/Machine/Step.lean ====
section
/-! DEFINITION. The step of the system, and how a command word is placed where the next step takes it. -/

namespace Sys2Proof.Machine

/-- One step: the next move of the schedule (R72). -/
def step (s : State) : Host.Outcome State Fault Refusal := performNext s

/-- The state with the command word of a table row presented where the next step serves it (log 1). -/
def State.withFetchWord (s : State) (nbits w : Nat) : State := placeCommand (tableWord nbits w) s

end Sys2Proof.Machine
end

