-- ==== Sys2Proof/Safety.lean ====
section
/-! DEFINITION. The terms the claims use: the invariants of the spec (R29, R34, R37, R159, R186, R199, R240), the queue the
ring holds (R29 I5, R125), and runs of commands and of steps. -/

namespace Sys2Proof.Machine

/-- The occupied cells in the order their bytes were accepted (R29 I5): what `RB[(rcur + i) mod C]` holds for
`0 ≤ i < occ`, absent for a cell nothing has written. -/
def occupied (s : State) : List (Option Byte) :=
  (List.range s.occ).map (fun i => memRead s.ring ((s.rcur + i) % s.params.capacity))

/-- I1 to I5 of R29, with the constraints on the parameters they need (R6), the ranges of the counters and the form of the
store. -/
structure RingInv (s : State) : Prop where
  /-- R6 -/
  valid : s.params.valid = true
  /-- I1 -/
  occ_le : s.occ ≤ s.params.capacity
  /-- I2 -/
  wcur_lt : s.wcur < s.params.capacity
  /-- I2 -/
  rcur_lt : s.rcur < s.params.capacity
  /-- I3 -/
  cursors : ((s.wcur : Int) - s.rcur) % s.params.capacity = (s.occ : Int) % s.params.capacity
  /-- I4 -/
  totals : ((s.bytesWritten : Int) - s.bytesRead) % (2 ^ s.params.cntW : Nat) = s.occ
  written_lt : s.bytesWritten < 2 ^ s.params.cntW
  read_lt : s.bytesRead < 2 ^ s.params.cntW
  ovw_lt : s.ovwCount < 2 ^ s.params.cntW
  /-- I5: every occupied cell was written -/
  held : ∀ i < s.occ, (memRead s.ring ((s.rcur + i) % s.params.capacity)).isSome
  ring_wf : Memory.wf s.ring
  ring_range : ∀ x ∈ s.ring, x.1 < s.params.capacity

/-- A split RB.GET in progress counts bytes that are still occupied, and what step G2 read is what those cells hold
(R240). -/
def GetInv (s : State) : Prop :=
  ∀ g, s.getInFlight = some g →
    s.inited = true ∧ s.params.getAtomic = false ∧ g.r0 = s.rcur ∧ g.k ≤ s.occ ∧
      ∀ out, g.out = some out → out.map some = (occupied s).take g.k

/-- Unit ADC: only a configured driver leaves NotReady (R159), the error code belongs to a failed configuration (R34, R35),
and the sample store lists only cells that exist. -/
structure AdcInv (s : State) : Prop where
  ready_configured : s.drvState ≠ .notReady → s.cfg = .configured
  err_failed : s.cfgErr ≠ 0 ↔ s.cfg = .failed
  events_lt : s.eventCount < 2 ^ s.params.cntW
  samples_wf : Memory.wf s.samples
  samples_range : ∀ x ∈ s.samples, x.1 < 256 ∧ x.1 % 128 < s.params.sbLen

/-- Bit 3 of `fault` is always 0 (R37). -/
def FaultInv (s : State) : Prop := s.fault.getLsbD 3 = false

/-- Before RB.INIT unit RB is as reset left it, so that the introspection commands answer the reset values
(41_introspection.md, R234). -/
def UninitInv (s : State) : Prop :=
  s.inited = false →
    s.wcur = 0 ∧ s.rcur = 0 ∧ s.occ = 0 ∧ s.bytesWritten = 0 ∧ s.bytesRead = 0 ∧ s.ovwCount = 0 ∧
      s.hen = false ∧ s.events.all (fun e => e == .infoFin) = true

/-- The host's counters are 0 in Idle, the session timer is then off, and the host then waits for no answer but that to
ADC.START; while it waits for the answer to ADC.STOP the timer is off (R186, R187, R191). -/
def HostInv (s : State) : Prop :=
  (s.host.loopState = .idle →
    s.host.elapsedS = 0 ∧ s.host.bytesSent = 0 ∧ s.host.timerOn = false ∧
      (s.host.phase = .ready ∨ s.host.phase = .awaitStart)) ∧
    (s.host.phase = .awaitStop → s.host.timerOn = false)

/-- The converter's position is within its buffer (R182). -/
def ConverterInv (s : State) : Prop := s.converter.pos ≤ s.params.sbLen

/-- A status stands in the history of answers. -/
def answeredWith (s : State) (st : Status) : Bool := s.answered.any (fun a => a.response.status == st)

/-- The fault register says exactly which error statuses were answered (R199, premise NO_FAULT). -/
def FaultHistoryInv (s : State) : Prop :=
  s.fault.getLsbD 0 = answeredWith s .illegal ∧
    s.fault.getLsbD 1 = answeredWith s .badOperand ∧
      s.fault.getLsbD 2 = answeredWith s .outOfOrder

/-- Everything the spec says of every state of the block. -/
structure BlockInv (s : State) : Prop where
  ring : RingInv s
  get : GetInv s
  adc : AdcInv s
  faultBits : FaultInv s
  uninit : UninitInv s

/-- The commands of a list one after the other, stopping at the first fault or refusal. -/
def runCommands : List Instr → State → Host.Outcome State Fault Refusal
  | [], s => .next s
  | i :: is, s =>
    match exec i s with
    | .next t => runCommands is t
    | .fault f => .fault f
    | .refused r => .refused r

/-- The command the next step runs as a fresh command, if it runs one. -/
def nextCommand (s : State) : Option Instr :=
  match s.schedule with
  | .serve c :: _ =>
    match portQueue c s, getPending c s with
    | p :: _, none =>
      match decodeCommand c p.word p.payload with
      | .ok i => some i
      | .error _ => none
    | _, _ => none
  | _ => none

/-- The bytes of a put that the ring stores: the prefix `data[0..k-1]` of R125. -/
def storedBytes (i : Instr) (s : State) : List Byte :=
  if s.inited then
    match i with
    | .rbPut data => data.take (putAccepted s data.length)
    | .adcEvtDone idx n =>
      if countLegal s n then (bufferBytes s idx n.toNat).take (putAccepted s (2 * n.toNat)) else []
    | _ => []
  else []

/-- What the next step adds to `A` of R125. -/
def stepStored (s : State) : List Byte :=
  match nextCommand s with
  | some i => storedBytes i s
  | none => []

/-- `A` of R125 over the next `n` steps: the bytes the puts among them stored, in order. -/
def runStored : Nat → State → List Byte
  | 0, _ => []
  | n + 1, s =>
    stepStored s ++
      match step s with
      | .next t => runStored n t
      | .fault _ => []
      | .refused _ => []

/-- `G` of R125: the bytes the gets answered so far returned, in order (no other command answers with data, R98). -/
def returnedBytes (s : State) : List Byte := s.answered.flatMap (fun a => a.response.data)

/-- `n` steps of the system, stopping at the first fault or refusal. -/
def runSteps : Nat → State → Host.Outcome State Fault Refusal
  | 0, s => .next s
  | n + 1, s =>
    match step s with
    | .next t => runSteps n t
    | .fault f => .fault f
    | .refused r => .refused r

/-- What the put core does to the store (R123): `k` bytes of `data` are stored at `(wcur + i) mod C` for `i < k`, and no
other cell changes. -/
def StoresPrefix (s : State) (data : List Byte) (k : Nat) (ring : Memory 8) : Prop :=
  k = min data.length (s.params.capacity - s.occ) ∧
    (∀ i < k, memRead ring ((s.wcur + i) % s.params.capacity) = data[i]?) ∧
      ∀ a, (∀ i < k, a ≠ (s.wcur + i) % s.params.capacity) → memRead ring a = memRead s.ring a

/-- The transition table of R159: what `drv_state` becomes, and the status where the table gives one. -/
def transitionTable (i : Instr) (cfg : CfgState) (d : DrvState) : DrvState × Option Status :=
  match i, d with
  | .adcEvtReady, .notReady => if cfg = .configured then (.ready, some .ok) else (.notReady, some .noEffect)
  | .adcEvtReady, .ready => (.ready, some .noEffect)
  | .adcEvtReady, .sampling => (.sampling, some .noEffect)
  | .adcEvtReady, .stopped => (.stopped, some .noEffect)
  | .adcStart, .notReady => (.notReady, some .notReady)
  | .adcStart, .ready => (.sampling, some .ok)
  | .adcStart, .sampling => (.sampling, some .noEffect)
  | .adcStart, .stopped => (.sampling, some .ok)
  | .adcStop, .notReady => (.notReady, some .noEffect)
  | .adcStop, .ready => (.ready, some .noEffect)
  | .adcStop, .sampling => (.stopped, some .ok)
  | .adcStop, .stopped => (.stopped, some .noEffect)
  | _, d => (d, none)

/-- While Streaming the session's elapsed time is at most AUTO_STOP_S, and below it unless a tick is being reported or the
stop is on its way (R190, R192). -/
def AutoStopInv (s : State) : Prop :=
  s.host.loopState = .streaming →
    s.host.elapsedS ≤ s.params.autoStopS ∧
      ((∀ got, s.host.phase ≠ .awaitTelemetry got) → s.host.phase ≠ .awaitStop →
        s.host.elapsedS < s.params.autoStopS)

/-! ### The premises on the converter (R180 b, R199) -/

/-- How many conversion-dones of the converter are raised and not yet delivered (R184). -/
def donesPending (s : State) : Nat := s.portP.countP isOwnDone

/-- How many buffer-requests of the converter are raised and not yet delivered. -/
def requestsPending (s : State) : Nat := s.portP.countP (fun p => p.source == .converterRequest)

/-- How many conversion-dones of the converter the next step takes off port P: one, if it serves that port and one is at its
head. -/
def stepDelivers (s : State) : Nat :=
  match s.schedule, s.portP with
  | .serve .interrupt :: _, p :: _ => if isOwnDone p then 1 else 0
  | _, _ => 0

/-- How many conversion-dones of the converter arrive over the next `n` steps while `trig_en` stays 0: after a stop, those
that arrive until the next ADC.START (R184). -/
def donesWhileStopped : Nat → State → Nat
  | 0, _ => 0
  | n + 1, s =>
    if trigEn s then 0
    else
      match step s with
      | .next t => stepDelivers s + donesWhileStopped n t
      | .fault _ => 0
      | .refused _ => 0

/-- The record of a command that the converter presented. -/
def converterRecord (i : Instr) : Packet where
  word := encodeWord i
  payload := encodePayload i
  source := if i = .adcEvtBufreq then .converterRequest else .converter

/-- The conversion-done of a full buffer `b` (R183 (3)). -/
def doneOf (s : State) (b : BitVec 1) : Instr := .adcEvtDone b (BitVec.ofNat 8 s.params.sbLen)

/-- A buffer-request or a conversion-done, the notifications of the handoff (R183 (4)). -/
def isHandoff (i : Instr) : Bool := i.opcode == 0x22#8 || i.opcode == 0x23#8

/-- Every entry of buffer `b` was written. -/
def bufferWritten (s : State) (b : BitVec 1) (len : Nat) : Prop :=
  ∀ k < len, (memRead s.samples (sampleAddress b k)).isSome

/-- Where the two buffers are (R183 (1) to (4), (6)), `q` being the buffer-requests and conversion-dones on their way to the
block. The next destination, once answered, is the other buffer than the one being filled and is `act`; a buffer whose
conversion-done is on its way is not being filled. -/
def handoffOrder (s : State) (q : List Instr) : Prop :=
  match s.converter.filling, s.converter.next with
  | some f, none => s.act = f ∧ (q = [.adcEvtBufreq] ∨ q = [doneOf s (f ^^^ 1), .adcEvtBufreq])
  | some f, some b => b = f ^^^ 1 ∧ s.act = b ∧ q = []
  | none, some b => s.act = b ∧ (q = [] ∨ q = [doneOf s (b ^^^ 1)])
  | none, none =>
    if s.converter.readyRaised then q = [.adcEvtBufreq, doneOf s s.act] else s.act = 0 ∧ q = []

/-- The samples `vs` on their way to the entries of buffer `f` from `k` on, in rising order (R183 (5)). -/
def sampleRecords (f : BitVec 1) : Nat → List Sample → List Packet
  | _, [] => []
  | k, v :: vs => converterRecord (.adcSwr f (BitVec.ofNat 7 k) v) :: sampleRecords f (k + 1) vs

/-- The writes of the converter (R183 (5), (6)): while it fills a buffer, the entries below its position are in the store but
for those on their way, which are the last of them; while it fills none, no write is on its way. -/
def samplesInOrder (s : State) : Prop :=
  match s.converter.filling with
  | none => s.portA = []
  | some f => ∃ k vs, k + vs.length = s.converter.pos ∧ s.portA = sampleRecords f k vs ∧ bufferWritten s f k

/-- `ENV_HANDOFF` (R183) with the order of delivery of R184, as a condition on the state: ports P and A carry the converter's
commands and no others, now and in what is scheduled, and the converter stands where the protocol can have brought it. -/
structure EnvHandoff (s : State) : Prop where
  valid : s.params.valid = true
  /-- no other sender presents on P and A -/
  alone : ∀ m ∈ s.schedule, ∀ w payload, m ≠ .present .interrupt w payload ∧ m ≠ .present .converter w payload
  /-- the converter's requests are on port P only -/
  elsewhere : ∀ p ∈ s.portF ++ s.portX, p.source ≠ .converterRequest
  /-- driver-ready follows a successful configuration, and nothing is filled before it (R182 d) -/
  configured : s.converter.readyRaised = true → s.cfg = .configured
  unready : s.converter.readyRaised = false → s.converter.filling = none ∧ s.converter.next = none
  pos_le : s.converter.pos ≤ s.params.sbLen
  notifications : ∃ q : List Instr, s.portP = q.map converterRecord ∧
    (∀ i ∈ q, i.ctx = .interrupt ∧ ∀ data, i ≠ .rbPut data) ∧ handoffOrder s (q.filter isHandoff) ∧
    ∀ b, doneOf s b ∈ q → bufferWritten s b s.params.sbLen
  samples : samplesInOrder s

/-- The buffer whose conversion-done the next step delivers, if it delivers one. -/
def stepDone (s : State) : List (BitVec 1) :=
  match nextCommand s with
  | some (.adcEvtDone idx _) => [idx]
  | _ => []

/-- The `idx` operands of the conversion-dones that the next `n` steps deliver, in order (R161). -/
def runDones : Nat → State → List (BitVec 1)
  | 0, _ => []
  | n + 1, s =>
    match step s with
    | .next t => stepDone s ++ runDones n t
    | .fault _ => []
    | .refused _ => []

/-- The instance after reset with a schedule of moves ahead of it: every finite run of the system starts in such a state. -/
def startOf (p : Params) (moves : List Move) : State := { State.resetWith p with schedule := moves }

/-! ### Runs and their ends (R246) -/

/-- No command is pending on any port: a finite run may end here (R246). -/
def quiescent (s : State) : Prop := ∀ c, portQueue c s = []

/-- The scheduler draws `m` as the next move (R72 d). -/
def drawing (m : Move) (s : State) : State := { s with schedule := m :: s.schedule }

/-- An infinite run from `s` (R246): the scheduler and the environment draw a move for every natural number, `draws`, and
`run n` is the state after the first `n` of them. From reset, `s` is `State.resetWith p`. -/
structure InfiniteRun (s : State) (draws : Nat → Move) (run : Nat → State) : Prop where
  start : run 0 = s
  next : ∀ n, step (drawing (draws n) (run n)) = .next (run (n + 1))

/-- `A` of R125 over the first `n` moves of an infinite run. -/
def drawnStored (draws : Nat → Move) (run : Nat → State) (n : Nat) : List Byte :=
  (List.range n).flatMap (fun k => stepStored (drawing (draws k) (run k)))

/-- What is presented on port `c` is a command record, its payload being of the length its word gives (R90; log 7). -/
def wholeRecord (c : Ctx) (w : Word) (payload : List Byte) : Prop :=
  decodeCommand c w payload ≠ .error .payloadNotOfLength

/-- Only command records are pending. -/
def recordsWhole (s : State) : Prop := ∀ c, ∀ p ∈ portQueue c s, wholeRecord c p.word p.payload

end Sys2Proof.Machine
end

