-- ==== Sys2Proof/Certificates/Slice0/Obligations.lean ====
section
/-! DEFINITION. The statements about the machine, each formalising rules of the spec. In a response, `BitVec.ofNat 32` is
`zext_32` (R8). -/

open Sys2Proof Sys2Proof.Machine

/-! ### Reset -/

/-- R44, R232: every field after reset, for every instance: the stores hold no value, everything else is 0, NotReady or
Unconfigured, and both outputs are 0. -/
def Obligations.ResetGivesTheValuesOfTheSpec : Prop :=
  ∀ p : Params,
    (∀ a, memRead (State.resetWith p).ring a = none) ∧ (∀ a, memRead (State.resetWith p).samples a = none) ∧
    (State.resetWith p).wcur = 0 ∧ (State.resetWith p).rcur = 0 ∧ (State.resetWith p).occ = 0 ∧
    (State.resetWith p).bytesWritten = 0 ∧ (State.resetWith p).bytesRead = 0 ∧ (State.resetWith p).ovwCount = 0 ∧
    (State.resetWith p).hen = false ∧ (State.resetWith p).inited = false ∧
    (State.resetWith p).drvState.code = 0b00 ∧ (State.resetWith p).act = 0 ∧ (State.resetWith p).eventCount = 0 ∧
    (State.resetWith p).cfg.code = 0b00 ∧ (State.resetWith p).cfgErr = 0 ∧ (State.resetWith p).fault = 0 ∧
    trigEn (State.resetWith p) = false ∧ bufsel (State.resetWith p) = 0 ∧ (State.resetWith p).params = p

/-- The invariants hold in the reset state of every instance the spec allows, whatever its schedule (base case of R29). -/
def Obligations.InvariantsHoldAfterReset : Prop :=
  ∀ (p : Params) (moves : List Move), p.valid = true →
    BlockInv (startOf p moves) ∧ FaultHistoryInv (startOf p moves) ∧ HostInv (startOf p moves) ∧
      ConverterInv (startOf p moves) ∧ AutoStopInv (startOf p moves)

/-! ### Encoding -/

/-- R90 to R94: presenting a well-formed command's own record on its own port gives back the command, with every operand at
every value. -/
def Obligations.DecodingTheEncodedRecordGivesTheCommand : Prop :=
  ∀ i : Instr, i.wellFormed = true → decodeCommand i.ctx (encode i).1 (encode i).2 = .ok i

/-- R90 to R94: every record has at most one meaning: what it decodes to is well formed, belongs to the record's context,
and encodes to the record again. -/
def Obligations.DecodedRecordEncodesToItself : Prop :=
  ∀ (c : Ctx) (w : Word) (payload : List Byte) (i : Instr), decodeCommand c w payload = .ok i →
    i.wellFormed = true ∧ i.ctx = c ∧ encode i = (w, payload)

/-- R94: a word selects a row exactly when its bits under the row's mask are the row's match, and then the command has the
row's opcode. -/
def Obligations.OpcodeMapSelectsByMatchAndMask : Prop :=
  ∀ (w : Word) (payload : List Byte) (i : Instr),
    (∃ j, decodeWord w payload = .ok j ∧ j.opcode = i.opcode) ↔ w &&& i.maskBits = i.matchBits

/-- R96: a record is illegal exactly on conditions (a) to (d), said through the opcode map's columns; serving one sets
`F_ILL`, answers ILLEGAL with value 0 and no data, and changes nothing else of the block. (A record whose payload has not
the length of its word is no command record at all, log 7; port, schedule and `answered` are the model's, logs 2 and 3, and so
is the converter's note of a conversion-done answered after a stop, which is dropped while `trig_en` is 1, log 14.) -/
def Obligations.IllegalCommandOnlySetsFaultBit0 : Prop :=
  (∀ (c : Ctx) (w : Word) (payload : List Byte),
    (∃ e, decodeCommand c w payload = .error e ∧ e ≠ .payloadNotOfLength) ↔
      (c = .reserved ∨ (∀ i : Instr, w &&& i.maskBits ≠ i.matchBits) ∨
        ∃ i : Instr, w &&& i.maskBits = i.matchBits ∧ i.ctx ≠ c)) ∧
  ∀ (c : Ctx) (p : Packet) (rest : List Packet) (later : List Move) (e : DecodeError) (s : State),
    s.params.valid = true → s.schedule = .serve c :: later → portQueue c s = p :: rest → getPending c s = none →
    p.source = .external → decodeCommand c p.word p.payload = .error e → e ≠ .payloadNotOfLength →
    step s = .next (setPortQueue c rest
      { s with
        schedule := later
        fault := s.fault ||| 0b0001
        response := some ⟨.illegal, 0, []⟩
        answered := s.answered ++ [⟨c, ⟨.illegal, 0, []⟩⟩]
        converter := { s.converter with stopReported := !trigEn s && s.converter.stopReported } })

/-- R102: the worked encodings, one per format, and the illegal examples. -/
def Obligations.WorkedEncodingsDecode : Prop :=
  decodeCommand .foreground 0x13000000 [] = .ok .rbOcc ∧
  decodeCommand .foreground 0x10000001 [] = .ok (.rbInit true) ∧
  (∀ data : List Byte, data.length = 10 → decodeCommand .interrupt 0x1100000A data = .ok (.rbPut data)) ∧
  decodeCommand .foreground 0x120000F4 [] = .ok (.rbGet 244) ∧
  decodeCommand .foreground 0x20000000 [] = .ok (.adcConfig 0) ∧
  decodeCommand .foreground 0x20000016 [] = .ok (.adcConfig 0x16) ∧
  decodeCommand .interrupt 0x2300017A [] = .ok (.adcEvtDone 1 122) ∧
  decodeCommand .converter 0x28F9FFFE [] = .ok (.adcSwr 1 121 0xFFFE) ∧
  (∀ c : Ctx, c ≠ .reserved → decodeCommand c 0x00000000 [] = .error .unassignedOpcode) ∧
  decodeCommand .foreground 0x13000001 [] = .error .mbzNotZero ∧
  (∀ data : List Byte, decodeCommand .foreground 0x11000003 data = .error .wrongContext)

/-! ### The step -/

/-- R9, R72, R90: when the next move serves a port whose head record decodes to a command and no split RB.GET is in the way,
the step is that command's `exec`, after the move is taken off the schedule and with the answered record taken off its
port. R98: the answer goes to who presented the command: the host's to the host, a buffer-request's to the converter as its
next destination (R183 (2)); of the others the answer is only recorded, but for a failed configuration, which the host reports
(R195). The note the converter keeps of a conversion-done answered while `trig_en` is 0 is the model's own (log 14). -/
def Obligations.StepRunsTheDecodedCommand : Prop :=
  (∀ (c : Ctx) (p : Packet) (rest : List Packet) (later : List Move) (i : Instr) (s : State),
    s.params.valid = true → s.schedule = .serve c :: later → portQueue c s = p :: rest →
    (c = .foreground → s.getInFlight = none) → decodeCommand c p.word p.payload = .ok i →
    step s = onNext (settle c p rest) (exec i { s with schedule := later })) ∧
  (∀ (c : Ctx) (p : Packet) (rest : List Packet) (t : State), t.response = none → settle c p rest t = t) ∧
  ∀ (c : Ctx) (p : Packet) (rest : List Packet) (r : Response) (t u : State),
    t.response = some r →
    u = setPortQueue c rest
      { t with
        answered := t.answered ++ [⟨c, r⟩]
        converter := { t.converter with stopReported := !trigEn t && (isOwnDone p || t.converter.stopReported) } } →
    (p.source = .host → settle c p rest t = hostReceive r u) ∧
    (p.source = .converterRequest →
      settle c p rest t = { u with converter := { u.converter with next := some (r.value.extractLsb' 0 1) } }) ∧
    (p.source = .converter → settle c p rest t = u) ∧
    (p.source = .external → r.status ≠ .cfgError → settle c p rest t = u) ∧
    (p.source = .external → r.status = .cfgError →
      settle c p rest t = { u with host := { u.host with reports := u.host.reports ++ [.configError r.value] } })

/-- R127, R162, R200: no command is ever stuck, faults or is refused: every command has a next state in every state, and it
answers unless it is the first step of a split RB.GET. -/
def Obligations.EveryCommandAnswersInEveryState : Prop :=
  ∀ (i : Instr) (s : State), ∃ t, exec i s = .next t ∧
    (t.response = none → t.getInFlight ≠ none ∧ s.params.getAtomic = false ∧ ∃ len, i = .rbGet len)

/-- The step stops only where there is no block (parameters outside R6, log 6) or no command record (R90, log 7); those two
stops are the model's own. -/
def Obligations.StepStopsOnlyWithoutABlockOrARecord : Prop :=
  ∀ s : State,
    (s.params.valid = false → step s = .fault .noSuchConfiguration) ∧
    (s.params.valid = true →
      (∃ t, step s = .next t) ∨
        (step s = .refused .payloadNotOfLength ∧
          ∃ c p rest later, s.schedule = .serve c :: later ∧ portQueue c s = p :: rest ∧
            decodeCommand c p.word p.payload = .error .payloadNotOfLength))

/-- R72 (c): a record presented on a port waits behind those already pending there, and nothing else changes. -/
def Obligations.PresentedCommandsWaitBehindEarlierOnes : Prop :=
  ∀ (c : Ctx) (w : Word) (payload : List Byte) (later : List Move) (s : State),
    s.params.valid = true → s.schedule = .present c w payload :: later →
    step s = .next (setPortQueue c (portQueue c s ++ [⟨w, payload, .external⟩]) { s with schedule := later })

/-- R180, R182, R190, R194: a step that serves no port leaves the whole of the block alone: the environment acts on it only
through the commands it presents. -/
def Obligations.EnvironmentMovesLeaveTheBlockAlone : Prop :=
  ∀ s t : State, step s = .next t → (∀ c later, s.schedule ≠ .serve c :: later) →
    t.params = s.params ∧ t.ring = s.ring ∧ t.wcur = s.wcur ∧ t.rcur = s.rcur ∧ t.occ = s.occ ∧
    t.bytesWritten = s.bytesWritten ∧ t.bytesRead = s.bytesRead ∧ t.ovwCount = s.ovwCount ∧ t.hen = s.hen ∧
    t.inited = s.inited ∧ t.samples = s.samples ∧ t.drvState = s.drvState ∧ t.act = s.act ∧
    t.eventCount = s.eventCount ∧ t.cfg = s.cfg ∧ t.cfgErr = s.cfgErr ∧ t.fault = s.fault ∧
    t.getInFlight = s.getInFlight ∧ t.response = s.response ∧ t.events = s.events ∧ t.answered = s.answered ∧
    t.draws = s.draws

/-! ### Unit RB -/

/-- R120: the first RB.INIT zeroes the cursors, the occupancy and the counters, stores `hen` and sets `inited`; a second one
sets `F_SEQ` and answers OUT_OF_ORDER; nothing else changes. -/
def Obligations.InitZeroesOnceAndRefusesASecond : Prop :=
  ∀ (hen : Bool) (s : State),
    (s.inited = false →
      exec (.rbInit hen) s = .next
        { s with
          wcur := 0, rcur := 0, occ := 0, bytesWritten := 0, bytesRead := 0, ovwCount := 0
          hen := hen, inited := true, response := some ⟨.ok, 0, []⟩ }) ∧
    (s.inited = true →
      exec (.rbInit hen) s = .next
        { s with fault := s.fault ||| 0b0100, response := some ⟨.outOfOrder, 0, []⟩ })

/-- R121, R123: RB.PUT stores the prefix that fits, advances `wcur`, `occ` and `bytes_written` by its length, counts a
truncated put once, signals it if a handler is registered, and answers the count; before RB.INIT it answers OUT_OF_ORDER.
Nothing else changes, in memory or elsewhere. -/
def Obligations.PutStoresThePrefixThatFits : Prop :=
  ∀ (data : List Byte) (s : State),
    (s.inited = true →
      ∃ k ring', StoresPrefix s data k ring' ∧
        exec (.rbPut data) s = .next
          { s with
            ring := ring'
            wcur := (s.wcur + k) % s.params.capacity
            occ := s.occ + k
            bytesWritten := (s.bytesWritten + k) % 2 ^ s.params.cntW
            ovwCount :=
              if s.params.capacity - s.occ < data.length then (s.ovwCount + 1) % 2 ^ s.params.cntW else s.ovwCount
            events :=
              if s.params.capacity - s.occ < data.length ∧ s.hen = true then
                s.events ++ [.ovw ((s.ovwCount + 1) % 2 ^ s.params.cntW)]
              else s.events
            response := some ⟨.ok, BitVec.ofNat 32 k, []⟩ }) ∧
    (s.inited = false →
      exec (.rbPut data) s = .next
        { s with fault := s.fault ||| 0b0100, response := some ⟨.outOfOrder, 0, []⟩ })

/-- R122: the atomic RB.GET answers the oldest `min(len, occ)` bytes, advances `rcur`, lowers `occ`, counts `bytes_read`;
before RB.INIT it answers OUT_OF_ORDER. Nothing else changes; the cells keep their content. (`draws` is the model's own
index of free values.) -/
def Obligations.AtomicGetReturnsTheBytesAtTheReadCursor : Prop :=
  ∀ (len : BitVec 16) (s : State), s.params.getAtomic = true →
    (s.inited = true →
      ∃ k data draws', k = min len.toNat s.occ ∧ data.length = k ∧
        (∀ i < k, ∀ b, memRead s.ring ((s.rcur + i) % s.params.capacity) = some b → data[i]? = some b) ∧
        exec (.rbGet len) s = .next
          { s with
            rcur := (s.rcur + k) % s.params.capacity
            occ := s.occ - k
            bytesRead := (s.bytesRead + k) % 2 ^ s.params.cntW
            draws := draws'
            response := some ⟨.ok, BitVec.ofNat 32 k, data⟩ }) ∧
    (s.inited = false →
      exec (.rbGet len) s = .next
        { s with fault := s.fault ||| 0b0100, response := some ⟨.outOfOrder, 0, []⟩ })

/-- R240: with GET_ATOMIC false RB.GET runs as G1, which fixes `k` and `r0`, G2, which reads, and G3, which retires the `k`
bytes from the occupancy it then sees and answers; each changes nothing else. -/
def Obligations.SplitGetRunsAsThreeSteps : Prop :=
  (∀ (len : BitVec 16) (s : State), s.params.getAtomic = false → s.inited = true →
    exec (.rbGet len) s = .next
      { s with getInFlight := some ⟨min len.toNat s.occ, s.rcur, none⟩, response := none }) ∧
  (∀ (len : BitVec 16) (s : State), s.params.getAtomic = false → s.inited = false →
    exec (.rbGet len) s = .next
      { s with fault := s.fault ||| 0b0100, response := some ⟨.outOfOrder, 0, []⟩ }) ∧
  (∀ (k r0 : Nat) (s : State),
    ∃ out draws', out.length = k ∧
      (∀ i < k, ∀ b, memRead s.ring ((r0 + i) % s.params.capacity) = some b → out[i]? = some b) ∧
      getContinue ⟨k, r0, none⟩ s =
        { s with getInFlight := some ⟨k, r0, some out⟩, response := none, draws := draws' }) ∧
  ∀ (k r0 : Nat) (out : List Byte) (s : State),
    getContinue ⟨k, r0, some out⟩ s =
      { s with
        getInFlight := none
        rcur := (r0 + k) % s.params.capacity
        occ := s.occ - k
        bytesRead := (s.bytesRead + k) % 2 ^ s.params.cntW
        response := some ⟨.ok, BitVec.ofNat 32 k, out⟩ }

/-- R73, R240: while a split RB.GET is in progress serving port F runs its next step and no new command of F. -/
def Obligations.StepContinuesASplitGet : Prop :=
  ∀ (p : Packet) (rest : List Packet) (later : List Move) (g : GetProgress) (s : State),
    s.params.valid = true → s.schedule = .serve .foreground :: later → s.portF = p :: rest →
    s.getInFlight = some g →
    step s = .next (settle .foreground p rest (getContinue g { s with schedule := later }))

/-- R240: with no other operation between its steps the split form is the atomic form. -/
def Obligations.UninterruptedSplitGetIsTheAtomicGet : Prop :=
  ∀ (len : BitVec 16) (s t u v : State) (g g' : GetProgress),
    s.params.getAtomic = false → s.inited = true → s.getInFlight = none →
    exec (.rbGet len) s = .next t → t.getInFlight = some g → u = getContinue g t → u.getInFlight = some g' →
    v = getContinue g' u →
    exec (.rbGet len) { s with params := { s.params with getAtomic := true } } =
      .next { v with params := { s.params with getAtomic := true } }

/-- R240, R76: commands of P and A between the steps of a split RB.GET leave it and the bytes it is reading alone. -/
def Obligations.SplitGetIsUndisturbedByOtherContexts : Prop :=
  ∀ (i : Instr) (s t : State) (g : GetProgress), RingInv s → GetInv s → s.getInFlight = some g →
    i.ctx ≠ .foreground → exec i s = .next t →
    t.getInFlight = some g ∧ t.rcur = s.rcur ∧ g.k ≤ t.occ ∧ (occupied t).take g.k = (occupied s).take g.k

/-- R11, R76, R123 (e), R125: a command of context P leaves every unread byte where it is in the queue and appends exactly
the bytes the put core stored. -/
def Obligations.PutsAppendAndNeverReplaceUnreadBytes : Prop :=
  ∀ (i : Instr) (s t : State), RingInv s → i.ctx = .interrupt → exec i s = .next t →
    occupied t = occupied s ++ (storedBytes i s).map some

/-- R122 (e), R125: an atomic RB.GET answers the oldest `min(len, occ)` bytes of the queue and removes exactly them. -/
def Obligations.GetRemovesTheOldestBytes : Prop :=
  ∀ (len : BitVec 16) (s : State), RingInv s → s.params.getAtomic = true → s.inited = true →
    ∃ t data, exec (.rbGet len) s = .next t ∧
      t.response = some ⟨.ok, BitVec.ofNat 32 data.length, data⟩ ∧ data.length = min len.toNat s.occ ∧
      occupied s = data.map some ++ occupied t

/-- R29 (I1 to I5), R34, R35, R37, R159, R240: every step keeps the invariants of the block. -/
def Obligations.StepKeepsTheBlockInvariants : Prop :=
  ∀ s t : State, BlockInv s → step s = .next t → BlockInv t

/-- R125: over any steps from any state that meets the invariants, in any interleaving and with either form of RB.GET, the
bytes held at the start followed by the bytes stored are the bytes returned followed by the bytes held at the end. -/
def Obligations.QueueOrderHoldsOverEveryRun : Prop :=
  ∀ (n : Nat) (s t : State), BlockInv s → runSteps n s = .next t →
    ∃ g, returnedBytes t = returnedBytes s ++ g ∧
      occupied s ++ (runStored n s).map some = g.map some ++ occupied t

/-- R24, R25, R125, R126: from reset, under every schedule, what the gets returned is a prefix of what the puts stored, the
rest is what the ring holds, `occ` is the difference of the two totals and at most C, and the counters are the two totals
modulo 2^CNT_W. -/
def Obligations.ReturnedBytesArePrefixOfStoredBytesFromReset : Prop :=
  ∀ (p : Params) (moves : List Move) (n : Nat) (t : State), p.valid = true →
    runSteps n (startOf p moves) = .next t →
    ∃ held, runStored n (startOf p moves) = returnedBytes t ++ held ∧ occupied t = held.map some ∧
      held.length = t.occ ∧ t.occ ≤ p.capacity ∧
      t.bytesWritten = (runStored n (startOf p moves)).length % 2 ^ p.cntW ∧
      t.bytesRead = (returnedBytes t).length % 2 ^ p.cntW

/-- R62: every command keeps both stores in their canonical form, in every state. -/
def Obligations.CommandsKeepTheStoresCanonical : Prop :=
  ∀ (i : Instr) (s t : State), Memory.wf s.ring → Memory.wf s.samples → exec i s = .next t →
    Memory.wf t.ring ∧ Memory.wf t.samples

/-! ### Introspection -/

/-- R140 to R145: each of the six reads answers its field and changes nothing; under the invariants the answered number is
the field itself, `occ` is at most C and the cursors are below C. -/
def Obligations.RingReadsAnswerTheirFields : Prop :=
  ∀ s : State,
    exec .rbOcc s = .next { s with response := some ⟨.ok, BitVec.ofNat 32 s.occ, []⟩ } ∧
    exec .rbWcur s = .next { s with response := some ⟨.ok, BitVec.ofNat 32 s.wcur, []⟩ } ∧
    exec .rbRcur s = .next { s with response := some ⟨.ok, BitVec.ofNat 32 s.rcur, []⟩ } ∧
    exec .rbTotrd s = .next { s with response := some ⟨.ok, BitVec.ofNat 32 s.bytesRead, []⟩ } ∧
    exec .rbTotwr s = .next { s with response := some ⟨.ok, BitVec.ofNat 32 s.bytesWritten, []⟩ } ∧
    exec .rbOvwc s = .next { s with response := some ⟨.ok, BitVec.ofNat 32 s.ovwCount, []⟩ } ∧
    (RingInv s →
      (BitVec.ofNat 32 s.occ).toNat = s.occ ∧ s.occ ≤ s.params.capacity ∧
      (BitVec.ofNat 32 s.wcur).toNat = s.wcur ∧ s.wcur < s.params.capacity ∧
      (BitVec.ofNat 32 s.rcur).toNat = s.rcur ∧ s.rcur < s.params.capacity ∧
      (BitVec.ofNat 32 s.bytesRead).toNat = s.bytesRead ∧
      (BitVec.ofNat 32 s.bytesWritten).toNat = s.bytesWritten ∧
      (BitVec.ofNat 32 s.ovwCount).toNat = s.ovwCount)

/-- R146: SYS.STATUS answers each status field in its bits, with the codes of R31 and R34, the other bits 0, and changes
nothing. -/
def Obligations.StatusWordHoldsEveryFieldInItsBits : Prop :=
  ∀ s : State, ∃ v : Word,
    exec .sysStatus s = .next { s with response := some ⟨.ok, v, []⟩ } ∧
    v.extractLsb' 0 2 = (match s.drvState with
      | .notReady => 0b00#2 | .ready => 0b01#2 | .sampling => 0b10#2 | .stopped => 0b11#2) ∧
    v.extractLsb' 2 2 = (match s.cfg with
      | .unconfigured => 0b00#2 | .configured => 0b01#2 | .failed => 0b10#2) ∧
    v.extractLsb' 4 1 = s.act ∧ v.getLsbD 5 = s.inited ∧ v.getLsbD 6 = s.hen ∧ v.getLsbD 7 = false ∧
    v.extractLsb' 8 4 = s.fault ∧ v.extractLsb' 12 8 = s.cfgErr ∧ v.extractLsb' 20 12 = 0

/-! ### Unit ADC -/

/-- R150: the first ADC.CONFIG configures and sets `act` to 0, or fails and keeps the code; a later one changes nothing and
answers NO_EFFECT with the stored code. -/
def Obligations.ConfigIsTakenOnce : Prop :=
  ∀ (err : BitVec 8) (s : State),
    (s.cfg = .unconfigured → err = 0 →
      exec (.adcConfig err) s = .next { s with cfg := .configured, act := 0, response := some ⟨.ok, 0, []⟩ }) ∧
    (s.cfg = .unconfigured → err ≠ 0 →
      exec (.adcConfig err) s = .next
        { s with
          cfg := .failed, cfgErr := err, response := some ⟨.cfgError, BitVec.ofNat 32 err.toNat, []⟩ }) ∧
    (s.cfg ≠ .unconfigured →
      exec (.adcConfig err) s = .next
        { s with response := some ⟨.noEffect, BitVec.ofNat 32 s.cfgErr.toNat, []⟩ })

/-- R151: driver-ready moves NotReady to Ready if the configuration succeeded, and otherwise changes nothing. -/
def Obligations.DriverReadyActsOnlyWhenConfigured : Prop :=
  ∀ s : State,
    (s.drvState = .notReady ∧ s.cfg = .configured →
      exec .adcEvtReady s = .next { s with drvState := .ready, response := some ⟨.ok, 0, []⟩ }) ∧
    (¬(s.drvState = .notReady ∧ s.cfg = .configured) →
      exec .adcEvtReady s = .next { s with response := some ⟨.noEffect, 0, []⟩ })

/-- R152: a buffer-request toggles `act` in every state and answers the new index. -/
def Obligations.BufferRequestTogglesTheActiveIndex : Prop :=
  ∀ s : State,
    (s.act = 0 → exec .adcEvtBufreq s = .next { s with act := 1, response := some ⟨.ok, 1, []⟩ }) ∧
    (s.act = 1 → exec .adcEvtBufreq s = .next { s with act := 0, response := some ⟨.ok, 0, []⟩ })

/-- R160: over any commands without a successful ADC.CONFIG among them `act` moves once per buffer-request and with nothing
else, and N + 1 consecutive buffer-requests answer the toggled indices. -/
def Obligations.ToggleLaw : Prop :=
  (∀ (is : List Instr) (s t : State), runCommands is s = .next t → (s.cfg = .unconfigured → t.cfg ≠ .configured) →
    t.act = s.act ^^^ BitVec.ofNat 1 (is.countP (fun i => i == .adcEvtBufreq))) ∧
  ∀ (n : Nat) (s : State), ∃ t,
    runCommands (List.replicate (n + 1) .adcEvtBufreq) s = .next t ∧
    t.response = some ⟨.ok, BitVec.ofNat 32 (s.act ^^^ BitVec.ofNat 1 (n + 1)).toNat, []⟩

/-- R153, R64: conversion-done puts the 2n bytes of the first n samples, each low byte first, into the ring as R123 says,
counts one event and answers the count stored; before RB.INIT it answers OUT_OF_ORDER, and else with n > SB_LEN
BAD_OPERAND. Nothing else changes. A sample cell that was never written contributes a free value (U5). -/
def Obligations.ConversionDonePutsTheSamplesLowByteFirst : Prop :=
  ∀ (idx : BitVec 1) (n : BitVec 8) (s : State),
    (s.inited = true → n.toNat ≤ s.params.sbLen →
      ∃ data k ring' draws', data.length = 2 * n.toNat ∧
        (∀ j < n.toNat, ∀ v : Sample, memRead s.samples (sampleAddress idx j) = some v →
          data[2 * j]? = some (v.extractLsb' 0 8) ∧ data[2 * j + 1]? = some (v.extractLsb' 8 8)) ∧
        StoresPrefix s data k ring' ∧
        exec (.adcEvtDone idx n) s = .next
          { s with
            ring := ring'
            wcur := (s.wcur + k) % s.params.capacity
            occ := s.occ + k
            bytesWritten := (s.bytesWritten + k) % 2 ^ s.params.cntW
            ovwCount :=
              if s.params.capacity - s.occ < data.length then (s.ovwCount + 1) % 2 ^ s.params.cntW else s.ovwCount
            events :=
              if s.params.capacity - s.occ < data.length ∧ s.hen = true then
                s.events ++ [.ovw ((s.ovwCount + 1) % 2 ^ s.params.cntW)]
              else s.events
            eventCount := (s.eventCount + 1) % 2 ^ s.params.cntW
            draws := draws'
            response := some ⟨.ok, BitVec.ofNat 32 k, []⟩ }) ∧
    (s.inited = false →
      exec (.adcEvtDone idx n) s = .next
        { s with fault := s.fault ||| 0b0100, response := some ⟨.outOfOrder, 0, []⟩ }) ∧
    (s.inited = true → s.params.sbLen < n.toNat →
      exec (.adcEvtDone idx n) s = .next
        { s with fault := s.fault ||| 0b0010, response := some ⟨.badOperand, 0, []⟩ })

/-- R154: finished emits INFO_FIN and changes nothing, in every state. -/
def Obligations.FinishedOnlyEmitsInfoFin : Prop :=
  ∀ s : State, exec .adcEvtFin s = .next { s with events := s.events ++ [.infoFin], response := some ⟨.ok, 0, []⟩ }

/-- R155, R36: start moves Ready or Stopped to Sampling, which raises `trig_en`; in NotReady and in Sampling it is a
reported no-op. -/
def Obligations.StartEntersSamplingFromReadyOrStopped : Prop :=
  ∀ s : State,
    (s.drvState = .ready ∨ s.drvState = .stopped →
      exec .adcStart s = .next { s with drvState := .sampling, response := some ⟨.ok, 0, []⟩ }) ∧
    (s.drvState = .notReady → exec .adcStart s = .next { s with response := some ⟨.notReady, 0, []⟩ }) ∧
    (s.drvState = .sampling → exec .adcStart s = .next { s with response := some ⟨.noEffect, 0, []⟩ }) ∧
    (∀ t, exec .adcStart s = .next t → (trigEn t = true ↔ s.drvState ≠ .notReady))

/-- R156, R36: stop moves Sampling to Stopped and is a reported no-op elsewhere; `trig_en` is 0 afterwards. -/
def Obligations.StopLeavesSampling : Prop :=
  ∀ s : State,
    (s.drvState = .sampling →
      exec .adcStop s = .next { s with drvState := .stopped, response := some ⟨.ok, 0, []⟩ }) ∧
    (s.drvState ≠ .sampling → exec .adcStop s = .next { s with response := some ⟨.noEffect, 0, []⟩ }) ∧
    (∀ t, exec .adcStop s = .next t → trigEn t = false)

/-- R157: ADC.BYTES answers `event_count * 2 * SB_LEN` modulo 2^32 and changes nothing. -/
def Obligations.AcquiredBytesIsEventsTimesBufferBytes : Prop :=
  ∀ s : State, ∃ v : Word, exec .adcBytes s = .next { s with response := some ⟨.ok, v, []⟩ } ∧
    v.toNat = s.eventCount * (2 * s.params.sbLen) % 2 ^ 32

/-- R158: ADC.SWR writes the one cell (idx, k) with the bits as they are; k >= SB_LEN answers BAD_OPERAND with `F_OPD`.
Nothing else changes. -/
def Obligations.SampleWriteChangesOneCell : Prop :=
  ∀ (idx : BitVec 1) (k : BitVec 7) (v : Sample) (s : State),
    (k.toNat < s.params.sbLen →
      ∃ samples', exec (.adcSwr idx k v) s = .next { s with samples := samples', response := some ⟨.ok, 0, []⟩ } ∧
        memRead samples' (sampleAddress idx k.toNat) = some v ∧
        ∀ (idx' : BitVec 1) (k' : BitVec 7), (idx', k') ≠ (idx, k) →
          memRead samples' (sampleAddress idx' k'.toNat) = memRead s.samples (sampleAddress idx' k'.toNat)) ∧
    (s.params.sbLen ≤ k.toNat →
      exec (.adcSwr idx k v) s = .next
        { s with fault := s.fault ||| 0b0010, response := some ⟨.badOperand, 0, []⟩ })

/-- R159: for every command in every state `drv_state` becomes what the transition table says, with the table's status; the
table's "cannot occur" entries need a driver state that the invariant of unit ADC rules out. -/
def Obligations.DriverStateFollowsTheTransitionTable : Prop :=
  ∀ (i : Instr) (s : State), ∃ t, exec i s = .next t ∧
    (AdcInv s → s.cfg ≠ .configured → s.drvState = .notReady) ∧
    t.drvState = (transitionTable i s.cfg s.drvState).1 ∧
    ∀ st, (transitionTable i s.cfg s.drvState).2 = some st → t.response.map (fun r => r.status) = some st

/-! ### The whole machine -/

/-- R21 to R28, R32 to R35, R42: each field is written by the commands its rule names and by no other, and no command
touches what is not the block's. Commands are named by their opcodes (R94). -/
def Obligations.EachFieldHasItsWriters : Prop :=
  ∀ (i : Instr) (s t : State), exec i s = .next t →
    (i.opcode ∉ [0x11#8, 0x23#8] → t.ring = s.ring) ∧
    (i.opcode ∉ [0x10#8, 0x11#8, 0x23#8] → t.wcur = s.wcur ∧ t.bytesWritten = s.bytesWritten ∧ t.ovwCount = s.ovwCount) ∧
    (i.opcode ∉ [0x10#8, 0x12#8] → t.rcur = s.rcur ∧ t.bytesRead = s.bytesRead ∧ t.getInFlight = s.getInFlight) ∧
    (i.opcode ∉ [0x10#8, 0x11#8, 0x12#8, 0x23#8] → t.occ = s.occ) ∧
    (i.opcode ≠ 0x10#8 → t.hen = s.hen ∧ t.inited = s.inited) ∧
    (i.opcode ≠ 0x28#8 → t.samples = s.samples) ∧
    (i.opcode ∉ [0x20#8, 0x22#8] → t.act = s.act) ∧
    (i.opcode ≠ 0x23#8 → t.eventCount = s.eventCount) ∧
    (i.opcode ∉ [0x21#8, 0x25#8, 0x26#8] → t.drvState = s.drvState) ∧
    (i.opcode ≠ 0x20#8 → t.cfg = s.cfg ∧ t.cfgErr = s.cfgErr) ∧
    (i.opcode ∉ [0x11#8, 0x23#8, 0x24#8] → t.events = s.events) ∧
    t.params = s.params ∧ t.answered = s.answered ∧ t.schedule = s.schedule ∧ t.portF = s.portF ∧
    t.portP = s.portP ∧ t.portA = s.portA ∧ t.portX = s.portX ∧ t.converter = s.converter ∧ t.host = s.host

/-- R200, R201: a command that reports an error other than CFG_ERROR changes only `fault`, by the bit of its status, and the
response; CFG_ERROR changes only `cfg` and `cfg_err`. -/
def Obligations.ErrorsChangeNothingButTheFaultBit : Prop :=
  ∀ (i : Instr) (s t : State) (r : Response), exec i s = .next t → t.response = some r →
    (r.status ∈ [.notReady, .noEffect] → t = { s with response := some r }) ∧
    (r.status = .badOperand → t = { s with fault := s.fault ||| 0b0010, response := some r } ∧ r.value = 0) ∧
    (r.status = .outOfOrder → t = { s with fault := s.fault ||| 0b0100, response := some r } ∧ r.value = 0) ∧
    (r.status = .cfgError → t = { s with cfg := .failed, cfgErr := t.cfgErr, response := some r }) ∧
    (r.status = .ok → t.fault = s.fault) ∧ r.status ≠ .illegal

/-- R37, R34, R231: no step clears a fault bit, and once `cfg` has left Unconfigured no step changes it or `cfg_err`. -/
def Obligations.FaultIsStickyAndConfigIsWriteOnce : Prop :=
  ∀ s t : State, step s = .next t →
    s.fault &&& t.fault = s.fault ∧ (s.cfg ≠ .unconfigured → t.cfg = s.cfg ∧ t.cfgErr = s.cfgErr) ∧
      t.params = s.params

/-- R150, R151, R202: after a failed configuration no run leaves NotReady, and ADC.START answers NOT_READY for ever. -/
def Obligations.FailedConfigurationNeverSamples : Prop :=
  ∀ (n : Nat) (s t : State), BlockInv s → s.cfg = .failed → runSteps n s = .next t →
    t.drvState = .notReady ∧ trigEn t = false ∧
      exec .adcStart t = .next { t with response := some ⟨.notReady, 0, []⟩ }

/-- R199 (NO_FAULT), R37: the fault register is set exactly by the error answers given: every step keeps this. -/
def Obligations.FaultBitsMatchTheAnswersGiven : Prop :=
  ∀ s t : State, FaultHistoryInv s → step s = .next t → FaultHistoryInv t

/-- R235: whatever P and A do between an RB.OCC and the next RB.GET, the occupancy has not fallen and the get returns at
least `min(len, value of RB.OCC)` bytes. -/
def Obligations.OccupancyReadingIsALowerBoundForTheNextGet : Prop :=
  ∀ (is : List Instr) (len : BitVec 16) (s t : State), (∀ i ∈ is, i.ctx ≠ .foreground) → s.inited = true →
    s.params.getAtomic = true → runCommands is s = .next t →
    s.occ ≤ t.occ ∧ t.rcur = s.rcur ∧
      ∃ u data, exec (.rbGet len) t = .next u ∧ u.response = some ⟨.ok, BitVec.ofNat 32 data.length, data⟩ ∧
        min len.toNat s.occ ≤ data.length

/-! ### The environment agents -/

/-- R187: a Start in Idle makes the host issue ADC.START; OK begins a session with its counters at 0 and the timer on, any
other status is reported and the host stays Idle. With ACQ_BASELINE the host first reads ADC.BYTES as its baseline (the
model's order, log 13). -/
def Obligations.HostStartsASessionOnlyOnOk : Prop :=
  (∀ (sendOk : Bool) (rest : List HostEvent) (s : State),
    s.host.phase = .ready → s.host.inbox = .start :: rest → s.host.loopState = .idle →
    hostTurn sendOk s =
      { s with
        portF := s.portF ++ [⟨0x25000000, [], .host⟩]
        host := { s.host with inbox := rest, phase := .awaitStart } }) ∧
  (∀ (r : Response) (s : State), s.host.phase = .awaitStart → r.status = .ok → s.params.acqBaseline = false →
    hostReceive r s =
      { s with host :=
        { s.host with loopState := .streaming, timerOn := true, elapsedS := 0, bytesSent := 0, phase := .ready } }) ∧
  (∀ (r : Response) (s : State), s.host.phase = .awaitStart → r.status = .ok → s.params.acqBaseline = true →
    hostReceive r s =
      { s with
        portF := s.portF ++ [⟨0x27000000, [], .host⟩]
        host :=
          { s.host with
            loopState := .streaming, timerOn := true, elapsedS := 0, bytesSent := 0, phase := .awaitBaseline } }) ∧
  (∀ (r : Response) (s : State), s.host.phase = .awaitBaseline →
    hostReceive r s = { s with host := { s.host with baseline := r.value, phase := .ready } }) ∧
  ∀ (r : Response) (s : State), s.host.phase = .awaitStart → r.status ≠ .ok →
    hostReceive r s =
      { s with host := { s.host with phase := .ready, reports := s.host.reports ++ [.startRejected r.status] } }

/-- R188, R189: in Streaming with no event to handle the host issues RB.GET of CHUNK bytes; a non-empty chunk is sent once,
counted only on success, and never put back; an empty one is not sent. A failed send is reported and does not stop the stream:
nothing else changes. -/
def Obligations.HostDrainsAndCountsOnlySuccessfulSends : Prop :=
  (∀ (sendOk : Bool) (s : State),
    s.host.phase = .ready → s.host.inbox = [] → s.host.loopState = .streaming → s.params.valid = true →
    ∃ w : Word, w.toNat = 0x12000000 + s.params.chunk ∧
      hostTurn sendOk s =
        { s with
          portF := s.portF ++ [⟨w, [], .host⟩]
          host := { s.host with phase := .awaitChunk sendOk } }) ∧
  ∀ (sendOk : Bool) (r : Response) (s : State), s.host.phase = .awaitChunk sendOk →
    (r.data = [] → hostReceive r s = { s with host := { s.host with phase := .ready } }) ∧
    (r.data ≠ [] → sendOk = true →
      hostReceive r s =
        { s with host :=
          { s.host with
            phase := .ready, sends := s.host.sends ++ [⟨r.data, true⟩]
            bytesSent := s.host.bytesSent + r.data.length } }) ∧
    (r.data ≠ [] → sendOk = false →
      hostReceive r s =
        { s with host :=
          { s.host with
            phase := .ready, sends := s.host.sends ++ [⟨r.data, false⟩]
            reports := s.host.reports ++ [.sendFailed r.data.length] } })

/-- R190, R191, R195: a tick in Streaming counts one second and reads ADC.BYTES; each answer issues the next of the six reads,
in the order of R195; the last completes one telemetry record, and if AUTO_STOP_S is reached the host disables the timer and
issues ADC.STOP, as a Stop event in Streaming makes it do. The answer to ADC.STOP resets the session counters and makes the
loop Idle. A Start in Streaming and a Stop in Idle are ignored. The model's choices: that any answer to ADC.STOP ends the
session and that the reads' statuses are not looked at (log 11), the inbox and the ticks dropped at a stop (log 12), the
difference from the baseline (log 13), and the order of the reads among themselves. -/
def Obligations.HostTickReportsAndThenStopsAtTheLimit : Prop :=
  (∀ (sendOk : Bool) (rest : List HostEvent) (s : State),
    s.host.phase = .ready → s.host.inbox = .tick :: rest → s.host.loopState = .streaming →
    hostTurn sendOk s =
      { s with
        portF := s.portF ++ [⟨0x27000000, [], .host⟩]
        host :=
          { s.host with inbox := rest, elapsedS := s.host.elapsedS + 1, phase := .awaitTelemetry [] } }) ∧
  (∀ (a o w r' : Word) (r : Response) (s : State),
    (s.host.phase = .awaitTelemetry [] →
      hostReceive r s =
        { s with
          portF := s.portF ++ [⟨0x13000000, [], .host⟩]
          host := { s.host with phase := .awaitTelemetry [r.value] } }) ∧
    (s.host.phase = .awaitTelemetry [a] →
      hostReceive r s =
        { s with
          portF := s.portF ++ [⟨0x14000000, [], .host⟩]
          host := { s.host with phase := .awaitTelemetry [a, r.value] } }) ∧
    (s.host.phase = .awaitTelemetry [a, o] →
      hostReceive r s =
        { s with
          portF := s.portF ++ [⟨0x15000000, [], .host⟩]
          host := { s.host with phase := .awaitTelemetry [a, o, r.value] } }) ∧
    (s.host.phase = .awaitTelemetry [a, o, w] →
      hostReceive r s =
        { s with
          portF := s.portF ++ [⟨0x16000000, [], .host⟩]
          host := { s.host with phase := .awaitTelemetry [a, o, w, r.value] } }) ∧
    (s.host.phase = .awaitTelemetry [a, o, w, r'] →
      hostReceive r s =
        { s with
          portF := s.portF ++ [⟨0x17000000, [], .host⟩]
          host := { s.host with phase := .awaitTelemetry [a, o, w, r', r.value] } })) ∧
  (∀ (a o w r' d : Word) (r : Response) (s : State) (records : List Telemetry),
    s.host.phase = .awaitTelemetry [a, o, w, r', d] →
    records = s.host.telemetry ++ [⟨s.host.elapsedS, s.host.bytesSent,
      if s.params.acqBaseline then a - s.host.baseline else a, o, w, r', d, r.value⟩] →
    (s.host.elapsedS < s.params.autoStopS →
      hostReceive r s = { s with host := { s.host with phase := .ready, telemetry := records } }) ∧
    (s.params.autoStopS ≤ s.host.elapsedS →
      hostReceive r s =
        { s with
          portF := s.portF ++ [⟨0x26000000, [], .host⟩]
          host :=
            { s.host with
              telemetry := records, timerOn := false, inbox := s.host.inbox.filter (· ≠ .tick)
              phase := .awaitStop } })) ∧
  (∀ (r : Response) (s : State), s.host.phase = .awaitStop →
    hostReceive r s =
      { s with host := { s.host with loopState := .idle, elapsedS := 0, bytesSent := 0, phase := .ready } }) ∧
  (∀ (sendOk : Bool) (rest : List HostEvent) (s : State),
    s.host.phase = .ready → s.host.inbox = .stop :: rest → s.host.loopState = .streaming →
    hostTurn sendOk s =
      { s with
        portF := s.portF ++ [⟨0x26000000, [], .host⟩]
        host := { s.host with timerOn := false, inbox := rest.filter (· ≠ .tick), phase := .awaitStop } }) ∧
  ∀ (sendOk : Bool) (e : HostEvent) (rest : List HostEvent) (s : State),
    s.host.phase = .ready → s.host.inbox = e :: rest →
    (e = .start ∧ s.host.loopState = .streaming) ∨ (e = .stop ∧ s.host.loopState = .idle) →
    hostTurn sendOk s = { s with host := { s.host with inbox := rest } }

/-- R182, R186, R191, R192: every step keeps the host's counters at 0 and its timer off in Idle, the timer off while a stop is
on its way, the elapsed time of a session at most AUTO_STOP_S and below it outside a report or a stop, and the converter
inside its buffer. -/
def Obligations.StepKeepsTheEnvironmentInvariants : Prop :=
  ∀ s t : State, HostInv s → AutoStopInv s → ConverterInv s → 1 ≤ s.params.autoStopS → step s = .next t →
    HostInv t ∧ AutoStopInv t ∧ ConverterInv t

/-- R181, R182 (a): a timer compare event writes one sample into the buffer being filled only while `trig_en` is 1, and the
command it issues on port A is the ADC.SWR of that buffer, position and value. -/
def Obligations.ConverterSamplesOnlyWhileTriggered : Prop :=
  ∀ (v : Sample) (s : State),
    (trigEn s = false → converterSample v s = s) ∧
    (∀ f, s.converter.filling = some f → trigEn s = true → s.converter.pos < s.params.sbLen →
      s.params.sbLen ≤ 128 →
      ∃ w : Word, decodeCommand .converter w [] = .ok (.adcSwr f (BitVec.ofNat 7 s.converter.pos) v) ∧
        (BitVec.ofNat 7 s.converter.pos).toNat = s.converter.pos ∧
        converterSample v s =
          { s with
            portA := s.portA ++ [⟨w, [], .converter⟩]
            converter := { s.converter with pos := s.converter.pos + 1 } })

/-- R182 (b), (c), (e), R183 (2), (3), R236: a full buffer whose entries are all in the store is reported done with
`n = SB_LEN`, while sampling as after a stop; while `trig_en` is 1 the next buffer is then started with a buffer-request behind
it on port P. That with no next buffer, its buffer-request being unanswered, finished is raised behind conversion-done and the
converter then fills nothing is the model's choice (log 14); so are that with `trig_en` 0 it rests and keeps its next
destination, and how the gates of R184 and R210 are set: otherwise the move does nothing. -/
def Obligations.ConverterReportsDoneThenStartsTheNext : Prop :=
  (∀ (f : BitVec 1) (s : State), s.converter.filling = some f → s.converter.pos = s.params.sbLen →
    samplesPending s = false → donePending s = false → s.converter.stopReported = false → s.params.sbLen ≤ 128 →
    ∃ w : Word, decodeCommand .interrupt w [] = .ok (.adcEvtDone f (BitVec.ofNat 8 s.params.sbLen)) ∧
      (BitVec.ofNat 8 s.params.sbLen).toNat = s.params.sbLen ∧
      (∀ b, trigEn s = true → s.converter.next = some b →
        converterEndOfBatch s =
          { s with
            portP := s.portP ++ [⟨w, [], .converter⟩, ⟨0x22000000, [], .converterRequest⟩]
            converter := { s.converter with filling := some b, pos := 0, next := none } }) ∧
      (trigEn s = true → s.converter.next = none →
        converterEndOfBatch s =
          { s with
            portP := s.portP ++ [⟨w, [], .converter⟩, ⟨0x24000000, [], .converter⟩]
            converter := { s.converter with filling := none, pos := 0 } }) ∧
      (trigEn s = false →
        converterEndOfBatch s =
          { s with
            portP := s.portP ++ [⟨w, [], .converter⟩]
            converter := { s.converter with filling := none, pos := 0 } })) ∧
  ∀ s : State,
    s.converter.filling = none ∨ s.converter.pos ≠ s.params.sbLen ∨ samplesPending s = true ∨ donePending s = true ∨
      s.converter.stopReported = true →
    converterEndOfBatch s = s

/-- R182 (c), (d), R183 (1), (2), R210: from rest, and while `trig_en` is 1, the converter starts the buffer it was given and
raises its buffer-request; driver-ready is raised once, after `cfg` became Configured, and gives it buffer 0. That the latter
waits for `cfg`, and that the first destination comes with it, is the model's choice (log 14). -/
def Obligations.ConverterStartsTheBufferItWasGiven : Prop :=
  (∀ (b : BitVec 1) (s : State), s.converter.filling = none → s.converter.next = some b → trigEn s = true →
    converterStartBuffer s =
      { s with
        portP := s.portP ++ [⟨0x22000000, [], .converterRequest⟩]
        converter := { s.converter with filling := some b, pos := 0, next := none } }) ∧
  (∀ s : State, s.converter.filling ≠ none ∨ s.converter.next = none ∨ trigEn s = false → converterStartBuffer s = s) ∧
  ∀ s : State,
    (s.cfg = .configured → s.converter.readyRaised = false →
      converterDriverReady s =
        { s with
          portP := s.portP ++ [⟨0x21000000, [], .converter⟩]
          converter := { s.converter with readyRaised := true, next := some 0 } }) ∧
    (s.cfg ≠ .configured ∨ s.converter.readyRaised = true → converterDriverReady s = s)

/-- R180 to R182, R187 to R194: a step whose next move is an agent's performs that agent's function, with the move taken off
the schedule (log 2): events are put into the host's inbox (log 12), ticks only while its timer is on (R190). -/
def Obligations.StepPerformsTheMovesOfTheAgents : Prop :=
  ∀ (m : Move) (later : List Move) (s u : State), s.params.valid = true → s.schedule = m :: later →
    u = { s with schedule := later } →
    (∀ v, m = .sample v → step s = .next (converterSample v u)) ∧
    (m = .startBuffer → step s = .next (converterStartBuffer u)) ∧
    (m = .endOfBatch → step s = .next (converterEndOfBatch u)) ∧
    (m = .driverReady → step s = .next (converterDriverReady u)) ∧
    (m = .startEvent → step s = .next { u with host := { u.host with inbox := u.host.inbox ++ [.start] } }) ∧
    (m = .stopEvent → step s = .next { u with host := { u.host with inbox := u.host.inbox ++ [.stop] } }) ∧
    (m = .tick → s.host.timerOn = true →
      step s = .next { u with host := { u.host with inbox := u.host.inbox ++ [.tick] } }) ∧
    (m = .tick → s.host.timerOn = false → step s = .next u) ∧
    ∀ sendOk, m = .hostTurn sendOk → step s = .next (hostTurn sendOk u)

/-- R184, R210, R236: at most one conversion-done of the converter waits for delivery, at ADC.STOP as at any time; while
`trig_en` is 0 no step raises a buffer-request, and over any number of steps at most one conversion-done arrives: after a stop,
at most one until the next ADC.START. What other senders present is not counted. How the gates are set is the model's choice
(log 14). -/
def Obligations.AtMostOneConversionDoneArrivesAfterAStop : Prop :=
  (∀ (p : Params) (moves : List Move), donesPending (startOf p moves) = 0) ∧
  (∀ s t : State, step s = .next t →
    (donesPending s ≤ 1 → donesPending t ≤ 1) ∧ (trigEn s = false → requestsPending t ≤ requestsPending s)) ∧
  ∀ (n : Nat) (s : State), donesPending s ≤ 1 → donesWhileStopped n s ≤ 1

/-- The premise `ENV_HANDOFF` holds after reset, if no other sender is scheduled on ports P and A. -/
def Obligations.HandoffProtocolHoldsAfterReset : Prop :=
  ∀ (p : Params) (moves : List Move), p.valid = true →
    (∀ m ∈ moves, ∀ w payload, m ≠ .present .interrupt w payload ∧ m ≠ .present .converter w payload) →
    EnvHandoff (startOf p moves)

/-- R183, R184: the converter of the model keeps the handoff protocol: every step, whatever the foreground does, leaves a state
that the protocol allows. -/
def Obligations.StepKeepsTheHandoffProtocol : Prop :=
  ∀ s t : State, EnvHandoff s → step s = .next t → EnvHandoff t

/-- R161, R183 (3) to (6), R185: under `ENV_HANDOFF` a conversion-done being delivered has `idx = act xor 1` and `n = SB_LEN`,
its buffer is not the one being filled, and every entry it copies was written (U5 does not arise); from when it is raised
until it is delivered no step changes its buffer. -/
def Obligations.ConversionDoneCopiesTheCompletedBuffer : Prop :=
  (∀ (idx : BitVec 1) (n : BitVec 8) (s : State), EnvHandoff s → nextCommand s = some (.adcEvtDone idx n) →
    idx = s.act ^^^ 1 ∧ n.toNat = s.params.sbLen ∧ s.converter.filling ≠ some idx ∧
      ∀ k < s.params.sbLen, (memRead s.samples (sampleAddress idx k)).isSome) ∧
  ∀ (b : BitVec 1) (s t : State), EnvHandoff s → step s = .next t → converterRecord (doneOf s b) ∈ s.portP →
    s.converter.filling ≠ some b ∧
      ∀ k < s.params.sbLen, memRead t.samples (sampleAddress b k) = memRead s.samples (sampleAddress b k)

/-- R161: under `ENV_HANDOFF` the `idx` operands of successive conversion-dones alternate, over any number of steps. -/
def Obligations.ConversionDonesAlternate : Prop :=
  ∀ (n : Nat) (s : State), EnvHandoff s → (runDones n s).IsChain (fun a b => b = a ^^^ 1)

/-! ### Infinite runs -/

/-- R72, R200, R246: the block never terminates. Whatever the scheduler and the environment draw, move after move without
end, as long as what is presented are command records (R90, log 7), there is the infinite run of these draws. -/
def Obligations.EveryDrawSequenceHasItsInfiniteRun : Prop :=
  ∀ (s : State) (draws : Nat → Move), s.params.valid = true → recordsWhole s →
    (∀ n c w payload, draws n = .present c w payload → wholeRecord c w payload) →
    ∃ run, InfiniteRun s draws run

/-- R29, R125, R246: at every moment of an infinite run from a state that meets the invariants, in any interleaving and with
either form of RB.GET, the invariants hold, and the bytes held at the start followed by the bytes stored so far are the bytes
returned so far followed by the bytes now held. -/
def Obligations.InfiniteRunsKeepTheInvariantsAndTheQueueOrder : Prop :=
  ∀ (s : State) (draws : Nat → Move) (run : Nat → State), BlockInv s → InfiniteRun s draws run →
    ∀ n, BlockInv (run n) ∧
      ∃ g, returnedBytes (run n) = returnedBytes s ++ g ∧
        occupied s ++ (drawnStored draws run n).map some = g.map some ++ occupied (run n)
end

