-- ==== Sys2Proof/Laws/Encoding.lean ====
section
/-! SUPPORT. The formats and the fields of a command word as numbers, and the decoder taken apart: what a decoded word is, and
which words a row of the opcode map selects (spec R91 to R94). -/

namespace Sys2Proof

/-! ### Formats and fields as numbers -/

theorem toNat_append_mul {m n : Nat} (x : BitVec m) (y : BitVec n) :
    (x ++ y).toNat = x.toNat * 2 ^ n + y.toNat := by
  rw [BitVec.toNat_append, ← Nat.shiftLeft_add_eq_or_of_lt y.isLt, Nat.shiftLeft_eq]

theorem formatN_toNat (op : BitVec 8) : (formatN op).toNat = op.toNat * 2 ^ 24 :=
  (toNat_append_mul _ _).trans (by simp)

theorem formatI_toNat (op : BitVec 8) (hen : Bool) : (formatI op hen).toNat = op.toNat * 2 ^ 24 + hen.toNat := by
  refine (toNat_append_mul _ _).trans ?_
  rw [toNat_append_mul]
  simp
  omega

theorem formatL_toNat (op : BitVec 8) (len : BitVec 16) : (formatL op len).toNat = op.toNat * 2 ^ 24 + len.toNat := by
  refine (toNat_append_mul _ _).trans ?_
  rw [toNat_append_mul]
  simp
  omega

theorem formatE_toNat (op err : BitVec 8) : (formatE op err).toNat = op.toNat * 2 ^ 24 + err.toNat := by
  refine (toNat_append_mul _ _).trans ?_
  rw [toNat_append_mul]
  simp
  omega

theorem formatD_toNat (op : BitVec 8) (idx : BitVec 1) (n : BitVec 8) :
    (formatD op idx n).toNat = op.toNat * 2 ^ 24 + idx.toNat * 2 ^ 8 + n.toNat := by
  refine (toNat_append_mul _ _).trans ?_
  rw [toNat_append_mul, toNat_append_mul]
  simp
  omega

theorem formatW_toNat (op : BitVec 8) (idx : BitVec 1) (k : BitVec 7) (v : Sample) :
    (formatW op idx k v).toNat = op.toNat * 2 ^ 24 + idx.toNat * 2 ^ 23 + k.toNat * 2 ^ 16 + v.toNat := by
  refine (toNat_append_mul _ _).trans ?_
  rw [toNat_append_mul, toNat_append_mul]
  omega

theorem field_toNat (w : Word) (start len : Nat) :
    (w.extractLsb' start len).toNat = w.toNat / 2 ^ start % 2 ^ len := by
  simp [BitVec.extractLsb'_toNat, Nat.shiftRight_eq_div_pow]

theorem opcodeField_eq (w : Word) (op : BitVec 8) : opcodeField w = op ↔ w.toNat / 2 ^ 24 = op.toNat := by
  rw [← BitVec.toNat_inj, opcodeField, field_toNat]
  omega

theorem henField_toNat (w : Word) : (henField w).toNat = w.toNat % 2 := by
  rcases Nat.mod_two_eq_zero_or_one w.toNat with h | h <;> simp [henField, BitVec.getLsbD, Nat.testBit_zero, h]

theorem lenField_toNat (w : Word) : (lenField w).toNat = w.toNat % 2 ^ 16 := by rw [lenField, field_toNat]; omega

theorem errField_toNat (w : Word) : (errField w).toNat = w.toNat % 2 ^ 8 := by rw [errField, field_toNat]; omega

theorem countField_toNat (w : Word) : (countField w).toNat = w.toNat % 2 ^ 8 := by rw [countField, field_toNat]; omega

theorem doneIdxField_toNat (w : Word) : (doneIdxField w).toNat = w.toNat / 2 ^ 8 % 2 := by
  rw [doneIdxField, field_toNat]; omega

theorem swrIdxField_toNat (w : Word) : (swrIdxField w).toNat = w.toNat / 2 ^ 23 % 2 := by
  rw [swrIdxField, field_toNat]; omega

theorem entryField_toNat (w : Word) : (entryField w).toNat = w.toNat / 2 ^ 16 % 128 := by
  rw [entryField, field_toNat]; omega

theorem sampleField_toNat (w : Word) : (sampleField w).toNat = w.toNat % 2 ^ 16 := by
  rw [sampleField, field_toNat]; omega

/-! ### The decoder taken apart -/

theorem ite_cases {α : Type} {c : Prop} [Decidable c] {a b r : α} (h : (if c then a else b) = r) :
    (c ∧ a = r) ∨ (¬c ∧ b = r) := by
  split at h <;> simp_all

theorem mbz_eq (w : Word) (lo : Nat) : w.extractLsb' lo (24 - lo) = 0 ↔ w.toNat / 2 ^ lo % 2 ^ (24 - lo) = 0 := by
  rw [← BitVec.toNat_inj, field_toNat]
  rfl

theorem mbzAbove_ok {lo : Nat} {w : Word} {i j : Instr} (h : mbzAbove lo w j = .ok i) :
    i = j ∧ w.toNat / 2 ^ lo % 2 ^ (24 - lo) = 0 := by
  simp only [mbzAbove, mbz_eq] at h
  split at h <;> simp_all

/-- A decoded word is the word of its command; for RB.PUT the payload is the one given and the word holds its own `len`. -/
theorem decodeWord_ok {w : Word} {payload : List Byte} {i : Instr} (h : decodeWord w payload = .ok i) :
    (i = .rbPut payload ∧ formatL 0x11 (lenField w) = w) ∨ ((∀ d, i ≠ .rbPut d) ∧ encodeWord i = w) := by
  have hl := w.isLt
  unfold decodeWord at h
  iterate 18
    rcases ite_cases h with ⟨ho, h'⟩ | ⟨-, h'⟩
    · obtain ⟨rfl, hm⟩ := mbzAbove_ok h'
      rw [opcodeField_eq] at ho
      first
      | left
        refine ⟨rfl, BitVec.eq_of_toNat_eq ?_⟩
        simp only [formatL_toNat, lenField_toNat]
        simp at ho hm ⊢
        try omega
      | right
        refine ⟨by simp, BitVec.eq_of_toNat_eq ?_⟩
        simp only [encodeWord, formatN_toNat, formatI_toNat, formatL_toNat, formatE_toNat, formatD_toNat,
          henField_toNat, lenField_toNat, errField_toNat, doneIdxField_toNat, countField_toNat]
        simp at ho hm ⊢
        try omega
    clear h
    have h := h'
    clear h'
  rcases ite_cases h with ⟨ho, h'⟩ | ⟨-, h'⟩
  · cases h'
    rw [opcodeField_eq] at ho
    refine .inr ⟨by simp, BitVec.eq_of_toNat_eq ?_⟩
    simp only [encodeWord, formatW_toNat, swrIdxField_toNat, entryField_toNat, sampleField_toNat]
    simp at ho ⊢
    omega
  · cases h'

/-- How many low bits of a command's word its operands take: the must-be-zero bits lie above them (R92). -/
def Instr.operandBits : Instr → Nat
  | .rbInit _ => 1
  | .rbPut _ => 16
  | .rbGet _ => 16
  | .adcConfig _ => 8
  | .adcEvtDone _ _ => 9
  | .adcSwr _ _ _ => 24
  | .sysStatus => 0
  | .rbOcc => 0
  | .rbWcur => 0
  | .rbRcur => 0
  | .rbTotrd => 0
  | .rbTotwr => 0
  | .rbOvwc => 0
  | .adcEvtReady => 0
  | .adcEvtBufreq => 0
  | .adcEvtFin => 0
  | .adcStart => 0
  | .adcStop => 0
  | .adcBytes => 0

/-- The mask of a row is the bits above its operands (R94). -/
theorem maskBits_eq (i : Instr) : i.maskBits = BitVec.allOnes 32 <<< i.operandBits := by
  cases i <;> simp only [Instr.maskBits, Instr.operandBits] <;> decide

/-- The match of a row is its opcode (R94). -/
theorem matchBits_toNat (i : Instr) : i.matchBits.toNat = i.opcode.toNat * 2 ^ 24 := by
  cases i <;> simp only [Instr.matchBits, Instr.opcode] <;> decide

/-- A word without its low `lo` bits. -/
theorem and_mask_eq (w v : Word) (lo : Nat) :
    w &&& BitVec.allOnes 32 <<< lo = v ↔ w.toNat / 2 ^ lo * 2 ^ lo = v.toNat := by
  rw [← BitVec.toNat_inj]
  have h : w &&& (BitVec.allOnes 32 <<< lo) = (w >>> lo) <<< lo := by
    ext j
    simp only [BitVec.getElem_and, BitVec.getElem_shiftLeft, BitVec.getElem_allOnes]
    by_cases h : j < lo
    · simp [h]
    · simp [h, show lo + (j - lo) = j by omega, show j < 32 by omega]
  rw [h, BitVec.toNat_shiftLeft, BitVec.toNat_ushiftRight, Nat.shiftRight_eq_div_pow, Nat.shiftLeft_eq,
    Nat.mod_eq_of_lt]
  exact Nat.lt_of_le_of_lt (Nat.div_mul_le_self _ _) w.isLt

/-- A row is selected by its opcode and zeros in its must-be-zero bits. -/
theorem selected_iff (w : Word) (i : Instr) :
    w &&& i.maskBits = i.matchBits ↔
      opcodeField w = i.opcode ∧ w.toNat / 2 ^ i.operandBits % 2 ^ (24 - i.operandBits) = 0 := by
  rw [maskBits_eq, and_mask_eq, matchBits_toNat, opcodeField_eq]
  have := w.isLt
  cases i <;> simp only [Instr.operandBits, Instr.opcode] <;> omega

/-- A selected row decodes, to a command of the row's opcode and context. -/
theorem decodeWord_of_selected {w : Word} (payload : List Byte) {i : Instr} (h : w &&& i.maskBits = i.matchBits) :
    ∃ j, decodeWord w payload = .ok j ∧ j.opcode = i.opcode ∧ j.ctx = i.ctx := by
  obtain ⟨ho, hm⟩ := (selected_iff w i).1 h
  unfold decodeWord
  cases i <;> simp only [Instr.opcode] at ho <;> simp only [Instr.operandBits] at hm <;>
    simp only [ho, mbzAbove, mbz_eq] <;> simp at hm ⊢ <;> simp [hm, Instr.opcode, Instr.ctx]

end Sys2Proof
end

