-- ==== Sys2Proof/Laws/Memory.lean ====
section
/-! SUPPORT. Laws of the memory primitives: read after write, the canonical form, and runs of bytes that wrap around. -/

namespace Sys2Proof.Machine

variable {w : Nat}

@[simp] theorem memRead_nil (a : Nat) : memRead ([] : Memory w) a = none := rfl

/-- A read after a write to the same cell gives the value written. -/
@[simp] theorem memRead_memWrite_same (m : Memory w) (a : Nat) (v : BitVec w) :
    memRead (memWrite m a v) a = some v := by
  induction m with
  | nil => simp [memWrite, memRead]
  | cons x m ih =>
    obtain ⟨b, u⟩ := x
    simp only [memWrite]
    split
    · simp [memRead]
    · split
      · simp [memRead]
      · simp [memRead, *]

/-- A write leaves every other cell alone. -/
theorem memRead_memWrite_other (m : Memory w) {a x : Nat} (v : BitVec w) (h : x ≠ a) :
    memRead (memWrite m a v) x = memRead m x := by
  induction m with
  | nil => simp [memWrite, memRead, h]
  | cons y m ih =>
    obtain ⟨b, u⟩ := y
    simp only [memWrite]
    split
    · simp [memRead, h]
    · split
      · subst_vars
        simp [memRead, h]
      · simp [memRead, ih]

theorem memRead_memWrite (m : Memory w) (a x : Nat) (v : BitVec w) :
    memRead (memWrite m a v) x = if x = a then some v else memRead m x := by
  split
  · subst_vars; exact memRead_memWrite_same m _ v
  · exact memRead_memWrite_other m v ‹_›

/-- A written memory lists the address written and addresses it listed before. -/
theorem mem_memWrite {m : Memory w} {a : Nat} {v : BitVec w} {y : Nat × BitVec w}
    (h : y ∈ memWrite m a v) : y = (a, v) ∨ y ∈ m := by
  induction m with
  | nil => simpa [memWrite] using h
  | cons x m ih =>
    obtain ⟨b, u⟩ := x
    simp only [memWrite] at h
    split at h
    · simpa using h
    · split at h
      · rcases List.mem_cons.1 h with h | h
        · exact .inl h
        · exact .inr (List.mem_cons_of_mem _ h)
      · rcases List.mem_cons.1 h with h | h
        · exact .inr (h ▸ List.mem_cons_self)
        · exact (ih h).imp_right (List.mem_cons_of_mem _)

/-- A write keeps the canonical form. -/
theorem memWrite_wf {m : Memory w} (h : Memory.wf m) (a : Nat) (v : BitVec w) :
    Memory.wf (memWrite m a v) := by
  induction m with
  | nil => simp [memWrite, Memory.wf]
  | cons x m ih =>
    obtain ⟨b, u⟩ := x
    obtain ⟨hb, hm⟩ := List.pairwise_cons.1 h
    simp only [memWrite]
    split
    · refine List.pairwise_cons.2 ⟨fun y hy => ?_, h⟩
      rcases List.mem_cons.1 hy with rfl | hy
      · assumption
      · exact Nat.lt_trans ‹a < b› (hb y hy)
    · split
      · subst_vars
        exact List.pairwise_cons.2 ⟨hb, hm⟩
      · refine List.pairwise_cons.2 ⟨fun y hy => ?_, ih hm⟩
        rcases mem_memWrite hy with rfl | hy
        · show b < a
          omega
        · exact hb y hy

/-- A cell that can be read is listed. -/
theorem mem_of_memRead {m : Memory w} {a : Nat} {v : BitVec w} (h : memRead m a = some v) : (a, v) ∈ m := by
  induction m with
  | nil => simp at h
  | cons x m ih =>
    obtain ⟨b, u⟩ := x
    simp only [memRead] at h
    split at h
    · simp_all
    · exact List.mem_cons_of_mem _ (ih h)

/-- Positions of a run no longer than the store are different cells (R69). -/
theorem run_cells_distinct {c a i j : Nat} (hi : i < c) (hj : j < c) (h : (a + i) % c = (a + j) % c) : i = j := by
  have h' : i % c = j % c := Nat.ModEq.add_left_cancel' (n := c) a h
  rwa [Nat.mod_eq_of_lt hi, Nat.mod_eq_of_lt hj] at h'

theorem memWriteRun_wf (c : Nat) {m : Memory 8} (h : Memory.wf m) (a : Nat) (data : List Byte) :
    Memory.wf (memWriteRun c m a data) := by
  induction data generalizing m a with
  | nil => exact h
  | cons b data ih => exact ih (memWrite_wf h _ _) _

theorem mem_memWriteRun {c : Nat} {m : Memory 8} {a : Nat} {data : List Byte} {y : Nat × Byte}
    (h : y ∈ memWriteRun c m a data) : y ∈ m ∨ ∃ i, y.1 = (a + i) % c := by
  induction data generalizing m a with
  | nil => exact .inl h
  | cons b data ih =>
    rcases ih h with h | ⟨i, hi⟩
    · rcases mem_memWrite h with rfl | h
      · exact .inr ⟨0, rfl⟩
      · exact .inl h
    · exact .inr ⟨i + 1, by rw [hi]; congr 1; omega⟩

/-- A run writes nothing outside its cells. -/
theorem memRead_memWriteRun_other (c : Nat) (m : Memory 8) (a x : Nat) (data : List Byte)
    (h : ∀ i < data.length, x ≠ (a + i) % c) : memRead (memWriteRun c m a data) x = memRead m x := by
  induction data generalizing m a with
  | nil => rfl
  | cons b data ih =>
    rw [memWriteRun, ih]
    · exact memRead_memWrite_other m b (h 0 (by simp))
    · intro i hi
      have := h (i + 1) (by simpa using hi)
      rwa [show a + 1 + i = a + (i + 1) by omega]

/-- A run no longer than the store puts its `i`-th byte into its `i`-th cell (R69). -/
theorem memRead_memWriteRun_at (c : Nat) (m : Memory 8) (a : Nat) (data : List Byte)
    (hc : data.length ≤ c) {i : Nat} (hi : i < data.length) :
    memRead (memWriteRun c m a data) ((a + i) % c) = data[i]? := by
  induction data generalizing m a i with
  | nil => simp at hi
  | cons b data ih =>
    simp only [List.length_cons] at hc hi
    rw [memWriteRun]
    cases i with
    | zero =>
      rw [memRead_memWriteRun_other, Nat.add_zero, memRead_memWrite_same]
      · rfl
      · intro j hj he
        have : 0 = j + 1 := run_cells_distinct (c := c) (a := a) (by omega) (by omega)
          (by rw [he]; congr 1; omega)
        omega
    | succ i =>
      have := ih (memWrite m (a % c) b) (a + 1) (by omega) (i := i) (by omega)
      rw [show a + (i + 1) = a + 1 + i by omega, this]
      rfl

theorem reset_ring_wf : Memory.wf State.reset.ring := List.Pairwise.nil

theorem reset_samples_wf : Memory.wf State.reset.samples := List.Pairwise.nil

end Sys2Proof.Machine
end

