-- ==== Sys2Proof/Laws/State.lean ====
section
/-! SUPPORT. What each shared operation does to each field of the state, so that no later proof unfolds a record update. -/

namespace Sys2Proof.Machine

/-! `respond` -/

@[simp] theorem respond_params (st : Status) (v : Word) (d : List Byte) (s : State) :
    (respond st v d s).params = s.params :=
  rfl
@[simp] theorem respond_ring (st : Status) (v : Word) (d : List Byte) (s : State) :
    (respond st v d s).ring = s.ring :=
  rfl
@[simp] theorem respond_wcur (st : Status) (v : Word) (d : List Byte) (s : State) :
    (respond st v d s).wcur = s.wcur :=
  rfl
@[simp] theorem respond_rcur (st : Status) (v : Word) (d : List Byte) (s : State) :
    (respond st v d s).rcur = s.rcur :=
  rfl
@[simp] theorem respond_occ (st : Status) (v : Word) (d : List Byte) (s : State) :
    (respond st v d s).occ = s.occ :=
  rfl
@[simp] theorem respond_bytesWritten (st : Status) (v : Word) (d : List Byte) (s : State) :
    (respond st v d s).bytesWritten = s.bytesWritten :=
  rfl
@[simp] theorem respond_bytesRead (st : Status) (v : Word) (d : List Byte) (s : State) :
    (respond st v d s).bytesRead = s.bytesRead :=
  rfl
@[simp] theorem respond_ovwCount (st : Status) (v : Word) (d : List Byte) (s : State) :
    (respond st v d s).ovwCount = s.ovwCount :=
  rfl
@[simp] theorem respond_hen (st : Status) (v : Word) (d : List Byte) (s : State) :
    (respond st v d s).hen = s.hen :=
  rfl
@[simp] theorem respond_inited (st : Status) (v : Word) (d : List Byte) (s : State) :
    (respond st v d s).inited = s.inited :=
  rfl
@[simp] theorem respond_samples (st : Status) (v : Word) (d : List Byte) (s : State) :
    (respond st v d s).samples = s.samples :=
  rfl
@[simp] theorem respond_drvState (st : Status) (v : Word) (d : List Byte) (s : State) :
    (respond st v d s).drvState = s.drvState :=
  rfl
@[simp] theorem respond_act (st : Status) (v : Word) (d : List Byte) (s : State) :
    (respond st v d s).act = s.act :=
  rfl
@[simp] theorem respond_eventCount (st : Status) (v : Word) (d : List Byte) (s : State) :
    (respond st v d s).eventCount = s.eventCount :=
  rfl
@[simp] theorem respond_cfg (st : Status) (v : Word) (d : List Byte) (s : State) :
    (respond st v d s).cfg = s.cfg :=
  rfl
@[simp] theorem respond_cfgErr (st : Status) (v : Word) (d : List Byte) (s : State) :
    (respond st v d s).cfgErr = s.cfgErr :=
  rfl
@[simp] theorem respond_fault (st : Status) (v : Word) (d : List Byte) (s : State) :
    (respond st v d s).fault = s.fault :=
  rfl
@[simp] theorem respond_getInFlight (st : Status) (v : Word) (d : List Byte) (s : State) :
    (respond st v d s).getInFlight = s.getInFlight :=
  rfl
@[simp] theorem respond_response (st : Status) (v : Word) (d : List Byte) (s : State) :
    (respond st v d s).response = some { status := st, value := v, data := d } :=
  rfl
@[simp] theorem respond_events (st : Status) (v : Word) (d : List Byte) (s : State) :
    (respond st v d s).events = s.events :=
  rfl
@[simp] theorem respond_answered (st : Status) (v : Word) (d : List Byte) (s : State) :
    (respond st v d s).answered = s.answered :=
  rfl
@[simp] theorem respond_draws (st : Status) (v : Word) (d : List Byte) (s : State) :
    (respond st v d s).draws = s.draws :=
  rfl
@[simp] theorem respond_portF (st : Status) (v : Word) (d : List Byte) (s : State) :
    (respond st v d s).portF = s.portF :=
  rfl
@[simp] theorem respond_portP (st : Status) (v : Word) (d : List Byte) (s : State) :
    (respond st v d s).portP = s.portP :=
  rfl
@[simp] theorem respond_portA (st : Status) (v : Word) (d : List Byte) (s : State) :
    (respond st v d s).portA = s.portA :=
  rfl
@[simp] theorem respond_portX (st : Status) (v : Word) (d : List Byte) (s : State) :
    (respond st v d s).portX = s.portX :=
  rfl
@[simp] theorem respond_schedule (st : Status) (v : Word) (d : List Byte) (s : State) :
    (respond st v d s).schedule = s.schedule :=
  rfl
@[simp] theorem respond_converter (st : Status) (v : Word) (d : List Byte) (s : State) :
    (respond st v d s).converter = s.converter :=
  rfl
@[simp] theorem respond_host (st : Status) (v : Word) (d : List Byte) (s : State) :
    (respond st v d s).host = s.host :=
  rfl

/-! `reportError` -/

@[simp] theorem reportError_params (st : Status) (s : State) : (reportError st s).params = s.params := rfl
@[simp] theorem reportError_ring (st : Status) (s : State) : (reportError st s).ring = s.ring := rfl
@[simp] theorem reportError_wcur (st : Status) (s : State) : (reportError st s).wcur = s.wcur := rfl
@[simp] theorem reportError_rcur (st : Status) (s : State) : (reportError st s).rcur = s.rcur := rfl
@[simp] theorem reportError_occ (st : Status) (s : State) : (reportError st s).occ = s.occ := rfl
@[simp] theorem reportError_bytesWritten (st : Status) (s : State) :
    (reportError st s).bytesWritten = s.bytesWritten :=
  rfl
@[simp] theorem reportError_bytesRead (st : Status) (s : State) : (reportError st s).bytesRead = s.bytesRead := rfl
@[simp] theorem reportError_ovwCount (st : Status) (s : State) : (reportError st s).ovwCount = s.ovwCount := rfl
@[simp] theorem reportError_hen (st : Status) (s : State) : (reportError st s).hen = s.hen := rfl
@[simp] theorem reportError_inited (st : Status) (s : State) : (reportError st s).inited = s.inited := rfl
@[simp] theorem reportError_samples (st : Status) (s : State) : (reportError st s).samples = s.samples := rfl
@[simp] theorem reportError_drvState (st : Status) (s : State) : (reportError st s).drvState = s.drvState := rfl
@[simp] theorem reportError_act (st : Status) (s : State) : (reportError st s).act = s.act := rfl
@[simp] theorem reportError_eventCount (st : Status) (s : State) : (reportError st s).eventCount = s.eventCount := rfl
@[simp] theorem reportError_cfg (st : Status) (s : State) : (reportError st s).cfg = s.cfg := rfl
@[simp] theorem reportError_cfgErr (st : Status) (s : State) : (reportError st s).cfgErr = s.cfgErr := rfl
@[simp] theorem reportError_fault (st : Status) (s : State) :
    (reportError st s).fault = s.fault ||| st.faultBit :=
  rfl
@[simp] theorem reportError_getInFlight (st : Status) (s : State) :
    (reportError st s).getInFlight = s.getInFlight :=
  rfl
@[simp] theorem reportError_response (st : Status) (s : State) :
    (reportError st s).response = some { status := st, value := 0, data := [] } :=
  rfl
@[simp] theorem reportError_events (st : Status) (s : State) : (reportError st s).events = s.events := rfl
@[simp] theorem reportError_answered (st : Status) (s : State) : (reportError st s).answered = s.answered := rfl
@[simp] theorem reportError_draws (st : Status) (s : State) : (reportError st s).draws = s.draws := rfl
@[simp] theorem reportError_portF (st : Status) (s : State) : (reportError st s).portF = s.portF := rfl
@[simp] theorem reportError_portP (st : Status) (s : State) : (reportError st s).portP = s.portP := rfl
@[simp] theorem reportError_portA (st : Status) (s : State) : (reportError st s).portA = s.portA := rfl
@[simp] theorem reportError_portX (st : Status) (s : State) : (reportError st s).portX = s.portX := rfl
@[simp] theorem reportError_schedule (st : Status) (s : State) : (reportError st s).schedule = s.schedule := rfl
@[simp] theorem reportError_converter (st : Status) (s : State) : (reportError st s).converter = s.converter := rfl
@[simp] theorem reportError_host (st : Status) (s : State) : (reportError st s).host = s.host := rfl

/-! `reportIllegal` -/

@[simp] theorem reportIllegal_params (s : State) : (reportIllegal s).params = s.params := rfl
@[simp] theorem reportIllegal_ring (s : State) : (reportIllegal s).ring = s.ring := rfl
@[simp] theorem reportIllegal_wcur (s : State) : (reportIllegal s).wcur = s.wcur := rfl
@[simp] theorem reportIllegal_rcur (s : State) : (reportIllegal s).rcur = s.rcur := rfl
@[simp] theorem reportIllegal_occ (s : State) : (reportIllegal s).occ = s.occ := rfl
@[simp] theorem reportIllegal_bytesWritten (s : State) : (reportIllegal s).bytesWritten = s.bytesWritten := rfl
@[simp] theorem reportIllegal_bytesRead (s : State) : (reportIllegal s).bytesRead = s.bytesRead := rfl
@[simp] theorem reportIllegal_ovwCount (s : State) : (reportIllegal s).ovwCount = s.ovwCount := rfl
@[simp] theorem reportIllegal_hen (s : State) : (reportIllegal s).hen = s.hen := rfl
@[simp] theorem reportIllegal_inited (s : State) : (reportIllegal s).inited = s.inited := rfl
@[simp] theorem reportIllegal_samples (s : State) : (reportIllegal s).samples = s.samples := rfl
@[simp] theorem reportIllegal_drvState (s : State) : (reportIllegal s).drvState = s.drvState := rfl
@[simp] theorem reportIllegal_act (s : State) : (reportIllegal s).act = s.act := rfl
@[simp] theorem reportIllegal_eventCount (s : State) : (reportIllegal s).eventCount = s.eventCount := rfl
@[simp] theorem reportIllegal_cfg (s : State) : (reportIllegal s).cfg = s.cfg := rfl
@[simp] theorem reportIllegal_cfgErr (s : State) : (reportIllegal s).cfgErr = s.cfgErr := rfl
@[simp] theorem reportIllegal_fault (s : State) : (reportIllegal s).fault = s.fault ||| faultIll := rfl
@[simp] theorem reportIllegal_getInFlight (s : State) : (reportIllegal s).getInFlight = s.getInFlight := rfl
@[simp] theorem reportIllegal_response (s : State) :
    (reportIllegal s).response = some { status := .illegal, value := 0, data := [] } :=
  rfl
@[simp] theorem reportIllegal_events (s : State) : (reportIllegal s).events = s.events := rfl
@[simp] theorem reportIllegal_answered (s : State) : (reportIllegal s).answered = s.answered := rfl
@[simp] theorem reportIllegal_draws (s : State) : (reportIllegal s).draws = s.draws := rfl
@[simp] theorem reportIllegal_portF (s : State) : (reportIllegal s).portF = s.portF := rfl
@[simp] theorem reportIllegal_portP (s : State) : (reportIllegal s).portP = s.portP := rfl
@[simp] theorem reportIllegal_portA (s : State) : (reportIllegal s).portA = s.portA := rfl
@[simp] theorem reportIllegal_portX (s : State) : (reportIllegal s).portX = s.portX := rfl
@[simp] theorem reportIllegal_schedule (s : State) : (reportIllegal s).schedule = s.schedule := rfl
@[simp] theorem reportIllegal_converter (s : State) : (reportIllegal s).converter = s.converter := rfl
@[simp] theorem reportIllegal_host (s : State) : (reportIllegal s).host = s.host := rfl

/-! `emit` -/

@[simp] theorem emit_params (e : Event) (s : State) : (emit e s).params = s.params := rfl
@[simp] theorem emit_ring (e : Event) (s : State) : (emit e s).ring = s.ring := rfl
@[simp] theorem emit_wcur (e : Event) (s : State) : (emit e s).wcur = s.wcur := rfl
@[simp] theorem emit_rcur (e : Event) (s : State) : (emit e s).rcur = s.rcur := rfl
@[simp] theorem emit_occ (e : Event) (s : State) : (emit e s).occ = s.occ := rfl
@[simp] theorem emit_bytesWritten (e : Event) (s : State) : (emit e s).bytesWritten = s.bytesWritten := rfl
@[simp] theorem emit_bytesRead (e : Event) (s : State) : (emit e s).bytesRead = s.bytesRead := rfl
@[simp] theorem emit_ovwCount (e : Event) (s : State) : (emit e s).ovwCount = s.ovwCount := rfl
@[simp] theorem emit_hen (e : Event) (s : State) : (emit e s).hen = s.hen := rfl
@[simp] theorem emit_inited (e : Event) (s : State) : (emit e s).inited = s.inited := rfl
@[simp] theorem emit_samples (e : Event) (s : State) : (emit e s).samples = s.samples := rfl
@[simp] theorem emit_drvState (e : Event) (s : State) : (emit e s).drvState = s.drvState := rfl
@[simp] theorem emit_act (e : Event) (s : State) : (emit e s).act = s.act := rfl
@[simp] theorem emit_eventCount (e : Event) (s : State) : (emit e s).eventCount = s.eventCount := rfl
@[simp] theorem emit_cfg (e : Event) (s : State) : (emit e s).cfg = s.cfg := rfl
@[simp] theorem emit_cfgErr (e : Event) (s : State) : (emit e s).cfgErr = s.cfgErr := rfl
@[simp] theorem emit_fault (e : Event) (s : State) : (emit e s).fault = s.fault := rfl
@[simp] theorem emit_getInFlight (e : Event) (s : State) : (emit e s).getInFlight = s.getInFlight := rfl
@[simp] theorem emit_response (e : Event) (s : State) : (emit e s).response = s.response := rfl
@[simp] theorem emit_events (e : Event) (s : State) : (emit e s).events = s.events ++ [e] := rfl
@[simp] theorem emit_answered (e : Event) (s : State) : (emit e s).answered = s.answered := rfl
@[simp] theorem emit_draws (e : Event) (s : State) : (emit e s).draws = s.draws := rfl
@[simp] theorem emit_portF (e : Event) (s : State) : (emit e s).portF = s.portF := rfl
@[simp] theorem emit_portP (e : Event) (s : State) : (emit e s).portP = s.portP := rfl
@[simp] theorem emit_portA (e : Event) (s : State) : (emit e s).portA = s.portA := rfl
@[simp] theorem emit_portX (e : Event) (s : State) : (emit e s).portX = s.portX := rfl
@[simp] theorem emit_schedule (e : Event) (s : State) : (emit e s).schedule = s.schedule := rfl
@[simp] theorem emit_converter (e : Event) (s : State) : (emit e s).converter = s.converter := rfl
@[simp] theorem emit_host (e : Event) (s : State) : (emit e s).host = s.host := rfl

/-! `advanceDraws` -/

@[simp] theorem advanceDraws_params (k : Nat) (s : State) : (advanceDraws k s).params = s.params := rfl
@[simp] theorem advanceDraws_ring (k : Nat) (s : State) : (advanceDraws k s).ring = s.ring := rfl
@[simp] theorem advanceDraws_wcur (k : Nat) (s : State) : (advanceDraws k s).wcur = s.wcur := rfl
@[simp] theorem advanceDraws_rcur (k : Nat) (s : State) : (advanceDraws k s).rcur = s.rcur := rfl
@[simp] theorem advanceDraws_occ (k : Nat) (s : State) : (advanceDraws k s).occ = s.occ := rfl
@[simp] theorem advanceDraws_bytesWritten (k : Nat) (s : State) :
    (advanceDraws k s).bytesWritten = s.bytesWritten :=
  rfl
@[simp] theorem advanceDraws_bytesRead (k : Nat) (s : State) : (advanceDraws k s).bytesRead = s.bytesRead := rfl
@[simp] theorem advanceDraws_ovwCount (k : Nat) (s : State) : (advanceDraws k s).ovwCount = s.ovwCount := rfl
@[simp] theorem advanceDraws_hen (k : Nat) (s : State) : (advanceDraws k s).hen = s.hen := rfl
@[simp] theorem advanceDraws_inited (k : Nat) (s : State) : (advanceDraws k s).inited = s.inited := rfl
@[simp] theorem advanceDraws_samples (k : Nat) (s : State) : (advanceDraws k s).samples = s.samples := rfl
@[simp] theorem advanceDraws_drvState (k : Nat) (s : State) : (advanceDraws k s).drvState = s.drvState := rfl
@[simp] theorem advanceDraws_act (k : Nat) (s : State) : (advanceDraws k s).act = s.act := rfl
@[simp] theorem advanceDraws_eventCount (k : Nat) (s : State) : (advanceDraws k s).eventCount = s.eventCount := rfl
@[simp] theorem advanceDraws_cfg (k : Nat) (s : State) : (advanceDraws k s).cfg = s.cfg := rfl
@[simp] theorem advanceDraws_cfgErr (k : Nat) (s : State) : (advanceDraws k s).cfgErr = s.cfgErr := rfl
@[simp] theorem advanceDraws_fault (k : Nat) (s : State) : (advanceDraws k s).fault = s.fault := rfl
@[simp] theorem advanceDraws_getInFlight (k : Nat) (s : State) : (advanceDraws k s).getInFlight = s.getInFlight := rfl
@[simp] theorem advanceDraws_response (k : Nat) (s : State) : (advanceDraws k s).response = s.response := rfl
@[simp] theorem advanceDraws_events (k : Nat) (s : State) : (advanceDraws k s).events = s.events := rfl
@[simp] theorem advanceDraws_answered (k : Nat) (s : State) : (advanceDraws k s).answered = s.answered := rfl
@[simp] theorem advanceDraws_draws (k : Nat) (s : State) : (advanceDraws k s).draws = s.draws + k := rfl
@[simp] theorem advanceDraws_portF (k : Nat) (s : State) : (advanceDraws k s).portF = s.portF := rfl
@[simp] theorem advanceDraws_portP (k : Nat) (s : State) : (advanceDraws k s).portP = s.portP := rfl
@[simp] theorem advanceDraws_portA (k : Nat) (s : State) : (advanceDraws k s).portA = s.portA := rfl
@[simp] theorem advanceDraws_portX (k : Nat) (s : State) : (advanceDraws k s).portX = s.portX := rfl
@[simp] theorem advanceDraws_schedule (k : Nat) (s : State) : (advanceDraws k s).schedule = s.schedule := rfl
@[simp] theorem advanceDraws_converter (k : Nat) (s : State) : (advanceDraws k s).converter = s.converter := rfl
@[simp] theorem advanceDraws_host (k : Nat) (s : State) : (advanceDraws k s).host = s.host := rfl

/-! `putStore` -/

@[simp] theorem putStore_params (data : List Byte) (s : State) : (putStore data s).params = s.params := rfl
@[simp] theorem putStore_ring (data : List Byte) (s : State) :
    (putStore data s).ring = memWriteRun s.params.capacity s.ring s.wcur (data.take (putAccepted s data.length)) :=
  rfl
@[simp] theorem putStore_wcur (data : List Byte) (s : State) :
    (putStore data s).wcur = cursorAdd s s.wcur (putAccepted s data.length) :=
  rfl
@[simp] theorem putStore_rcur (data : List Byte) (s : State) : (putStore data s).rcur = s.rcur := rfl
@[simp] theorem putStore_occ (data : List Byte) (s : State) :
    (putStore data s).occ = s.occ + putAccepted s data.length :=
  rfl
@[simp] theorem putStore_bytesWritten (data : List Byte) (s : State) :
    (putStore data s).bytesWritten = counterAdd s s.bytesWritten (putAccepted s data.length) :=
  rfl
@[simp] theorem putStore_bytesRead (data : List Byte) (s : State) : (putStore data s).bytesRead = s.bytesRead := rfl
@[simp] theorem putStore_ovwCount (data : List Byte) (s : State) : (putStore data s).ovwCount = s.ovwCount := rfl
@[simp] theorem putStore_hen (data : List Byte) (s : State) : (putStore data s).hen = s.hen := rfl
@[simp] theorem putStore_inited (data : List Byte) (s : State) : (putStore data s).inited = s.inited := rfl
@[simp] theorem putStore_samples (data : List Byte) (s : State) : (putStore data s).samples = s.samples := rfl
@[simp] theorem putStore_drvState (data : List Byte) (s : State) : (putStore data s).drvState = s.drvState := rfl
@[simp] theorem putStore_act (data : List Byte) (s : State) : (putStore data s).act = s.act := rfl
@[simp] theorem putStore_eventCount (data : List Byte) (s : State) :
    (putStore data s).eventCount = s.eventCount :=
  rfl
@[simp] theorem putStore_cfg (data : List Byte) (s : State) : (putStore data s).cfg = s.cfg := rfl
@[simp] theorem putStore_cfgErr (data : List Byte) (s : State) : (putStore data s).cfgErr = s.cfgErr := rfl
@[simp] theorem putStore_fault (data : List Byte) (s : State) : (putStore data s).fault = s.fault := rfl
@[simp] theorem putStore_getInFlight (data : List Byte) (s : State) :
    (putStore data s).getInFlight = s.getInFlight :=
  rfl
@[simp] theorem putStore_response (data : List Byte) (s : State) : (putStore data s).response = s.response := rfl
@[simp] theorem putStore_events (data : List Byte) (s : State) : (putStore data s).events = s.events := rfl
@[simp] theorem putStore_answered (data : List Byte) (s : State) : (putStore data s).answered = s.answered := rfl
@[simp] theorem putStore_draws (data : List Byte) (s : State) : (putStore data s).draws = s.draws := rfl
@[simp] theorem putStore_portF (data : List Byte) (s : State) : (putStore data s).portF = s.portF := rfl
@[simp] theorem putStore_portP (data : List Byte) (s : State) : (putStore data s).portP = s.portP := rfl
@[simp] theorem putStore_portA (data : List Byte) (s : State) : (putStore data s).portA = s.portA := rfl
@[simp] theorem putStore_portX (data : List Byte) (s : State) : (putStore data s).portX = s.portX := rfl
@[simp] theorem putStore_schedule (data : List Byte) (s : State) : (putStore data s).schedule = s.schedule := rfl
@[simp] theorem putStore_converter (data : List Byte) (s : State) : (putStore data s).converter = s.converter := rfl
@[simp] theorem putStore_host (data : List Byte) (s : State) : (putStore data s).host = s.host := rfl

@[simp] theorem counterAdd_putStore (data : List Byte) (s : State) (a b : Nat) :
    counterAdd (putStore data s) a b = counterAdd s a b := rfl

/-! `countTruncated` -/

@[simp] theorem countTruncated_params (s : State) :
    (countTruncated s).params = s.params :=
  by unfold countTruncated; split <;> simp_all
@[simp] theorem countTruncated_ring (s : State) :
    (countTruncated s).ring = s.ring :=
  by unfold countTruncated; split <;> simp_all
@[simp] theorem countTruncated_wcur (s : State) :
    (countTruncated s).wcur = s.wcur :=
  by unfold countTruncated; split <;> simp_all
@[simp] theorem countTruncated_rcur (s : State) :
    (countTruncated s).rcur = s.rcur :=
  by unfold countTruncated; split <;> simp_all
@[simp] theorem countTruncated_occ (s : State) :
    (countTruncated s).occ = s.occ :=
  by unfold countTruncated; split <;> simp_all
@[simp] theorem countTruncated_bytesWritten (s : State) :
    (countTruncated s).bytesWritten = s.bytesWritten :=
  by unfold countTruncated; split <;> simp_all
@[simp] theorem countTruncated_bytesRead (s : State) :
    (countTruncated s).bytesRead = s.bytesRead :=
  by unfold countTruncated; split <;> simp_all
@[simp] theorem countTruncated_ovwCount (s : State) :
    (countTruncated s).ovwCount = counterAdd s s.ovwCount 1 :=
  by unfold countTruncated; split <;> simp_all
@[simp] theorem countTruncated_hen (s : State) :
    (countTruncated s).hen = s.hen :=
  by unfold countTruncated; split <;> simp_all
@[simp] theorem countTruncated_inited (s : State) :
    (countTruncated s).inited = s.inited :=
  by unfold countTruncated; split <;> simp_all
@[simp] theorem countTruncated_samples (s : State) :
    (countTruncated s).samples = s.samples :=
  by unfold countTruncated; split <;> simp_all
@[simp] theorem countTruncated_drvState (s : State) :
    (countTruncated s).drvState = s.drvState :=
  by unfold countTruncated; split <;> simp_all
@[simp] theorem countTruncated_act (s : State) :
    (countTruncated s).act = s.act :=
  by unfold countTruncated; split <;> simp_all
@[simp] theorem countTruncated_eventCount (s : State) :
    (countTruncated s).eventCount = s.eventCount :=
  by unfold countTruncated; split <;> simp_all
@[simp] theorem countTruncated_cfg (s : State) :
    (countTruncated s).cfg = s.cfg :=
  by unfold countTruncated; split <;> simp_all
@[simp] theorem countTruncated_cfgErr (s : State) :
    (countTruncated s).cfgErr = s.cfgErr :=
  by unfold countTruncated; split <;> simp_all
@[simp] theorem countTruncated_fault (s : State) :
    (countTruncated s).fault = s.fault :=
  by unfold countTruncated; split <;> simp_all
@[simp] theorem countTruncated_getInFlight (s : State) :
    (countTruncated s).getInFlight = s.getInFlight :=
  by unfold countTruncated; split <;> simp_all
@[simp] theorem countTruncated_response (s : State) :
    (countTruncated s).response = s.response :=
  by unfold countTruncated; split <;> simp_all
@[simp] theorem countTruncated_events (s : State) :
    (countTruncated s).events = if s.hen then s.events ++ [.ovw (counterAdd s s.ovwCount 1)] else s.events :=
  by unfold countTruncated; split <;> simp_all
@[simp] theorem countTruncated_answered (s : State) :
    (countTruncated s).answered = s.answered :=
  by unfold countTruncated; split <;> simp_all
@[simp] theorem countTruncated_draws (s : State) :
    (countTruncated s).draws = s.draws :=
  by unfold countTruncated; split <;> simp_all
@[simp] theorem countTruncated_portF (s : State) :
    (countTruncated s).portF = s.portF :=
  by unfold countTruncated; split <;> simp_all
@[simp] theorem countTruncated_portP (s : State) :
    (countTruncated s).portP = s.portP :=
  by unfold countTruncated; split <;> simp_all
@[simp] theorem countTruncated_portA (s : State) :
    (countTruncated s).portA = s.portA :=
  by unfold countTruncated; split <;> simp_all
@[simp] theorem countTruncated_portX (s : State) :
    (countTruncated s).portX = s.portX :=
  by unfold countTruncated; split <;> simp_all
@[simp] theorem countTruncated_schedule (s : State) :
    (countTruncated s).schedule = s.schedule :=
  by unfold countTruncated; split <;> simp_all
@[simp] theorem countTruncated_converter (s : State) :
    (countTruncated s).converter = s.converter :=
  by unfold countTruncated; split <;> simp_all
@[simp] theorem countTruncated_host (s : State) :
    (countTruncated s).host = s.host :=
  by unfold countTruncated; split <;> simp_all

/-! `putCore` -/

@[simp] theorem putCore_params (data : List Byte) (s : State) :
    (putCore data s).params = s.params :=
  by unfold putCore; split <;> simp
@[simp] theorem putCore_ring (data : List Byte) (s : State) :
    (putCore data s).ring = memWriteRun s.params.capacity s.ring s.wcur (data.take (putAccepted s data.length)) :=
  by unfold putCore; split <;> simp
@[simp] theorem putCore_wcur (data : List Byte) (s : State) :
    (putCore data s).wcur = cursorAdd s s.wcur (putAccepted s data.length) :=
  by unfold putCore; split <;> simp
@[simp] theorem putCore_rcur (data : List Byte) (s : State) :
    (putCore data s).rcur = s.rcur :=
  by unfold putCore; split <;> simp
@[simp] theorem putCore_occ (data : List Byte) (s : State) :
    (putCore data s).occ = s.occ + putAccepted s data.length :=
  by unfold putCore; split <;> simp
@[simp] theorem putCore_bytesWritten (data : List Byte) (s : State) :
    (putCore data s).bytesWritten = counterAdd s s.bytesWritten (putAccepted s data.length) :=
  by unfold putCore; split <;> simp
@[simp] theorem putCore_bytesRead (data : List Byte) (s : State) :
    (putCore data s).bytesRead = s.bytesRead :=
  by unfold putCore; split <;> simp
@[simp] theorem putCore_ovwCount (data : List Byte) (s : State) :
    (putCore data s).ovwCount = if freeSpace s < data.length then counterAdd s s.ovwCount 1 else s.ovwCount :=
  by unfold putCore; split <;> simp
@[simp] theorem putCore_hen (data : List Byte) (s : State) :
    (putCore data s).hen = s.hen :=
  by unfold putCore; split <;> simp
@[simp] theorem putCore_inited (data : List Byte) (s : State) :
    (putCore data s).inited = s.inited :=
  by unfold putCore; split <;> simp
@[simp] theorem putCore_samples (data : List Byte) (s : State) :
    (putCore data s).samples = s.samples :=
  by unfold putCore; split <;> simp
@[simp] theorem putCore_drvState (data : List Byte) (s : State) :
    (putCore data s).drvState = s.drvState :=
  by unfold putCore; split <;> simp
@[simp] theorem putCore_act (data : List Byte) (s : State) :
    (putCore data s).act = s.act :=
  by unfold putCore; split <;> simp
@[simp] theorem putCore_eventCount (data : List Byte) (s : State) :
    (putCore data s).eventCount = s.eventCount :=
  by unfold putCore; split <;> simp
@[simp] theorem putCore_cfg (data : List Byte) (s : State) :
    (putCore data s).cfg = s.cfg :=
  by unfold putCore; split <;> simp
@[simp] theorem putCore_cfgErr (data : List Byte) (s : State) :
    (putCore data s).cfgErr = s.cfgErr :=
  by unfold putCore; split <;> simp
@[simp] theorem putCore_fault (data : List Byte) (s : State) :
    (putCore data s).fault = s.fault :=
  by unfold putCore; split <;> simp
@[simp] theorem putCore_getInFlight (data : List Byte) (s : State) :
    (putCore data s).getInFlight = s.getInFlight :=
  by unfold putCore; split <;> simp
@[simp] theorem putCore_response (data : List Byte) (s : State) :
    (putCore data s).response = s.response :=
  by unfold putCore; split <;> simp
@[simp] theorem putCore_events (data : List Byte) (s : State) :
    (putCore data s).events = if freeSpace s < data.length ∧ s.hen then s.events ++ [.ovw (counterAdd s s.ovwCount 1)] else s.events :=
  by by_cases h : freeSpace s < data.length <;> cases hh : s.hen <;> simp [putCore, h, hh]
@[simp] theorem putCore_answered (data : List Byte) (s : State) :
    (putCore data s).answered = s.answered :=
  by unfold putCore; split <;> simp
@[simp] theorem putCore_draws (data : List Byte) (s : State) :
    (putCore data s).draws = s.draws :=
  by unfold putCore; split <;> simp
@[simp] theorem putCore_portF (data : List Byte) (s : State) :
    (putCore data s).portF = s.portF :=
  by unfold putCore; split <;> simp
@[simp] theorem putCore_portP (data : List Byte) (s : State) :
    (putCore data s).portP = s.portP :=
  by unfold putCore; split <;> simp
@[simp] theorem putCore_portA (data : List Byte) (s : State) :
    (putCore data s).portA = s.portA :=
  by unfold putCore; split <;> simp
@[simp] theorem putCore_portX (data : List Byte) (s : State) :
    (putCore data s).portX = s.portX :=
  by unfold putCore; split <;> simp
@[simp] theorem putCore_schedule (data : List Byte) (s : State) :
    (putCore data s).schedule = s.schedule :=
  by unfold putCore; split <;> simp
@[simp] theorem putCore_converter (data : List Byte) (s : State) :
    (putCore data s).converter = s.converter :=
  by unfold putCore; split <;> simp
@[simp] theorem putCore_host (data : List Byte) (s : State) :
    (putCore data s).host = s.host :=
  by unfold putCore; split <;> simp

/-! `getRetire` -/

@[simp] theorem getRetire_params (r0 k : Nat) (s : State) : (getRetire r0 k s).params = s.params := rfl
@[simp] theorem getRetire_ring (r0 k : Nat) (s : State) : (getRetire r0 k s).ring = s.ring := rfl
@[simp] theorem getRetire_wcur (r0 k : Nat) (s : State) : (getRetire r0 k s).wcur = s.wcur := rfl
@[simp] theorem getRetire_rcur (r0 k : Nat) (s : State) : (getRetire r0 k s).rcur = cursorAdd s r0 k := rfl
@[simp] theorem getRetire_occ (r0 k : Nat) (s : State) : (getRetire r0 k s).occ = s.occ - k := rfl
@[simp] theorem getRetire_bytesWritten (r0 k : Nat) (s : State) :
    (getRetire r0 k s).bytesWritten = s.bytesWritten :=
  rfl
@[simp] theorem getRetire_bytesRead (r0 k : Nat) (s : State) :
    (getRetire r0 k s).bytesRead = counterAdd s s.bytesRead k :=
  rfl
@[simp] theorem getRetire_ovwCount (r0 k : Nat) (s : State) : (getRetire r0 k s).ovwCount = s.ovwCount := rfl
@[simp] theorem getRetire_hen (r0 k : Nat) (s : State) : (getRetire r0 k s).hen = s.hen := rfl
@[simp] theorem getRetire_inited (r0 k : Nat) (s : State) : (getRetire r0 k s).inited = s.inited := rfl
@[simp] theorem getRetire_samples (r0 k : Nat) (s : State) : (getRetire r0 k s).samples = s.samples := rfl
@[simp] theorem getRetire_drvState (r0 k : Nat) (s : State) : (getRetire r0 k s).drvState = s.drvState := rfl
@[simp] theorem getRetire_act (r0 k : Nat) (s : State) : (getRetire r0 k s).act = s.act := rfl
@[simp] theorem getRetire_eventCount (r0 k : Nat) (s : State) : (getRetire r0 k s).eventCount = s.eventCount := rfl
@[simp] theorem getRetire_cfg (r0 k : Nat) (s : State) : (getRetire r0 k s).cfg = s.cfg := rfl
@[simp] theorem getRetire_cfgErr (r0 k : Nat) (s : State) : (getRetire r0 k s).cfgErr = s.cfgErr := rfl
@[simp] theorem getRetire_fault (r0 k : Nat) (s : State) : (getRetire r0 k s).fault = s.fault := rfl
@[simp] theorem getRetire_getInFlight (r0 k : Nat) (s : State) : (getRetire r0 k s).getInFlight = s.getInFlight := rfl
@[simp] theorem getRetire_response (r0 k : Nat) (s : State) : (getRetire r0 k s).response = s.response := rfl
@[simp] theorem getRetire_events (r0 k : Nat) (s : State) : (getRetire r0 k s).events = s.events := rfl
@[simp] theorem getRetire_answered (r0 k : Nat) (s : State) : (getRetire r0 k s).answered = s.answered := rfl
@[simp] theorem getRetire_draws (r0 k : Nat) (s : State) : (getRetire r0 k s).draws = s.draws := rfl
@[simp] theorem getRetire_portF (r0 k : Nat) (s : State) : (getRetire r0 k s).portF = s.portF := rfl
@[simp] theorem getRetire_portP (r0 k : Nat) (s : State) : (getRetire r0 k s).portP = s.portP := rfl
@[simp] theorem getRetire_portA (r0 k : Nat) (s : State) : (getRetire r0 k s).portA = s.portA := rfl
@[simp] theorem getRetire_portX (r0 k : Nat) (s : State) : (getRetire r0 k s).portX = s.portX := rfl
@[simp] theorem getRetire_schedule (r0 k : Nat) (s : State) : (getRetire r0 k s).schedule = s.schedule := rfl
@[simp] theorem getRetire_converter (r0 k : Nat) (s : State) : (getRetire r0 k s).converter = s.converter := rfl
@[simp] theorem getRetire_host (r0 k : Nat) (s : State) : (getRetire r0 k s).host = s.host := rfl

/-! `getWhole` -/

@[simp] theorem getWhole_params (len : Nat) (s : State) : (getWhole len s).params = s.params := rfl
@[simp] theorem getWhole_ring (len : Nat) (s : State) : (getWhole len s).ring = s.ring := rfl
@[simp] theorem getWhole_wcur (len : Nat) (s : State) : (getWhole len s).wcur = s.wcur := rfl
@[simp] theorem getWhole_rcur (len : Nat) (s : State) :
    (getWhole len s).rcur = cursorAdd s s.rcur (getAvailable s len) :=
  rfl
@[simp] theorem getWhole_occ (len : Nat) (s : State) : (getWhole len s).occ = s.occ - getAvailable s len := rfl
@[simp] theorem getWhole_bytesWritten (len : Nat) (s : State) : (getWhole len s).bytesWritten = s.bytesWritten := rfl
@[simp] theorem getWhole_bytesRead (len : Nat) (s : State) :
    (getWhole len s).bytesRead = counterAdd s s.bytesRead (getAvailable s len) :=
  rfl
@[simp] theorem getWhole_ovwCount (len : Nat) (s : State) : (getWhole len s).ovwCount = s.ovwCount := rfl
@[simp] theorem getWhole_hen (len : Nat) (s : State) : (getWhole len s).hen = s.hen := rfl
@[simp] theorem getWhole_inited (len : Nat) (s : State) : (getWhole len s).inited = s.inited := rfl
@[simp] theorem getWhole_samples (len : Nat) (s : State) : (getWhole len s).samples = s.samples := rfl
@[simp] theorem getWhole_drvState (len : Nat) (s : State) : (getWhole len s).drvState = s.drvState := rfl
@[simp] theorem getWhole_act (len : Nat) (s : State) : (getWhole len s).act = s.act := rfl
@[simp] theorem getWhole_eventCount (len : Nat) (s : State) : (getWhole len s).eventCount = s.eventCount := rfl
@[simp] theorem getWhole_cfg (len : Nat) (s : State) : (getWhole len s).cfg = s.cfg := rfl
@[simp] theorem getWhole_cfgErr (len : Nat) (s : State) : (getWhole len s).cfgErr = s.cfgErr := rfl
@[simp] theorem getWhole_fault (len : Nat) (s : State) : (getWhole len s).fault = s.fault := rfl
@[simp] theorem getWhole_getInFlight (len : Nat) (s : State) : (getWhole len s).getInFlight = s.getInFlight := rfl
@[simp] theorem getWhole_response (len : Nat) (s : State) :
    (getWhole len s).response = some { status := .ok, value := BitVec.ofNat 32 (getAvailable s len), data := ringReadRun s s.rcur (getAvailable s len) } :=
  rfl
@[simp] theorem getWhole_events (len : Nat) (s : State) : (getWhole len s).events = s.events := rfl
@[simp] theorem getWhole_answered (len : Nat) (s : State) : (getWhole len s).answered = s.answered := rfl
@[simp] theorem getWhole_draws (len : Nat) (s : State) : (getWhole len s).draws = s.draws + getAvailable s len := rfl
@[simp] theorem getWhole_portF (len : Nat) (s : State) : (getWhole len s).portF = s.portF := rfl
@[simp] theorem getWhole_portP (len : Nat) (s : State) : (getWhole len s).portP = s.portP := rfl
@[simp] theorem getWhole_portA (len : Nat) (s : State) : (getWhole len s).portA = s.portA := rfl
@[simp] theorem getWhole_portX (len : Nat) (s : State) : (getWhole len s).portX = s.portX := rfl
@[simp] theorem getWhole_schedule (len : Nat) (s : State) : (getWhole len s).schedule = s.schedule := rfl
@[simp] theorem getWhole_converter (len : Nat) (s : State) : (getWhole len s).converter = s.converter := rfl
@[simp] theorem getWhole_host (len : Nat) (s : State) : (getWhole len s).host = s.host := rfl

/-! `getBegin` -/

@[simp] theorem getBegin_params (len : Nat) (s : State) : (getBegin len s).params = s.params := rfl
@[simp] theorem getBegin_ring (len : Nat) (s : State) : (getBegin len s).ring = s.ring := rfl
@[simp] theorem getBegin_wcur (len : Nat) (s : State) : (getBegin len s).wcur = s.wcur := rfl
@[simp] theorem getBegin_rcur (len : Nat) (s : State) : (getBegin len s).rcur = s.rcur := rfl
@[simp] theorem getBegin_occ (len : Nat) (s : State) : (getBegin len s).occ = s.occ := rfl
@[simp] theorem getBegin_bytesWritten (len : Nat) (s : State) : (getBegin len s).bytesWritten = s.bytesWritten := rfl
@[simp] theorem getBegin_bytesRead (len : Nat) (s : State) : (getBegin len s).bytesRead = s.bytesRead := rfl
@[simp] theorem getBegin_ovwCount (len : Nat) (s : State) : (getBegin len s).ovwCount = s.ovwCount := rfl
@[simp] theorem getBegin_hen (len : Nat) (s : State) : (getBegin len s).hen = s.hen := rfl
@[simp] theorem getBegin_inited (len : Nat) (s : State) : (getBegin len s).inited = s.inited := rfl
@[simp] theorem getBegin_samples (len : Nat) (s : State) : (getBegin len s).samples = s.samples := rfl
@[simp] theorem getBegin_drvState (len : Nat) (s : State) : (getBegin len s).drvState = s.drvState := rfl
@[simp] theorem getBegin_act (len : Nat) (s : State) : (getBegin len s).act = s.act := rfl
@[simp] theorem getBegin_eventCount (len : Nat) (s : State) : (getBegin len s).eventCount = s.eventCount := rfl
@[simp] theorem getBegin_cfg (len : Nat) (s : State) : (getBegin len s).cfg = s.cfg := rfl
@[simp] theorem getBegin_cfgErr (len : Nat) (s : State) : (getBegin len s).cfgErr = s.cfgErr := rfl
@[simp] theorem getBegin_fault (len : Nat) (s : State) : (getBegin len s).fault = s.fault := rfl
@[simp] theorem getBegin_getInFlight (len : Nat) (s : State) :
    (getBegin len s).getInFlight = some { k := getAvailable s len, r0 := s.rcur, out := none } :=
  rfl
@[simp] theorem getBegin_response (len : Nat) (s : State) : (getBegin len s).response = none := rfl
@[simp] theorem getBegin_events (len : Nat) (s : State) : (getBegin len s).events = s.events := rfl
@[simp] theorem getBegin_answered (len : Nat) (s : State) : (getBegin len s).answered = s.answered := rfl
@[simp] theorem getBegin_draws (len : Nat) (s : State) : (getBegin len s).draws = s.draws := rfl
@[simp] theorem getBegin_portF (len : Nat) (s : State) : (getBegin len s).portF = s.portF := rfl
@[simp] theorem getBegin_portP (len : Nat) (s : State) : (getBegin len s).portP = s.portP := rfl
@[simp] theorem getBegin_portA (len : Nat) (s : State) : (getBegin len s).portA = s.portA := rfl
@[simp] theorem getBegin_portX (len : Nat) (s : State) : (getBegin len s).portX = s.portX := rfl
@[simp] theorem getBegin_schedule (len : Nat) (s : State) : (getBegin len s).schedule = s.schedule := rfl
@[simp] theorem getBegin_converter (len : Nat) (s : State) : (getBegin len s).converter = s.converter := rfl
@[simp] theorem getBegin_host (len : Nat) (s : State) : (getBegin len s).host = s.host := rfl

/-! `getFetch` -/

@[simp] theorem getFetch_params (g : GetProgress) (s : State) : (getFetch g s).params = s.params := rfl
@[simp] theorem getFetch_ring (g : GetProgress) (s : State) : (getFetch g s).ring = s.ring := rfl
@[simp] theorem getFetch_wcur (g : GetProgress) (s : State) : (getFetch g s).wcur = s.wcur := rfl
@[simp] theorem getFetch_rcur (g : GetProgress) (s : State) : (getFetch g s).rcur = s.rcur := rfl
@[simp] theorem getFetch_occ (g : GetProgress) (s : State) : (getFetch g s).occ = s.occ := rfl
@[simp] theorem getFetch_bytesWritten (g : GetProgress) (s : State) :
    (getFetch g s).bytesWritten = s.bytesWritten :=
  rfl
@[simp] theorem getFetch_bytesRead (g : GetProgress) (s : State) : (getFetch g s).bytesRead = s.bytesRead := rfl
@[simp] theorem getFetch_ovwCount (g : GetProgress) (s : State) : (getFetch g s).ovwCount = s.ovwCount := rfl
@[simp] theorem getFetch_hen (g : GetProgress) (s : State) : (getFetch g s).hen = s.hen := rfl
@[simp] theorem getFetch_inited (g : GetProgress) (s : State) : (getFetch g s).inited = s.inited := rfl
@[simp] theorem getFetch_samples (g : GetProgress) (s : State) : (getFetch g s).samples = s.samples := rfl
@[simp] theorem getFetch_drvState (g : GetProgress) (s : State) : (getFetch g s).drvState = s.drvState := rfl
@[simp] theorem getFetch_act (g : GetProgress) (s : State) : (getFetch g s).act = s.act := rfl
@[simp] theorem getFetch_eventCount (g : GetProgress) (s : State) : (getFetch g s).eventCount = s.eventCount := rfl
@[simp] theorem getFetch_cfg (g : GetProgress) (s : State) : (getFetch g s).cfg = s.cfg := rfl
@[simp] theorem getFetch_cfgErr (g : GetProgress) (s : State) : (getFetch g s).cfgErr = s.cfgErr := rfl
@[simp] theorem getFetch_fault (g : GetProgress) (s : State) : (getFetch g s).fault = s.fault := rfl
@[simp] theorem getFetch_getInFlight (g : GetProgress) (s : State) :
    (getFetch g s).getInFlight = some { g with out := some (ringReadRun s g.r0 g.k) } :=
  rfl
@[simp] theorem getFetch_response (g : GetProgress) (s : State) : (getFetch g s).response = none := rfl
@[simp] theorem getFetch_events (g : GetProgress) (s : State) : (getFetch g s).events = s.events := rfl
@[simp] theorem getFetch_answered (g : GetProgress) (s : State) : (getFetch g s).answered = s.answered := rfl
@[simp] theorem getFetch_draws (g : GetProgress) (s : State) : (getFetch g s).draws = s.draws + g.k := rfl
@[simp] theorem getFetch_portF (g : GetProgress) (s : State) : (getFetch g s).portF = s.portF := rfl
@[simp] theorem getFetch_portP (g : GetProgress) (s : State) : (getFetch g s).portP = s.portP := rfl
@[simp] theorem getFetch_portA (g : GetProgress) (s : State) : (getFetch g s).portA = s.portA := rfl
@[simp] theorem getFetch_portX (g : GetProgress) (s : State) : (getFetch g s).portX = s.portX := rfl
@[simp] theorem getFetch_schedule (g : GetProgress) (s : State) : (getFetch g s).schedule = s.schedule := rfl
@[simp] theorem getFetch_converter (g : GetProgress) (s : State) : (getFetch g s).converter = s.converter := rfl
@[simp] theorem getFetch_host (g : GetProgress) (s : State) : (getFetch g s).host = s.host := rfl

/-! `getFinish` -/

@[simp] theorem getFinish_params (g : GetProgress) (out : List Byte) (s : State) :
    (getFinish g out s).params = s.params :=
  rfl
@[simp] theorem getFinish_ring (g : GetProgress) (out : List Byte) (s : State) :
    (getFinish g out s).ring = s.ring :=
  rfl
@[simp] theorem getFinish_wcur (g : GetProgress) (out : List Byte) (s : State) :
    (getFinish g out s).wcur = s.wcur :=
  rfl
@[simp] theorem getFinish_rcur (g : GetProgress) (out : List Byte) (s : State) :
    (getFinish g out s).rcur = cursorAdd s g.r0 g.k :=
  rfl
@[simp] theorem getFinish_occ (g : GetProgress) (out : List Byte) (s : State) :
    (getFinish g out s).occ = s.occ - g.k :=
  rfl
@[simp] theorem getFinish_bytesWritten (g : GetProgress) (out : List Byte) (s : State) :
    (getFinish g out s).bytesWritten = s.bytesWritten :=
  rfl
@[simp] theorem getFinish_bytesRead (g : GetProgress) (out : List Byte) (s : State) :
    (getFinish g out s).bytesRead = counterAdd s s.bytesRead g.k :=
  rfl
@[simp] theorem getFinish_ovwCount (g : GetProgress) (out : List Byte) (s : State) :
    (getFinish g out s).ovwCount = s.ovwCount :=
  rfl
@[simp] theorem getFinish_hen (g : GetProgress) (out : List Byte) (s : State) : (getFinish g out s).hen = s.hen := rfl
@[simp] theorem getFinish_inited (g : GetProgress) (out : List Byte) (s : State) :
    (getFinish g out s).inited = s.inited :=
  rfl
@[simp] theorem getFinish_samples (g : GetProgress) (out : List Byte) (s : State) :
    (getFinish g out s).samples = s.samples :=
  rfl
@[simp] theorem getFinish_drvState (g : GetProgress) (out : List Byte) (s : State) :
    (getFinish g out s).drvState = s.drvState :=
  rfl
@[simp] theorem getFinish_act (g : GetProgress) (out : List Byte) (s : State) : (getFinish g out s).act = s.act := rfl
@[simp] theorem getFinish_eventCount (g : GetProgress) (out : List Byte) (s : State) :
    (getFinish g out s).eventCount = s.eventCount :=
  rfl
@[simp] theorem getFinish_cfg (g : GetProgress) (out : List Byte) (s : State) : (getFinish g out s).cfg = s.cfg := rfl
@[simp] theorem getFinish_cfgErr (g : GetProgress) (out : List Byte) (s : State) :
    (getFinish g out s).cfgErr = s.cfgErr :=
  rfl
@[simp] theorem getFinish_fault (g : GetProgress) (out : List Byte) (s : State) :
    (getFinish g out s).fault = s.fault :=
  rfl
@[simp] theorem getFinish_getInFlight (g : GetProgress) (out : List Byte) (s : State) :
    (getFinish g out s).getInFlight = none :=
  rfl
@[simp] theorem getFinish_response (g : GetProgress) (out : List Byte) (s : State) :
    (getFinish g out s).response = some { status := .ok, value := BitVec.ofNat 32 g.k, data := out } :=
  rfl
@[simp] theorem getFinish_events (g : GetProgress) (out : List Byte) (s : State) :
    (getFinish g out s).events = s.events :=
  rfl
@[simp] theorem getFinish_answered (g : GetProgress) (out : List Byte) (s : State) :
    (getFinish g out s).answered = s.answered :=
  rfl
@[simp] theorem getFinish_draws (g : GetProgress) (out : List Byte) (s : State) :
    (getFinish g out s).draws = s.draws :=
  rfl
@[simp] theorem getFinish_portF (g : GetProgress) (out : List Byte) (s : State) :
    (getFinish g out s).portF = s.portF :=
  rfl
@[simp] theorem getFinish_portP (g : GetProgress) (out : List Byte) (s : State) :
    (getFinish g out s).portP = s.portP :=
  rfl
@[simp] theorem getFinish_portA (g : GetProgress) (out : List Byte) (s : State) :
    (getFinish g out s).portA = s.portA :=
  rfl
@[simp] theorem getFinish_portX (g : GetProgress) (out : List Byte) (s : State) :
    (getFinish g out s).portX = s.portX :=
  rfl
@[simp] theorem getFinish_schedule (g : GetProgress) (out : List Byte) (s : State) :
    (getFinish g out s).schedule = s.schedule :=
  rfl
@[simp] theorem getFinish_converter (g : GetProgress) (out : List Byte) (s : State) :
    (getFinish g out s).converter = s.converter :=
  rfl
@[simp] theorem getFinish_host (g : GetProgress) (out : List Byte) (s : State) :
    (getFinish g out s).host = s.host :=
  rfl

/-! `setPortQueue` and `portQueue` -/

@[simp] theorem setPortQueue_params (c : Ctx) (q : List Packet) (s : State) :
    (setPortQueue c q s).params = s.params := by cases c <;> rfl
@[simp] theorem setPortQueue_ring (c : Ctx) (q : List Packet) (s : State) :
    (setPortQueue c q s).ring = s.ring := by cases c <;> rfl
@[simp] theorem setPortQueue_wcur (c : Ctx) (q : List Packet) (s : State) :
    (setPortQueue c q s).wcur = s.wcur := by cases c <;> rfl
@[simp] theorem setPortQueue_rcur (c : Ctx) (q : List Packet) (s : State) :
    (setPortQueue c q s).rcur = s.rcur := by cases c <;> rfl
@[simp] theorem setPortQueue_occ (c : Ctx) (q : List Packet) (s : State) :
    (setPortQueue c q s).occ = s.occ := by cases c <;> rfl
@[simp] theorem setPortQueue_bytesWritten (c : Ctx) (q : List Packet) (s : State) :
    (setPortQueue c q s).bytesWritten = s.bytesWritten := by cases c <;> rfl
@[simp] theorem setPortQueue_bytesRead (c : Ctx) (q : List Packet) (s : State) :
    (setPortQueue c q s).bytesRead = s.bytesRead := by cases c <;> rfl
@[simp] theorem setPortQueue_ovwCount (c : Ctx) (q : List Packet) (s : State) :
    (setPortQueue c q s).ovwCount = s.ovwCount := by cases c <;> rfl
@[simp] theorem setPortQueue_hen (c : Ctx) (q : List Packet) (s : State) :
    (setPortQueue c q s).hen = s.hen := by cases c <;> rfl
@[simp] theorem setPortQueue_inited (c : Ctx) (q : List Packet) (s : State) :
    (setPortQueue c q s).inited = s.inited := by cases c <;> rfl
@[simp] theorem setPortQueue_samples (c : Ctx) (q : List Packet) (s : State) :
    (setPortQueue c q s).samples = s.samples := by cases c <;> rfl
@[simp] theorem setPortQueue_drvState (c : Ctx) (q : List Packet) (s : State) :
    (setPortQueue c q s).drvState = s.drvState := by cases c <;> rfl
@[simp] theorem setPortQueue_act (c : Ctx) (q : List Packet) (s : State) :
    (setPortQueue c q s).act = s.act := by cases c <;> rfl
@[simp] theorem setPortQueue_eventCount (c : Ctx) (q : List Packet) (s : State) :
    (setPortQueue c q s).eventCount = s.eventCount := by cases c <;> rfl
@[simp] theorem setPortQueue_cfg (c : Ctx) (q : List Packet) (s : State) :
    (setPortQueue c q s).cfg = s.cfg := by cases c <;> rfl
@[simp] theorem setPortQueue_cfgErr (c : Ctx) (q : List Packet) (s : State) :
    (setPortQueue c q s).cfgErr = s.cfgErr := by cases c <;> rfl
@[simp] theorem setPortQueue_fault (c : Ctx) (q : List Packet) (s : State) :
    (setPortQueue c q s).fault = s.fault := by cases c <;> rfl
@[simp] theorem setPortQueue_getInFlight (c : Ctx) (q : List Packet) (s : State) :
    (setPortQueue c q s).getInFlight = s.getInFlight := by cases c <;> rfl
@[simp] theorem setPortQueue_response (c : Ctx) (q : List Packet) (s : State) :
    (setPortQueue c q s).response = s.response := by cases c <;> rfl
@[simp] theorem setPortQueue_events (c : Ctx) (q : List Packet) (s : State) :
    (setPortQueue c q s).events = s.events := by cases c <;> rfl
@[simp] theorem setPortQueue_answered (c : Ctx) (q : List Packet) (s : State) :
    (setPortQueue c q s).answered = s.answered := by cases c <;> rfl
@[simp] theorem setPortQueue_draws (c : Ctx) (q : List Packet) (s : State) :
    (setPortQueue c q s).draws = s.draws := by cases c <;> rfl
@[simp] theorem setPortQueue_schedule (c : Ctx) (q : List Packet) (s : State) :
    (setPortQueue c q s).schedule = s.schedule := by cases c <;> rfl
@[simp] theorem setPortQueue_converter (c : Ctx) (q : List Packet) (s : State) :
    (setPortQueue c q s).converter = s.converter := by cases c <;> rfl
@[simp] theorem setPortQueue_host (c : Ctx) (q : List Packet) (s : State) :
    (setPortQueue c q s).host = s.host := by cases c <;> rfl

@[simp] theorem portQueue_setPortQueue_same (c : Ctx) (q : List Packet) (s : State) :
    portQueue c (setPortQueue c q s) = q := by cases c <;> rfl

theorem portQueue_setPortQueue_other {c d : Ctx} (h : d ≠ c) (q : List Packet) (s : State) :
    portQueue d (setPortQueue c q s) = portQueue d s := by
  cases c <;> cases d <;> first | rfl | exact absurd rfl h

@[simp] theorem setPortQueue_portQueue (c : Ctx) (s : State) : setPortQueue c (portQueue c s) s = s := by
  cases c <;> rfl

end Sys2Proof.Machine
end

