-- ==== Sys2Proof/Laws/Exec.lean ====
section
/-! SUPPORT. What executing a command can do, said once: `exec_effect`, which later proofs take apart instead of unfolding the
meanings; and the spec lemmas of the put core and of the reads. -/

namespace Sys2Proof.Machine

/-- The effects of the commands: what `t` is when `exec i s` answers it. -/
inductive ExecEffect (i : Instr) (s : State) : State → Prop
  /-- a read, or a command the state machine has no transition for: only the response changes -/
  | answers (st : Status) (v : Word) (hst : st = .ok ∨ st = .notReady ∨ st = .noEffect)
      (hi : i.opcode ∈ [0x01#8, 0x13#8, 0x14#8, 0x15#8, 0x16#8, 0x17#8, 0x18#8, 0x20#8, 0x21#8, 0x25#8, 0x26#8, 0x27#8]) :
      ExecEffect i s (respond st v [] s)
  /-- a command that sets a fault bit -/
  | fails (st : Status) (hst : st = .badOperand ∨ st = .outOfOrder)
      (hi : i.opcode ∈ [0x10#8, 0x11#8, 0x12#8, 0x23#8, 0x28#8]) : ExecEffect i s (reportError st s)
  | inits (hen : Bool) (hi : i = .rbInit hen) (h : s.inited = false) :
      ExecEffect i s (respond .ok 0 []
        { s with
          wcur := 0, rcur := 0, occ := 0, bytesWritten := 0, bytesRead := 0, ovwCount := 0
          hen := hen, inited := true })
  | puts (data : List Byte) (hi : i = .rbPut data) (h : s.inited = true) :
      ExecEffect i s (respond .ok (BitVec.ofNat 32 (putAccepted s data.length)) [] (putCore data s))
  | gets (len : BitVec 16) (hi : i = .rbGet len) (h : s.inited = true) (ha : s.params.getAtomic = true) :
      ExecEffect i s (getWhole len.toNat s)
  | beginsGet (len : BitVec 16) (hi : i = .rbGet len) (h : s.inited = true) (ha : s.params.getAtomic = false) :
      ExecEffect i s (getBegin len.toNat s)
  | configures (hi : i = .adcConfig 0) (h : s.cfg = .unconfigured) :
      ExecEffect i s (respond .ok 0 [] { s with cfg := .configured, act := 0 })
  | failsConfig (err : BitVec 8) (hi : i = .adcConfig err) (he : err ≠ 0) (h : s.cfg = .unconfigured) :
      ExecEffect i s (respond .cfgError (err.zeroExtend 32) [] { s with cfg := .failed, cfgErr := err })
  | becomesReady (hi : i = .adcEvtReady) (h : s.drvState = .notReady) (hc : s.cfg = .configured) :
      ExecEffect i s (respond .ok 0 [] { s with drvState := .ready })
  | toggles (hi : i = .adcEvtBufreq) :
      ExecEffect i s (respond .ok ((s.act ^^^ 1).zeroExtend 32) [] { s with act := s.act ^^^ 1 })
  | converts (idx : BitVec 1) (n : BitVec 8) (hi : i = .adcEvtDone idx n) (h : s.inited = true)
      (hn : n.toNat ≤ s.params.sbLen) :
      ExecEffect i s (respond .ok (BitVec.ofNat 32 (putAccepted s (2 * n.toNat))) []
        { putCore (bufferBytes s idx n.toNat) (advanceDraws n.toNat s) with
          eventCount := counterAdd s s.eventCount 1 })
  | finishes (hi : i = .adcEvtFin) : ExecEffect i s (respond .ok 0 [] (emit .infoFin s))
  | starts (hi : i = .adcStart) (h : s.drvState = .ready ∨ s.drvState = .stopped) :
      ExecEffect i s (respond .ok 0 [] { s with drvState := .sampling })
  | stops (hi : i = .adcStop) (h : s.drvState = .sampling) :
      ExecEffect i s (respond .ok 0 [] { s with drvState := .stopped })
  | writesSample (idx : BitVec 1) (k : BitVec 7) (v : Sample) (hi : i = .adcSwr idx k v)
      (hk : k.toNat < s.params.sbLen) :
      ExecEffect i s (respond .ok 0 []
        { s with samples := memWrite s.samples (sampleAddress idx k.toNat) v })

/-- Everything a command can do. -/
theorem exec_effect {i : Instr} {s t : State} (h : exec i s = .next t) : ExecEffect i s t := by
  cases i with
  | sysStatus => cases h; exact .answers _ _ (.inl rfl) (by simp [Instr.opcode])
  | rbInit hen =>
    simp only [exec, execRbInit] at h
    split at h <;> cases h
    · exact .fails _ (.inr rfl) (by simp [Instr.opcode])
    · exact .inits hen rfl (by simpa using ‹¬s.inited = true›)
  | rbPut data =>
    simp only [exec, execRbPut] at h
    split at h <;> cases h
    · exact .puts data rfl ‹_›
    · exact .fails _ (.inr rfl) (by simp [Instr.opcode])
  | rbGet len =>
    simp only [exec, execRbGet] at h
    split at h
    · split at h <;> cases h
      · exact .gets len rfl ‹_› ‹_›
      · exact .beginsGet len rfl ‹_› (by simpa using ‹¬s.params.getAtomic = true›)
    · cases h; exact .fails _ (.inr rfl) (by simp [Instr.opcode])
  | rbOcc => cases h; exact .answers _ _ (.inl rfl) (by simp [Instr.opcode])
  | rbWcur => cases h; exact .answers _ _ (.inl rfl) (by simp [Instr.opcode])
  | rbRcur => cases h; exact .answers _ _ (.inl rfl) (by simp [Instr.opcode])
  | rbTotrd => cases h; exact .answers _ _ (.inl rfl) (by simp [Instr.opcode])
  | rbTotwr => cases h; exact .answers _ _ (.inl rfl) (by simp [Instr.opcode])
  | rbOvwc => cases h; exact .answers _ _ (.inl rfl) (by simp [Instr.opcode])
  | adcConfig err =>
    simp only [exec, execAdcConfig] at h
    split at h
    · split at h <;> cases h
      · subst_vars; exact .configures rfl ‹_›
      · exact .failsConfig err rfl ‹_› ‹_›
    · cases h; exact .answers _ _ (.inr (.inr rfl)) (by simp [Instr.opcode])
  | adcEvtReady =>
    simp only [exec, execAdcEvtReady] at h
    split at h <;> cases h
    · rename_i hc; exact .becomesReady rfl hc.1 hc.2
    · exact .answers _ _ (.inr (.inr rfl)) (by simp [Instr.opcode])
  | adcEvtBufreq => cases h; exact .toggles rfl
  | adcEvtDone idx n =>
    simp only [exec, execAdcEvtDone] at h
    split at h
    · split at h <;> cases h
      · exact .converts idx n rfl ‹_› (by simpa [countLegal] using ‹countLegal s n = true›)
      · exact .fails _ (.inl rfl) (by simp [Instr.opcode])
    · cases h; exact .fails _ (.inr rfl) (by simp [Instr.opcode])
  | adcEvtFin => cases h; exact .finishes rfl
  | adcStart =>
    simp only [exec, execAdcStart] at h
    split at h <;> cases h
    · exact .answers _ _ (.inr (.inl rfl)) (by simp [Instr.opcode])
    · exact .starts rfl (.inl ‹_›)
    · exact .starts rfl (.inr ‹_›)
    · exact .answers _ _ (.inr (.inr rfl)) (by simp [Instr.opcode])
  | adcStop =>
    simp only [exec, execAdcStop] at h
    split at h <;> cases h
    · exact .stops rfl ‹_›
    · exact .answers _ _ (.inr (.inr rfl)) (by simp [Instr.opcode])
  | adcBytes => cases h; exact .answers _ _ (.inl rfl) (by simp [Instr.opcode])
  | adcSwr idx k v =>
    simp only [exec, execAdcSwr] at h
    split at h <;> cases h
    · exact .writesSample idx k v rfl (by simpa [entryLegal] using ‹entryLegal s k = true›)
    · exact .fails _ (.inl rfl) (by simp [Instr.opcode])

/-! ### The put core -/

theorem putAccepted_le_free (s : State) (len : Nat) : putAccepted s len ≤ freeSpace s := Nat.min_le_right _ _

theorem putAccepted_le_capacity (s : State) (len : Nat) : putAccepted s len ≤ s.params.capacity :=
  Nat.le_trans (putAccepted_le_free s len) (Nat.sub_le _ _)

theorem length_take_putAccepted (s : State) (data : List Byte) :
    (data.take (putAccepted s data.length)).length = putAccepted s data.length := by
  simp [putAccepted]

/-- The cells the put core writes, and that it writes no other (R123). -/
theorem putCore_storesPrefix (data : List Byte) (s : State) :
    StoresPrefix s data (putAccepted s data.length) (putCore data s).ring := by
  have hk := putAccepted_le_capacity s data.length
  refine ⟨rfl, fun i hi => ?_, fun a ha => ?_⟩
  · rw [putCore_ring, memRead_memWriteRun_at _ _ _ _ (by rwa [length_take_putAccepted])
      (by rwa [length_take_putAccepted])]
    simp [hi]
  · rw [putCore_ring, memRead_memWriteRun_other]
    rwa [length_take_putAccepted]

/-! ### Reads -/

@[simp] theorem length_ringReadRun (s : State) (a k : Nat) : (ringReadRun s a k).length = k := by
  simp [ringReadRun]

/-- A written cell is read as it is, whatever the free values are. -/
theorem ringRead_eq_of_memRead {s : State} {a i : Nat} {b : Byte}
    (h : memRead s.ring ((a + i) % s.params.capacity) = some b) : ringRead s a i = b := by
  simp [ringRead, h]

theorem getElem?_ringReadRun {s : State} {a k i : Nat} {b : Byte} (hi : i < k)
    (h : memRead s.ring ((a + i) % s.params.capacity) = some b) : (ringReadRun s a k)[i]? = some b := by
  simp [ringReadRun, hi, ringRead_eq_of_memRead h]

/-- A written sample is read as it is, whatever the free values are. -/
theorem sampleRead_eq_of_memRead {s : State} {idx : BitVec 1} {j : Nat} {v : Sample}
    (h : memRead s.samples (sampleAddress idx j) = some v) : sampleRead s idx j = v := by
  simp [sampleRead, h]

@[simp] theorem length_sampleBytes (v : Sample) : (sampleBytes v).length = 2 := rfl

@[simp] theorem length_bufferBytes (s : State) (idx : BitVec 1) (n : Nat) : (bufferBytes s idx n).length = 2 * n := by
  induction n with
  | zero => rfl
  | succ n ih => simp_all [bufferBytes, List.range_succ]; omega

theorem bufferBytes_succ (s : State) (idx : BitVec 1) (n : Nat) :
    bufferBytes s idx (n + 1) = bufferBytes s idx n ++ sampleBytes (sampleRead s idx n) := by
  simp [bufferBytes, List.range_succ]

/-- Sample `j` becomes payload bytes 2j (its low byte) and 2j + 1 (its high byte) (R64). -/
theorem getElem?_bufferBytes (s : State) (idx : BitVec 1) {n j : Nat} (hj : j < n) :
    (bufferBytes s idx n)[2 * j]? = some ((sampleRead s idx j).extractLsb' 0 8) ∧
      (bufferBytes s idx n)[2 * j + 1]? = some ((sampleRead s idx j).extractLsb' 8 8) := by
  induction n with
  | zero => omega
  | succ n ih =>
    rw [bufferBytes_succ]
    by_cases h : j < n
    · have h1 : 2 * j < (bufferBytes s idx n).length := by simp; omega
      have h2 : 2 * j + 1 < (bufferBytes s idx n).length := by simp; omega
      rw [List.getElem?_append_left h1, List.getElem?_append_left h2]
      exact ih h
    · have : j = n := by omega
      subst this
      have hl := length_bufferBytes s idx j
      rw [List.getElem?_append_right (by omega), List.getElem?_append_right (by omega), hl]
      simp [sampleBytes]

/-- Two samples of the store share a key only if they are the same cell (R60). -/
theorem sampleAddress_inj {idx idx' : BitVec 1} {k k' : BitVec 7}
    (h : sampleAddress idx k.toNat = sampleAddress idx' k'.toNat) : idx = idx' ∧ k = k' := by
  have h1 := idx.isLt
  have h2 := idx'.isLt
  have h3 := k.isLt
  have h4 := k'.isLt
  simp only [sampleAddress] at h
  constructor <;> apply BitVec.eq_of_toNat_eq <;> omega

end Sys2Proof.Machine
end

