-- ==== Sys2Proof/Laws/Step.lean ====
section
/-! SUPPORT. What a step can do, said once: `step_effect`. The environment agents change nothing of the block
(`AgentsOnly`), and the block's part of a step is one command, one step of a split RB.GET or one illegal command. -/

namespace Sys2Proof.Machine

/-- `t` is `s` but for what belongs to the environment: ports, schedule, converter and host. -/
def AgentsOnly (s t : State) : Prop :=
  ∃ f p a x moves conv host,
    t = { s with
      portF := f, portP := p, portA := a, portX := x, schedule := moves, converter := conv, host := host }

theorem AgentsOnly.refl (s : State) : AgentsOnly s s := ⟨_, _, _, _, _, _, _, rfl⟩

theorem AgentsOnly.trans {s t u : State} (h : AgentsOnly s t) (h' : AgentsOnly t u) : AgentsOnly s u := by
  obtain ⟨_, _, _, _, _, _, _, rfl⟩ := h
  obtain ⟨_, _, _, _, _, _, _, rfl⟩ := h'
  exact ⟨_, _, _, _, _, _, _, rfl⟩

theorem agentsOnly_setPortQueue (c : Ctx) (q : List Packet) (s : State) : AgentsOnly s (setPortQueue c q s) := by
  cases c <;> exact ⟨_, _, _, _, _, _, _, rfl⟩

theorem agentsOnly_present (c : Ctx) (p : Packet) (s : State) : AgentsOnly s (present c p s) :=
  agentsOnly_setPortQueue _ _ _

theorem agentsOnly_issue (src : Source) (i : Instr) (s : State) : AgentsOnly s (issue src i s) :=
  agentsOnly_present _ _ _

/-- Issuing a command after a change of the converter or of the host. -/
theorem AgentsOnly.issue {s t : State} (h : AgentsOnly s t) (src : Source) (i : Instr) :
    AgentsOnly s (issue src i t) := h.trans (agentsOnly_issue _ _ _)

theorem agentsOnly_converter (conv : Converter) (s : State) : AgentsOnly s { s with converter := conv } :=
  ⟨_, _, _, _, _, _, _, rfl⟩

theorem agentsOnly_host (host : HostLoop) (s : State) : AgentsOnly s { s with host := host } :=
  ⟨_, _, _, _, _, _, _, rfl⟩

theorem agentsOnly_schedule (moves : List Move) (s : State) : AgentsOnly s { s with schedule := moves } :=
  ⟨_, _, _, _, _, _, _, rfl⟩

/-! ### The converter -/

theorem agentsOnly_converterDriverReady (s : State) : AgentsOnly s (converterDriverReady s) := by
  unfold converterDriverReady
  split
  · exact (agentsOnly_converter _ _).issue _ _
  · exact .refl _

theorem agentsOnly_converterBegin (b : BitVec 1) (s : State) : AgentsOnly s (converterBegin b s) :=
  (agentsOnly_converter _ _).issue _ _

theorem agentsOnly_converterStartBuffer (s : State) : AgentsOnly s (converterStartBuffer s) := by
  unfold converterStartBuffer
  repeat' split
  · exact agentsOnly_converterBegin _ _
  all_goals exact .refl _

theorem agentsOnly_converterSample (v : Sample) (s : State) : AgentsOnly s (converterSample v s) := by
  unfold converterSample
  split
  · split
    · exact (agentsOnly_converter _ _).issue _ _
    · exact .refl _
  · exact .refl _

theorem agentsOnly_converterLink (s : State) : AgentsOnly s (converterLink s) := by
  unfold converterLink
  repeat' split
  · exact agentsOnly_converterBegin _ _
  · exact (agentsOnly_converter _ _).issue _ _
  · exact agentsOnly_converter _ _

theorem agentsOnly_converterEndOfBatch (s : State) : AgentsOnly s (converterEndOfBatch s) := by
  unfold converterEndOfBatch
  split
  · split
    · exact (agentsOnly_issue _ _ _).trans (agentsOnly_converterLink _)
    · exact .refl _
  · exact .refl _

/-! ### The host -/

theorem agentsOnly_hostIssue (p : HostPhase) (i : Instr) (s : State) : AgentsOnly s (hostIssue p i s) :=
  (agentsOnly_host _ _).issue _ _

theorem agentsOnly_hostTimerTick (s : State) : AgentsOnly s (hostTimerTick s) := by
  unfold hostTimerTick
  split
  · exact agentsOnly_host _ _
  · exact .refl _

theorem agentsOnly_hostStop (s : State) : AgentsOnly s (hostStop s) :=
  (agentsOnly_host _ _).trans (agentsOnly_hostIssue _ _ _)

theorem agentsOnly_hostHandle (e : HostEvent) (s : State) : AgentsOnly s (hostHandle e s) := by
  unfold hostHandle
  split
  · exact agentsOnly_hostIssue _ _ _
  · exact .refl _
  · exact .refl _
  · exact agentsOnly_hostStop _
  · exact .refl _
  · exact (agentsOnly_host _ _).trans (agentsOnly_hostIssue _ _ _)

theorem agentsOnly_hostTurn (sendOk : Bool) (s : State) : AgentsOnly s (hostTurn sendOk s) := by
  unfold hostTurn
  split
  · split
    · exact (agentsOnly_host _ _).trans (agentsOnly_hostHandle _ _)
    · split
      · exact agentsOnly_hostIssue _ _ _
      · exact .refl _
  · exact .refl _

theorem agentsOnly_hostSessionBegins (s : State) : AgentsOnly s (hostSessionBegins s) := by
  unfold hostSessionBegins
  split
  · exact (agentsOnly_host _ _).trans (agentsOnly_hostIssue _ _ _)
  · exact agentsOnly_host _ _

theorem agentsOnly_hostEmitTelemetry (t : Telemetry) (s : State) : AgentsOnly s (hostEmitTelemetry t s) := by
  unfold hostEmitTelemetry
  split
  · exact (agentsOnly_host _ _).trans (agentsOnly_hostStop _)
  · exact agentsOnly_host _ _

theorem agentsOnly_hostReceiveTelemetry (got : List Word) (v : Word) (s : State) :
    AgentsOnly s (hostReceiveTelemetry got v s) := by
  unfold hostReceiveTelemetry
  split
  all_goals first | exact agentsOnly_hostIssue _ _ _ | exact agentsOnly_hostEmitTelemetry _ _

theorem agentsOnly_hostReceive (r : Response) (s : State) : AgentsOnly s (hostReceive r s) := by
  unfold hostReceive
  split
  · exact .refl _
  · unfold hostReceiveStart
    split
    · exact agentsOnly_hostSessionBegins _
    · exact agentsOnly_host _ _
  · exact agentsOnly_host _ _
  · unfold hostReceiveChunk
    repeat' split
    all_goals exact agentsOnly_host _ _
  · exact agentsOnly_hostReceiveTelemetry _ _ _
  · exact agentsOnly_host _ _

theorem agentsOnly_hostReportConfigError (r : Response) (s : State) : AgentsOnly s (hostReportConfigError r s) := by
  unfold hostReportConfigError
  split
  · exact agentsOnly_host _ _
  · exact .refl _

theorem agentsOnly_deliver (src : Source) (r : Response) (s : State) : AgentsOnly s (deliver src r s) := by
  cases src
  · exact agentsOnly_hostReportConfigError _ _
  · exact .refl _
  · exact agentsOnly_converter _ _
  · exact agentsOnly_hostReceive _ _

/-! ### The step -/

/-- The history of answers grows by the response, if there is one. -/
def recordAnswer (c : Ctx) (s : State) : State :=
  match s.response with
  | none => s
  | some r => { s with answered := s.answered ++ [{ ctx := c, response := r }] }

/-- Settling a command is, for the block, recording its answer. -/
theorem agentsOnly_settle (c : Ctx) (p : Packet) (rest : List Packet) (s : State) :
    AgentsOnly (recordAnswer c s) (settle c p rest s) := by
  unfold recordAnswer
  split
  · rename_i h
    rw [show settle c p rest s = s by simp [settle, h]]
    exact .refl s
  · rename_i r h
    rw [show settle c p rest s = deliver p.source r
      { setPortQueue c rest s with
        answered := s.answered ++ [{ ctx := c, response := r }]
        converter := converterAfterAnswer p s } by simp [settle, h]]
    refine AgentsOnly.trans ?_ (agentsOnly_deliver _ _ _)
    cases c <;> exact ⟨_, _, _, _, _, _, _, rfl⟩

theorem onNext_next {f : State → State} {o : Host.Outcome State Fault Refusal} {t : State}
    (h : onNext f o = .next t) : ∃ u, o = .next u ∧ t = f u := by
  cases o with
  | next u => exact ⟨u, rfl, by simpa [onNext] using h.symm⟩
  | fault e => simp [onNext] at h
  | refused r => simp [onNext] at h

/-- A command that can be decoded belongs to the context of its port. -/
theorem ctx_of_decodeCommand {c : Ctx} {w : Word} {payload : List Byte} {i : Instr}
    (h : decodeCommand c w payload = .ok i) : i.ctx = c := by
  simp only [decodeCommand] at h
  repeat' split at h
  all_goals cases h
  simpa using ‹¬i.ctx ≠ c›

/-- Everything a step can do to the block, with `s'` the state whose schedule has moved on. -/
inductive StepEffect (s t : State) : Prop
  /-- nothing is served, or an environment agent moves -/
  | agents (h : AgentsOnly s t) (hn : nextCommand s = none)
  /-- a fresh command is executed -/
  | runs (i : Instr) (s' u : State) (hn : nextCommand s = some i) (hs : AgentsOnly s s')
      (hg : i.ctx = .foreground → s.getInFlight = none) (he : exec i s' = .next u)
      (h : AgentsOnly (recordAnswer i.ctx u) t)
  /-- a split RB.GET takes its next step -/
  | continues (g : GetProgress) (s' : State) (hn : nextCommand s = none) (hs : AgentsOnly s s')
      (hg : s.getInFlight = some g) (h : AgentsOnly (recordAnswer .foreground (getContinue g s')) t)
  /-- an illegal command is reported -/
  | illegal (c : Ctx) (s' : State) (hn : nextCommand s = none) (hs : AgentsOnly s s')
      (h : AgentsOnly (recordAnswer c (reportIllegal s')) t)

/-- Everything a step can do. -/
theorem step_effect {s t : State} (h : step s = .next t) : StepEffect s t := by
  unfold step performNext at h
  split at h
  swap
  · cases h
  split at h
  · cases h
    exact .agents (.refl _) (by simp [nextCommand, *])
  rename_i m later hm
  have hs := agentsOnly_schedule later s
  cases m with
  | serve c =>
    simp only [performMove, serve] at h
    split at h
    · cases h
      refine .agents hs ?_
      cases c <;> simp_all [nextCommand, portQueue]
    rename_i p rest hq
    have hq' : portQueue c s = p :: rest := by cases c <;> exact hq
    obtain ⟨u, hu, rfl⟩ := onNext_next h
    have hset := agentsOnly_settle c p rest u
    simp only [runPacket] at hu
    split at hu
    · rename_i g hg
      cases hu
      have hg' : getPending c s = some g := by cases c <;> exact hg
      have hn : nextCommand s = none := by simp [nextCommand, hm, hq', hg']
      have hc : c = .foreground ∧ s.getInFlight = some g := by cases c <;> simp_all [getPending]
      obtain ⟨rfl, hgf⟩ := hc
      exact .continues g _ hn hs hgf hset
    · rename_i hg
      have hg' : getPending c s = none := by cases c <;> exact hg
      simp only [runRecord] at hu
      split at hu
      · rename_i i hd
        have hc := ctx_of_decodeCommand hd
        subst hc
        refine .runs i _ u (by simp [nextCommand, hm, hq', hg', hd]) hs (fun hf => ?_) hu hset
        simpa [getPending, hf] using hg'
      all_goals cases hu
      all_goals exact .illegal c _ (by simp [nextCommand, *]) hs hset
  | present c w payload => cases h; exact .agents (hs.trans (agentsOnly_present _ _ _)) (by simp [nextCommand, hm])
  | sample v => cases h; exact .agents (hs.trans (agentsOnly_converterSample _ _)) (by simp [nextCommand, hm])
  | startBuffer => cases h; exact .agents (hs.trans (agentsOnly_converterStartBuffer _)) (by simp [nextCommand, hm])
  | endOfBatch => cases h; exact .agents (hs.trans (agentsOnly_converterEndOfBatch _)) (by simp [nextCommand, hm])
  | driverReady => cases h; exact .agents (hs.trans (agentsOnly_converterDriverReady _)) (by simp [nextCommand, hm])
  | startEvent => cases h; exact .agents (hs.trans (agentsOnly_host _ _)) (by simp [nextCommand, hm])
  | stopEvent => cases h; exact .agents (hs.trans (agentsOnly_host _ _)) (by simp [nextCommand, hm])
  | tick => cases h; exact .agents (hs.trans (agentsOnly_hostTimerTick _)) (by simp [nextCommand, hm])
  | hostTurn sendOk => cases h; exact .agents (hs.trans (agentsOnly_hostTurn _ _)) (by simp [nextCommand, hm])

end Sys2Proof.Machine
end

