-- ==== Sys2Proof/Laws/Agents.lean ====
section
/-! SUPPORT. The agents of the environment: what their records decode to, what a move leaves on port P, and the small lemmas
of the terms that ENV_HANDOFF and ENV_DELIVERY are said in (spec R182 to R184). -/

namespace Sys2Proof

/-! ### The converter's words -/

theorem opcodeField_formatN (op : BitVec 8) : opcodeField (formatN op) = op := by
  rw [opcodeField_eq, formatN_toNat]
  omega

theorem opcodeField_formatD (op : BitVec 8) (idx : BitVec 1) (n : BitVec 8) : opcodeField (formatD op idx n) = op := by
  have h1 := idx.isLt
  have h2 := n.isLt
  rw [opcodeField_eq, formatD_toNat]
  omega

/-- The word of a conversion-done is a conversion-done. -/
theorem decodeCommand_adcEvtDone (idx : BitVec 1) (n : BitVec 8) :
    decodeCommand .interrupt (encodeWord (.adcEvtDone idx n)) [] = .ok (.adcEvtDone idx n) := by
  have h1 := idx.isLt
  have h2 := n.isLt
  have hi : doneIdxField (formatD 0x23 idx n) = idx := by
    apply BitVec.eq_of_toNat_eq
    rw [doneIdxField_toNat, formatD_toNat]
    simp
    omega
  have hn : countField (formatD 0x23 idx n) = n := by
    apply BitVec.eq_of_toNat_eq
    rw [countField_toNat, formatD_toNat]
    simp
    omega
  have hz : (formatD 0x23 idx n).extractLsb' 9 (24 - 9) = 0 := by
    rw [mbz_eq, formatD_toNat]
    simp
    omega
  simp only [decodeCommand, decodeWord, encodeWord, opcodeField_formatD, hi, hn, mbzAbove, hz, Instr.ctx, payloadLength]
  rfl

/-- The word of a sample write is a sample write. -/
theorem decodeCommand_adcSwr (idx : BitVec 1) (k : BitVec 7) (v : Sample) :
    decodeCommand .converter (encodeWord (.adcSwr idx k v)) [] = .ok (.adcSwr idx k v) := by
  have h1 := idx.isLt
  have h2 := k.isLt
  have h3 := v.isLt
  have ho : opcodeField (formatW 0x28 idx k v) = 0x28#8 := by
    rw [opcodeField_eq, formatW_toNat]
    simp
    omega
  have hi : swrIdxField (formatW 0x28 idx k v) = idx := by
    apply BitVec.eq_of_toNat_eq
    rw [swrIdxField_toNat, formatW_toNat]
    simp
    omega
  have hk : entryField (formatW 0x28 idx k v) = k := by
    apply BitVec.eq_of_toNat_eq
    rw [entryField_toNat, formatW_toNat]
    simp
    omega
  have hv : sampleField (formatW 0x28 idx k v) = v := by
    apply BitVec.eq_of_toNat_eq
    rw [sampleField_toNat, formatW_toNat]
    simp
    omega
  simp only [decodeCommand, decodeWord, encodeWord, ho, hi, hk, hv, Instr.ctx, payloadLength]
  rfl

namespace Machine

/-! ### Issuing -/

/-- A notification goes to the end of port P, and nothing else changes. -/
theorem issue_interrupt (src : Source) {i : Instr} (s : State) (h : i.ctx = .interrupt) :
    issue src i s = { s with portP := s.portP ++ [⟨encodeWord i, encodePayload i, src⟩] } := by
  simp [issue, present, setPortQueue, portQueue, h]

/-- A foreground command goes to the end of port F, and nothing else changes. -/
theorem issue_foreground (src : Source) {i : Instr} (s : State) (h : i.ctx = .foreground) :
    issue src i s = { s with portF := s.portF ++ [⟨encodeWord i, encodePayload i, src⟩] } := by
  simp [issue, present, setPortQueue, portQueue, h]

/-- Issuing a command leaves the trigger as it is. -/
@[simp] theorem issue_trigEn (src : Source) (i : Instr) (s : State) : trigEn (issue src i s) = trigEn s := by
  cases i <;> rfl

/-! ### The host and port P -/

theorem hostIssue_portP (p : HostPhase) {i : Instr} (s : State) (h : i.ctx = .foreground) :
    (hostIssue p i s).portP = s.portP := by
  rw [hostIssue, issue_foreground _ _ h]

theorem hostReceive_portP (r : Response) (s : State) : (hostReceive r s).portP = s.portP := by
  unfold hostReceive hostReceiveStart hostSessionBegins hostReceiveChunk hostReceiveTelemetry hostEmitTelemetry hostStop
    hostReceiveStop
  repeat' split
  all_goals rfl

theorem hostTurn_portP (sendOk : Bool) (s : State) : (hostTurn sendOk s).portP = s.portP := by
  unfold hostTurn hostHandle hostDrain hostStop
  repeat' split
  all_goals rfl

theorem deliver_portP (src : Source) (r : Response) (s : State) : (deliver src r s).portP = s.portP := by
  cases src
  · unfold deliver hostReportConfigError
    dsimp only
    split <;> rfl
  · rfl
  · rfl
  · exact hostReceive_portP r s

/-- A response reaches an agent, not the block: the trigger stays as it is. -/
@[simp] theorem deliver_trigEn (src : Source) (r : Response) (s : State) : trigEn (deliver src r s) = trigEn s := by
  obtain ⟨_, _, _, _, _, _, _, h⟩ := agentsOnly_deliver src r s
  rw [h]
  rfl

/-! ### What the converter keeps of an answer -/

@[simp] theorem converterAfterAnswer_filling (p : Packet) (s : State) :
    (converterAfterAnswer p s).filling = s.converter.filling := rfl
@[simp] theorem converterAfterAnswer_pos (p : Packet) (s : State) : (converterAfterAnswer p s).pos = s.converter.pos := rfl
@[simp] theorem converterAfterAnswer_next (p : Packet) (s : State) :
    (converterAfterAnswer p s).next = s.converter.next := rfl
@[simp] theorem converterAfterAnswer_readyRaised (p : Packet) (s : State) :
    (converterAfterAnswer p s).readyRaised = s.converter.readyRaised := rfl
@[simp] theorem converterAfterAnswer_stopReported (p : Packet) (s : State) :
    (converterAfterAnswer p s).stopReported = (!trigEn s && (isOwnDone p || s.converter.stopReported)) := rfl

/-! ### The terms of the premises -/

theorem sampleRecords_append (f : BitVec 1) (k : Nat) (vs : List Sample) (v : Sample) :
    sampleRecords f k (vs ++ [v]) =
      sampleRecords f k vs ++ [converterRecord (.adcSwr f (BitVec.ofNat 7 (k + vs.length)) v)] := by
  induction vs generalizing k with
  | nil => simp [sampleRecords]
  | cons u vs ih => simp [sampleRecords, ih, Nat.add_assoc, Nat.add_comm]

theorem isOwnDone_converterRecord (idx : BitVec 1) (n : BitVec 8) :
    isOwnDone (converterRecord (.adcEvtDone idx n)) = true := by
  simp only [isOwnDone, converterRecord, encodeWord]
  rw [opcodeField_formatD]
  rfl

/-- Writing a cell of the sample store leaves no written cell unwritten. -/
theorem bufferWritten_of_memWrite {s t : State} {b : BitVec 1} {k a : Nat} {v : Sample}
    (ht : t.samples = memWrite s.samples a v) (h : bufferWritten s b k) : bufferWritten t b k := by
  intro j hj
  rw [ht]
  by_cases ha : sampleAddress b j = a
  · subst ha
    simp
  · rw [memRead_memWrite_other _ _ ha]
    exact h j hj

end Machine

end Sys2Proof
end

