-- ==== Sys2Proof/Laws/PerInstr.lean ====
section
/-! SUPPORT. Per command: the word the encoder gives has the command's opcode in bits 31:24, and so is selected by the
command's own row of the opcode map (spec R91, R94). -/

namespace Sys2Proof.Laws.OpcodeByte

/-- The command's word is selected by the command's row (R94). -/
def Statement (i : Instr) : Prop := encodeWord i &&& i.maskBits = i.matchBits

theorem sysStatus : Statement .sysStatus := by
  unfold Statement
  rfl

theorem rbInit (hen : Bool) : Statement (.rbInit hen) := by
  unfold Statement
  have := hen.toNat_lt
  simp only [selected_iff, opcodeField_eq, encodeWord, formatI_toNat, Instr.opcode, Instr.operandBits]
  constructor <;> simp at * <;> omega

theorem rbPut (data : List Byte) : Statement (.rbPut data) := by
  unfold Statement
  have := (BitVec.ofNat 16 data.length).isLt
  simp only [selected_iff, opcodeField_eq, encodeWord, formatL_toNat, Instr.opcode, Instr.operandBits]
  constructor <;> simp at * <;> omega

theorem rbGet (len : BitVec 16) : Statement (.rbGet len) := by
  unfold Statement
  have := len.isLt
  simp only [selected_iff, opcodeField_eq, encodeWord, formatL_toNat, Instr.opcode, Instr.operandBits]
  constructor <;> simp at * <;> omega

theorem rbOcc : Statement .rbOcc := by
  unfold Statement
  rfl

theorem rbWcur : Statement .rbWcur := by
  unfold Statement
  rfl

theorem rbRcur : Statement .rbRcur := by
  unfold Statement
  rfl

theorem rbTotrd : Statement .rbTotrd := by
  unfold Statement
  rfl

theorem rbTotwr : Statement .rbTotwr := by
  unfold Statement
  rfl

theorem rbOvwc : Statement .rbOvwc := by
  unfold Statement
  rfl

theorem adcConfig (err : BitVec 8) : Statement (.adcConfig err) := by
  unfold Statement
  have := err.isLt
  simp only [selected_iff, opcodeField_eq, encodeWord, formatE_toNat, Instr.opcode, Instr.operandBits]
  constructor <;> simp at * <;> omega

theorem adcEvtReady : Statement .adcEvtReady := by
  unfold Statement
  rfl

theorem adcEvtBufreq : Statement .adcEvtBufreq := by
  unfold Statement
  rfl

theorem adcEvtDone (idx : BitVec 1) (n : BitVec 8) : Statement (.adcEvtDone idx n) := by
  unfold Statement
  have := idx.isLt
  have := n.isLt
  simp only [selected_iff, opcodeField_eq, encodeWord, formatD_toNat, Instr.opcode, Instr.operandBits]
  constructor <;> simp at * <;> omega

theorem adcEvtFin : Statement .adcEvtFin := by
  unfold Statement
  rfl

theorem adcStart : Statement .adcStart := by
  unfold Statement
  rfl

theorem adcStop : Statement .adcStop := by
  unfold Statement
  rfl

theorem adcBytes : Statement .adcBytes := by
  unfold Statement
  rfl

theorem adcSwr (idx : BitVec 1) (k : BitVec 7) (v : Sample) : Statement (.adcSwr idx k v) := by
  unfold Statement
  have := idx.isLt
  have := k.isLt
  have := v.isLt
  simp only [selected_iff, opcodeField_eq, encodeWord, formatW_toNat, Instr.opcode, Instr.operandBits]
  constructor <;> simp at * <;> omega

end Sys2Proof.Laws.OpcodeByte
end

