-- ==== Sys2Proof/Laws/Queue.lean ====
section
/-! SUPPORT. The ring as a queue: what the put core and a get do to the occupied cells and to the invariants of R29. -/

namespace Sys2Proof.Machine

/-- The constraints of R6 that the ring's arithmetic uses. -/
theorem capacity_bounds {p : Params} (h : p.valid = true) :
    1 ≤ p.capacity ∧ p.cntW ≤ 32 ∧ p.capacity < 2 ^ p.cntW ∧ 1 ≤ p.sbLen ∧ p.sbLen ≤ 128 ∧ 1 ≤ p.chunk ∧
      p.chunk ≤ 65535 := by
  simpa [Params.valid, and_assoc] using h

@[simp] theorem length_occupied (s : State) : (occupied s).length = s.occ := by simp [occupied]

theorem getElem?_occupied {s : State} {i : Nat} (hi : i < s.occ) :
    (occupied s)[i]? = some (memRead s.ring ((s.rcur + i) % s.params.capacity)) := by
  simp [occupied, hi]

/-- The queue depends on four fields only. -/
theorem occupied_congr {s t : State} (hp : t.params = s.params) (h1 : t.ring = s.ring) (h2 : t.rcur = s.rcur)
    (h3 : t.occ = s.occ) : occupied t = occupied s := by
  simp [occupied, hp, h1, h2, h3]

/-- I3 of R29 in the naturals: the write cursor is `occ` cells after the read cursor. -/
theorem wcur_eq_of_ringInv {s : State} (h : RingInv s) : (s.rcur + s.occ) % s.params.capacity = s.wcur := by
  have h1 := h.cursors
  have h2 := h.wcur_lt
  have h3 : ((s.rcur + s.occ : Nat) : Int) % s.params.capacity = (s.wcur : Int) % s.params.capacity := by
    push_cast
    rw [Int.add_emod, ← h1, ← Int.add_emod]
    congr 1
    omega
  rw [Int.emod_eq_of_lt (a := (s.wcur : Int)) (by omega) (by omega)] at h3
  exact_mod_cast h3

/-- I4 of R29 in the naturals. -/
theorem bytesWritten_eq_of_ringInv {s : State} (h : RingInv s) :
    (s.bytesRead + s.occ) % 2 ^ s.params.cntW = s.bytesWritten := by
  have h1 := h.totals
  have h2 := h.written_lt
  have h3 : ((s.bytesRead + s.occ : Nat) : Int) % (2 ^ s.params.cntW : Nat) =
      (s.bytesWritten : Int) % (2 ^ s.params.cntW : Nat) := by
    push_cast
    rw [← h1]
    push_cast
    rw [Int.add_emod_emod]
    congr 1
    omega
  rw [Int.emod_eq_of_lt (a := (s.bytesWritten : Int)) (by omega) (by exact_mod_cast h2)] at h3
  exact_mod_cast h3

/-- I3 from its form in the naturals. -/
theorem cursors_of_add {w r o c : Nat} (h : (r + o) % c = w) : ((w : Int) - r) % c = (o : Int) % c := by
  subst h
  push_cast
  rw [Int.emod_sub_emod]
  congr 1
  omega

/-- I4 from its form in the naturals. -/
theorem totals_of_add {w r o m : Nat} (ho : o < m) (h : (r + o) % m = w) : ((w : Int) - r) % (m : Nat) = o := by
  rw [cursors_of_add h, Int.emod_eq_of_lt (by omega) (by omega)]

/-- The cells of a put lie behind the occupied ones (R76). -/
theorem put_cell_ne_occupied {s : State} (h : RingInv s) {len i j : Nat} (hi : i < putAccepted s len) (hj : j < s.occ) :
    (s.rcur + j) % s.params.capacity ≠ (s.wcur + i) % s.params.capacity := by
  have hk := putAccepted_le_free s len
  have ho := h.occ_le
  simp only [freeSpace] at hk
  intro he
  rw [← wcur_eq_of_ringInv h, Nat.mod_add_mod, Nat.add_assoc] at he
  have := run_cells_distinct (c := s.params.capacity) (a := s.rcur) (by omega) (by omega) he
  omega

/-- The put core appends the stored prefix to the queue (R123, R125). -/
theorem occupied_putCore {s : State} (h : RingInv s) (data : List Byte) :
    occupied (putCore data s) = occupied s ++ (data.take (putAccepted s data.length)).map some := by
  obtain ⟨-, hat, hother⟩ := putCore_storesPrefix data s
  have hl := length_take_putAccepted s data
  apply List.ext_getElem?
  intro j
  by_cases hj : j < s.occ
  · rw [List.getElem?_append_left (by simpa using hj), getElem?_occupied hj, getElem?_occupied (by simp; omega),
      putCore_rcur, putCore_params, hother _ (fun i hi => put_cell_ne_occupied h hi hj)]
  · rw [List.getElem?_append_right (by simpa using hj), length_occupied]
    by_cases hj2 : j - s.occ < putAccepted s data.length
    · have hcell : (s.wcur + (j - s.occ)) % s.params.capacity = (s.rcur + j) % s.params.capacity := by
        rw [← wcur_eq_of_ringInv h, Nat.mod_add_mod, Nat.add_assoc, Nat.add_sub_cancel' (Nat.le_of_not_lt hj)]
      have hread := hat _ hj2
      rw [hcell] at hread
      rw [getElem?_occupied (by simp; omega), putCore_rcur, putCore_params, hread, List.getElem?_map,
        List.getElem?_take_of_lt hj2]
      have : j - s.occ < data.length := by
        have := Nat.min_le_left data.length (freeSpace s)
        simp only [putAccepted] at hj2
        omega
      simp [this]
    · rw [List.getElem?_eq_none (by simp; omega), List.getElem?_eq_none (by simp; omega)]

/-- The invariants of R29 survive a put. -/
theorem ringInv_putCore {s : State} (h : RingInv s) (data : List Byte) : RingInv (putCore data s) := by
  have hk := putAccepted_le_free s data.length
  have ho := h.occ_le
  have hr := h.rcur_lt
  obtain ⟨-, -, hcnt, -⟩ := capacity_bounds h.valid
  simp only [freeSpace] at hk
  have hpow : 0 < 2 ^ s.params.cntW := Nat.two_pow_pos _
  have hq := occupied_putCore h data
  refine ⟨by simpa using h.valid, by simp; omega, ?_, by simpa using hr, ?_, ?_, ?_, by simpa using h.read_lt, ?_, ?_, ?_, ?_⟩
  · simpa [cursorAdd] using Nat.mod_lt _ (by omega)
  · apply cursors_of_add
    simp [cursorAdd, ← wcur_eq_of_ringInv h, Nat.add_assoc]
  · apply totals_of_add (by simp; omega)
    simp [counterAdd, ← bytesWritten_eq_of_ringInv h, Nat.add_assoc]
  · simpa [counterAdd] using Nat.mod_lt _ hpow
  · simp only [putCore_ovwCount, counterAdd, putCore_params]
    split
    · exact Nat.mod_lt _ hpow
    · exact h.ovw_lt
  · intro i hi
    have hcell := congrArg (fun l => l[i]?) hq
    simp only [getElem?_occupied hi, List.getElem?_append, length_occupied] at hcell
    split at hcell
    · rename_i hlt
      rw [getElem?_occupied hlt] at hcell
      rw [Option.some.inj hcell]
      exact h.held i hlt
    · rw [List.getElem?_map] at hcell
      cases hb : (data.take (putAccepted s data.length))[i - s.occ]? with
      | none => simp [hb] at hcell
      | some b => rw [hb] at hcell; rw [Option.some.inj hcell]; rfl
  · simpa using memWriteRun_wf _ h.ring_wf _ _
  · intro x hx
    rw [putCore_ring] at hx
    rcases mem_memWriteRun hx with hx | ⟨i, hi⟩
    · simpa using h.ring_range x hx
    · rw [hi, putCore_params]
      exact Nat.mod_lt _ (by omega)

/-- A get of `k` occupied bytes removes the first `k` bytes of the queue (R122). -/
theorem occupied_getRetire (s : State) {k : Nat} (hk : k ≤ s.occ) :
    occupied (getRetire s.rcur k s) = (occupied s).drop k := by
  apply List.ext_getElem?
  intro j
  rw [List.getElem?_drop]
  by_cases hj : j < s.occ - k
  · rw [getElem?_occupied (by simpa using hj), getElem?_occupied (by omega)]
    simp [cursorAdd, Nat.add_assoc]
  · rw [List.getElem?_eq_none (by simpa using hj), List.getElem?_eq_none (by simp; omega)]

/-- The invariants of R29 survive a get of occupied bytes. -/
theorem ringInv_getRetire {s : State} (h : RingInv s) {k : Nat} (hk : k ≤ s.occ) :
    RingInv (getRetire s.rcur k s) := by
  have ho := h.occ_le
  have hr := h.rcur_lt
  obtain ⟨-, -, hcnt, -⟩ := capacity_bounds h.valid
  have hpow : 0 < 2 ^ s.params.cntW := Nat.two_pow_pos _
  refine ⟨by simpa using h.valid, by simp; omega, by simpa using h.wcur_lt, ?_, ?_, ?_, by simpa using h.written_lt, ?_,
    by simpa using h.ovw_lt, ?_, by simpa using h.ring_wf, by simpa using h.ring_range⟩
  · simpa [cursorAdd] using Nat.mod_lt _ (by omega)
  · apply cursors_of_add
    simp [cursorAdd, ← wcur_eq_of_ringInv h, Nat.add_assoc, Nat.add_sub_cancel' hk]
  · apply totals_of_add (by simp; omega)
    simp [counterAdd, ← bytesWritten_eq_of_ringInv h, Nat.add_assoc, Nat.add_sub_cancel' hk]
  · simpa [counterAdd] using Nat.mod_lt _ hpow
  · intro i hi
    have := h.held (k + i) (by simp at hi; omega)
    simpa [cursorAdd, Nat.add_assoc] using this

/-- The bytes a get reads are the first ones of the queue (R122 e). -/
theorem ringReadRun_map_some {s : State} (h : RingInv s) {k : Nat} (hk : k ≤ s.occ) :
    (ringReadRun s s.rcur k).map some = (occupied s).take k := by
  apply List.ext_getElem?
  intro j
  by_cases hj : j < k
  · obtain ⟨b, hb⟩ := Option.isSome_iff_exists.1 (h.held j (by omega))
    rw [List.getElem?_map, getElem?_ringReadRun hj hb, List.getElem?_take_of_lt hj, getElem?_occupied (by omega), hb]
    rfl
  · rw [List.getElem?_eq_none (by simp; omega), List.getElem?_eq_none (by simp; omega)]

/-- The invariants of R29 read nothing but unit RB. -/
theorem ringInv_congr {s t : State} (hp : t.params = s.params) (h1 : t.ring = s.ring) (h2 : t.wcur = s.wcur)
    (h3 : t.rcur = s.rcur) (h4 : t.occ = s.occ) (h5 : t.bytesWritten = s.bytesWritten)
    (h6 : t.bytesRead = s.bytesRead) (h7 : t.ovwCount = s.ovwCount) (h : RingInv s) : RingInv t := by
  obtain ⟨a, b, c, d, e, f, g, i, j, k, l, m⟩ := h
  constructor <;> simp only [hp, h1, h2, h3, h4, h5, h6, h7] <;> assumption

end Sys2Proof.Machine
end

