-- ==== Sys2Proof/Laws/Runs.lean ====
section
/-! SUPPORT. Runs: no move reads or writes the schedule (`performMove_withSchedule`), so that the moments of an infinite run
are the ends of finite runs (`runSteps_of_infiniteRun`) (spec R246). -/

namespace Sys2Proof.Machine

/-- The state with another schedule. -/
def withSchedule (l : List Move) (s : State) : State := { s with schedule := l }

theorem onNext_ite (f : State → State) (c : Prop) [Decidable c] (a b : Host.Outcome State Fault Refusal) :
    onNext f (if c then a else b) = if c then onNext f a else onNext f b := by split <;> rfl

theorem withSchedule_ite (l : List Move) (c : Prop) [Decidable c] (a b : State) :
    withSchedule l (if c then a else b) = if c then withSchedule l a else withSchedule l b := by split <;> rfl

theorem countTruncated_withSchedule (l : List Move) (s : State) :
    countTruncated (withSchedule l s) = withSchedule l (countTruncated s) := by
  rw [countTruncated, countTruncated, withSchedule_ite]
  rfl

theorem putCore_withSchedule (l : List Move) (data : List Byte) (s : State) :
    putCore data (withSchedule l s) = withSchedule l (putCore data s) := by
  rw [putCore, putCore, withSchedule_ite, ← countTruncated_withSchedule]
  rfl

theorem exec_withSchedule (l : List Move) (i : Instr) (s : State) :
    exec i (withSchedule l s) = onNext (withSchedule l) (exec i s) := by
  cases i with
  | rbPut data =>
    simp only [exec, execRbPut, onNext_ite, putCore_withSchedule]
    rfl
  | adcEvtDone idx n =>
    simp only [exec, execAdcEvtDone, onNext_ite]
    rw [show advanceDraws n.toNat (withSchedule l s) = withSchedule l (advanceDraws n.toNat s) from rfl,
      putCore_withSchedule, show bufferBytes (withSchedule l s) idx n.toNat = bufferBytes s idx n.toNat from rfl]
    generalize putCore (bufferBytes s idx n.toNat) (advanceDraws n.toNat s) = u
    rfl
  | adcStart =>
    simp only [exec, execAdcStart, show (withSchedule l s).drvState = s.drvState from rfl]
    cases s.drvState <;> rfl
  | sysStatus | rbOcc | rbWcur | rbRcur | rbTotrd | rbTotwr | rbOvwc | adcEvtBufreq | adcEvtFin | adcBytes => rfl
  | rbInit | rbGet | adcConfig | adcEvtReady | adcStop | adcSwr =>
    simp only [exec, execRbInit, execRbGet, execAdcConfig, execAdcEvtReady, execAdcStop, execAdcSwr, onNext_ite]
    rfl

theorem getContinue_withSchedule (l : List Move) (g : GetProgress) (s : State) :
    getContinue g (withSchedule l s) = withSchedule l (getContinue g s) := by
  unfold getContinue
  split <;> rfl

theorem runRecord_withSchedule (l : List Move) (c : Ctx) (p : Packet) (s : State) :
    runRecord c p (withSchedule l s) = onNext (withSchedule l) (runRecord c p s) := by
  unfold runRecord
  split
  · exact exec_withSchedule _ _ _
  all_goals rfl

theorem runPacket_withSchedule (l : List Move) (c : Ctx) (p : Packet) (s : State) :
    runPacket c p (withSchedule l s) = onNext (withSchedule l) (runPacket c p s) := by
  unfold runPacket
  rw [show getPending c (withSchedule l s) = getPending c s by cases c <;> rfl]
  split
  · rw [getContinue_withSchedule]; rfl
  · exact runRecord_withSchedule _ _ _ _

theorem setPortQueue_withSchedule (l : List Move) (c : Ctx) (q : List Packet) (s : State) :
    setPortQueue c q (withSchedule l s) = withSchedule l (setPortQueue c q s) := by
  cases c <;> rfl

theorem issue_withSchedule (l : List Move) (src : Source) (i : Instr) (s : State) :
    issue src i (withSchedule l s) = withSchedule l (issue src i s) := by
  unfold issue present
  cases i.ctx <;> rfl

theorem hostReceive_withSchedule (l : List Move) (r : Response) (s : State) :
    hostReceive r (withSchedule l s) = withSchedule l (hostReceive r s) := by
  unfold hostReceive hostReceiveStart hostSessionBegins hostReceiveChunk hostReceiveTelemetry hostEmitTelemetry
  simp only [show (withSchedule l s).host = s.host from rfl, show (withSchedule l s).params = s.params from rfl]
  repeat' split
  all_goals rfl

theorem deliver_withSchedule (l : List Move) (src : Source) (r : Response) (s : State) :
    deliver src r (withSchedule l s) = withSchedule l (deliver src r s) := by
  cases src
  · unfold deliver hostReportConfigError; dsimp only; split <;> rfl
  · rfl
  · rfl
  · exact hostReceive_withSchedule l r s

theorem settle_withSchedule (l : List Move) (c : Ctx) (p : Packet) (rest : List Packet) (s : State) :
    settle c p rest (withSchedule l s) = withSchedule l (settle c p rest s) := by
  unfold settle
  simp only [show (withSchedule l s).response = s.response from rfl]
  split
  · rfl
  · rename_i r _
    rw [← deliver_withSchedule, setPortQueue_withSchedule]; rfl

theorem serve_withSchedule (l : List Move) (c : Ctx) (s : State) :
    serve c (withSchedule l s) = onNext (withSchedule l) (serve c s) := by
  unfold serve
  rw [show portQueue c (withSchedule l s) = portQueue c s by cases c <;> rfl]
  split
  · rfl
  · rw [runPacket_withSchedule]
    cases runPacket c _ s <;> simp [onNext, settle_withSchedule]

theorem converterSample_withSchedule (l : List Move) (v : Sample) (s : State) :
    converterSample v (withSchedule l s) = withSchedule l (converterSample v s) := by
  unfold converterSample
  simp only [show (withSchedule l s).converter = s.converter from rfl]
  split
  · rw [withSchedule_ite, ← issue_withSchedule]
    rfl
  · rfl

theorem converterStartBuffer_withSchedule (l : List Move) (s : State) :
    converterStartBuffer (withSchedule l s) = withSchedule l (converterStartBuffer s) := by
  unfold converterStartBuffer
  simp only [show (withSchedule l s).converter = s.converter from rfl]
  split
  · rw [withSchedule_ite]
    rfl
  · rfl
  · rfl

theorem converterLink_withSchedule (l : List Move) (s : State) :
    converterLink (withSchedule l s) = withSchedule l (converterLink s) := by
  unfold converterLink
  simp only [show (withSchedule l s).converter = s.converter from rfl,
    show trigEn (withSchedule l s) = trigEn s from rfl]
  rw [withSchedule_ite]
  repeat' split
  all_goals rfl

theorem converterEndOfBatch_withSchedule (l : List Move) (s : State) :
    converterEndOfBatch (withSchedule l s) = withSchedule l (converterEndOfBatch s) := by
  unfold converterEndOfBatch
  simp only [show (withSchedule l s).converter = s.converter from rfl]
  split
  · rw [withSchedule_ite, ← converterLink_withSchedule]
    rfl
  · rfl

theorem converterDriverReady_withSchedule (l : List Move) (s : State) :
    converterDriverReady (withSchedule l s) = withSchedule l (converterDriverReady s) := by
  rw [converterDriverReady, converterDriverReady, withSchedule_ite]
  rfl

theorem hostTimerTick_withSchedule (l : List Move) (s : State) :
    hostTimerTick (withSchedule l s) = withSchedule l (hostTimerTick s) := by
  rw [hostTimerTick, hostTimerTick, withSchedule_ite]
  rfl

theorem hostTurn_withSchedule (l : List Move) (sendOk : Bool) (s : State) :
    hostTurn sendOk (withSchedule l s) = withSchedule l (hostTurn sendOk s) := by
  unfold hostTurn hostHandle
  simp only [show (withSchedule l s).host = s.host from rfl]
  repeat' split
  all_goals rfl

/-- No move reads or writes the schedule. -/
theorem performMove_withSchedule (l : List Move) (m : Move) (s : State) :
    performMove m (withSchedule l s) = onNext (withSchedule l) (performMove m s) := by
  cases m with
  | serve c => exact serve_withSchedule l c s
  | present c w payload =>
    simp only [performMove, present, onNext]
    cases c <;> rfl
  | sample v => simp only [performMove, onNext, converterSample_withSchedule]
  | startBuffer => simp only [performMove, onNext, converterStartBuffer_withSchedule]
  | endOfBatch => simp only [performMove, onNext, converterEndOfBatch_withSchedule]
  | driverReady => simp only [performMove, onNext, converterDriverReady_withSchedule]
  | startEvent => rfl
  | stopEvent => rfl
  | tick => simp only [performMove, onNext, hostTimerTick_withSchedule]
  | hostTurn sendOk => simp only [performMove, onNext, hostTurn_withSchedule]

/-! ### Runs -/

/-- A quiescent block does nothing when a port is served (R246). -/
theorem serve_of_quiescent {s : State} (h : quiescent s) (c : Ctx) : serve c s = .next s := by
  rw [serve, h c]

theorem InfiniteRun.tail {s : State} {draws : Nat → Move} {run : Nat → State} (h : InfiniteRun s draws run) :
    InfiniteRun (run 1) (fun n => draws (n + 1)) (fun n => run (n + 1)) := ⟨rfl, fun n => h.next (n + 1)⟩

/-- A step that draws `m`, whatever stands behind it in the schedule. -/
theorem step_withSchedule_cons {m : Move} {s t : State} (l : List Move) (h : step (drawing m s) = .next t) :
    step (withSchedule (m :: l) s) = .next (withSchedule l t) := by
  unfold step performNext at h ⊢
  split at h
  · rename_i hv
    rw [if_pos (show (withSchedule (m :: l) s).params.valid = true from hv)]
    have hm : performMove m s = .next t := h
    exact (performMove_withSchedule l m s).trans (by rw [hm]; rfl)
  · cases h

/-- R246: the state after `n` moves of an infinite run is where the finite run of these moves ends. -/
theorem runSteps_of_infiniteRun {s : State} {draws : Nat → Move} {run : Nat → State} (h : InfiniteRun s draws run)
    (n : Nat) (l : List Move) :
    runSteps n (withSchedule ((List.range n).map draws ++ l) s) = .next (withSchedule l (run n)) := by
  induction n generalizing s draws run with
  | zero => rw [h.start]; rfl
  | succ n ih =>
    have h0 := h.next 0
    rw [h.start] at h0
    rw [List.range_succ_eq_map, List.map_cons, List.map_map, List.cons_append, runSteps, step_withSchedule_cons _ h0]
    exact ih h.tail

/-- From reset, every moment of an infinite run is the end of the finite run of a schedule. -/
theorem runSteps_startOf_of_infiniteRun {p : Params} {draws : Nat → Move} {run : Nat → State}
    (h : InfiniteRun (State.resetWith p) draws run) (n : Nat) :
    runSteps n (startOf p ((List.range n).map draws)) = .next (withSchedule [] (run n)) := by
  have h1 := runSteps_of_infiniteRun h n []
  rwa [List.append_nil] at h1

end Sys2Proof.Machine
end

