-- ==== Sys2Proof/Tests/Slice0.lean ====
section
/-! SUPPORT. Tests, with expected results from spec/95_test_vectors.md and spec/30_encoding.md, and for every obligation that
has hypotheses a witness that meets them. -/

namespace Sys2Proof.Machine.Tests

/-! ### Helpers -/

/-- Configuration T of 95_test_vectors.md: C = 16, SB_LEN = 4, CHUNK = 8. -/
def small : Params := { Config.reference with capacity := 16, sbLen := 4, chunk := 8 }

/-- Configuration T with the split form of RB.GET. -/
def smallSplit : Params := { small with getAtomic := false }

/-- T after `RB.INIT hen=1`. -/
def ready : State := { State.resetWith small with inited := true, hen := true }

/-- T with a full ring that wraps: cells 5 to 15 and 0 to 4 hold the bytes after V8. -/
def wrapped : State :=
  { ready with
    ring := [(0, 0x51), (1, 0x52), (2, 0x53), (3, 0x54), (4, 0x55), (5, 0x06), (6, 0x07), (7, 0x08), (8, 0x09),
      (9, 0x0A), (10, 0x0B), (11, 0x0C), (12, 0x0D), (13, 0x0E), (14, 0x0F), (15, 0x10)]
    wcur := 5, rcur := 5, occ := 16, bytesWritten := 21, bytesRead := 5, ovwCount := 2 }

/-- T with three bytes in the ring. -/
def three : State :=
  { ready with ring := [(0, 0x01), (1, 0x02), (2, 0x03)], wcur := 3, occ := 3, bytesWritten := 3 }

/-- T in the split form with three bytes in the ring and a get of two of them at step G2. -/
def reading : State :=
  { three with params := smallSplit, getInFlight := some { k := 2, r0 := 0, out := none } }

/-- T with the samples of V45 and 13 bytes in the ring. -/
def converted : State :=
  { ready with
    ring := [(0, 0), (1, 1), (2, 2), (3, 3), (4, 4), (5, 5), (6, 6), (7, 7), (8, 8), (9, 9), (10, 10), (11, 11), (12, 12)]
    wcur := 13, occ := 13, bytesWritten := 13
    samples := [(0, 0xAABB), (1, 0xCCDD), (2, 0xEEFF), (3, 0x1122)] }

/-- What a command leaves in a field, if it answers a next state. -/
def after {α : Type} (i : Instr) (s : State) (f : State → α) : Option α :=
  match exec i s with
  | .next t => some (f t)
  | .fault _ => none
  | .refused _ => none

/-- The response of a command. -/
def answer (i : Instr) (s : State) : Option Response := (after i s (fun t => t.response)).join

/-- The state with a record at the head of a port and the schedule serving it next. -/
def serving (c : Ctx) (w : Word) (payload : List Byte) (s : State) : State :=
  setPortQueue c [{ word := w, payload := payload, source := .external }] { s with schedule := [.serve c] }

/-- What a step leaves in a field, if it answers a next state. -/
def afterStep {α : Type} (s : State) (f : State → α) : Option α :=
  match step s with
  | .next t => some (f t)
  | .fault _ => none
  | .refused _ => none

/-! ### Well-formedness -/

/-- R93: the payload of RB.PUT has at most 65535 bytes. -/
theorem test_wellFormed_refuses_long_payload :
    (Instr.rbPut (List.replicate 65536 0)).wellFormed = false ∧
      (Instr.rbPut (List.replicate 65535 0)).wellFormed = true := by
  simp only [Instr.wellFormed, List.length_replicate]
  decide

/-! ### Decoding: words written out from the formats of R92 and the opcodes of R94 -/

theorem test_decode_sysStatus :
    decodeCommand .foreground 0b00000001_000000000000000000000000 [] = .ok .sysStatus := by decide

/-- Format I. -/
theorem test_decode_rbInit :
    decodeCommand .foreground 0b00010000_00000000000000000000000_1 [] = .ok (.rbInit true) ∧
      decodeCommand .foreground 0b00010000_00000000000000000000000_0 [] = .ok (.rbInit false) := by decide

/-- Format L. -/
theorem test_decode_rbPut :
    decodeCommand .interrupt 0b00010001_00000000_0000000000000010 [0xAA, 0x55] = .ok (.rbPut [0xAA, 0x55]) := by decide

theorem test_decode_rbGet :
    decodeCommand .foreground 0b00010010_00000000_1000000000000001 [] = .ok (.rbGet 0x8001) := by decide

/-- Format N, the six reads. -/
theorem test_decode_reads :
    decodeCommand .foreground 0b00010011_000000000000000000000000 [] = .ok .rbOcc ∧
    decodeCommand .foreground 0b00010100_000000000000000000000000 [] = .ok .rbWcur ∧
    decodeCommand .foreground 0b00010101_000000000000000000000000 [] = .ok .rbRcur ∧
    decodeCommand .foreground 0b00010110_000000000000000000000000 [] = .ok .rbTotrd ∧
    decodeCommand .foreground 0b00010111_000000000000000000000000 [] = .ok .rbTotwr ∧
    decodeCommand .foreground 0b00011000_000000000000000000000000 [] = .ok .rbOvwc := by decide

/-- Format E. -/
theorem test_decode_adcConfig :
    decodeCommand .foreground 0b00100000_0000000000000000_10010110 [] = .ok (.adcConfig 0x96) := by decide

/-- Format D: idx is bit 8, n bits 7:0. -/
theorem test_decode_adcEvtDone :
    decodeCommand .interrupt 0b00100011_000000000000000_1_01111010 [] = .ok (.adcEvtDone 1 122) ∧
      decodeCommand .interrupt 0b00100011_000000000000000_0_10000000 [] = .ok (.adcEvtDone 0 128) := by decide

/-- Format N, the notifications and the commands of unit ADC. -/
theorem test_decode_adc :
    decodeCommand .interrupt 0b00100001_000000000000000000000000 [] = .ok .adcEvtReady ∧
    decodeCommand .interrupt 0b00100010_000000000000000000000000 [] = .ok .adcEvtBufreq ∧
    decodeCommand .interrupt 0b00100100_000000000000000000000000 [] = .ok .adcEvtFin ∧
    decodeCommand .foreground 0b00100101_000000000000000000000000 [] = .ok .adcStart ∧
    decodeCommand .foreground 0b00100110_000000000000000000000000 [] = .ok .adcStop ∧
    decodeCommand .foreground 0b00100111_000000000000000000000000 [] = .ok .adcBytes := by decide

/-- Format W: idx is bit 23, k bits 22:16, v bits 15:0. -/
theorem test_decode_adcSwr :
    decodeCommand .converter 0b00101000_1_1111001_1111111111111110 [] = .ok (.adcSwr 1 121 0xFFFE) ∧
      decodeCommand .converter 0b00101000_0_1000000_0000000000000001 [] = .ok (.adcSwr 0 64 1) := by decide

/-- V52 to V59a: illegal records, each by its condition of R96. -/
theorem test_decode_illegal :
    decodeCommand .foreground 0x00000000 [] = .error .unassignedOpcode ∧
    decodeCommand .foreground 0x13000001 [] = .error .mbzNotZero ∧
    decodeCommand .foreground 0x11000003 [] = .error .wrongContext ∧
    decodeCommand .interrupt 0x12000008 [] = .error .wrongContext ∧
    decodeCommand .reserved 0x13000000 [] = .error .reservedContext ∧
    decodeCommand .foreground 0x10000002 [] = .error .mbzNotZero ∧
    decodeCommand .interrupt 0x23000204 [] = .error .mbzNotZero ∧
    decodeCommand .foreground 0x28000001 [] = .error .wrongContext ∧
    decodeCommand .foreground 0xFF000000 [] = .error .unassignedOpcode := by decide

/-- R92: each format's lowest must-be-zero bit and bit 23. -/
theorem test_decode_mbz_boundaries :
    decodeCommand .foreground 0x12010000 [] = .error .mbzNotZero ∧
    decodeCommand .foreground 0x12800000 [] = .error .mbzNotZero ∧
    decodeCommand .foreground 0x20000100 [] = .error .mbzNotZero ∧
    decodeCommand .interrupt 0x23800000 [] = .error .mbzNotZero ∧
    decodeCommand .foreground 0x01800000 [] = .error .mbzNotZero := by decide

/-- R102, P2: the encoder gives the worked words. -/
theorem test_encode_worked :
    encodeWord (.rbInit true) = 0x10000001 ∧ encodeWord (.rbGet 244) = 0x120000F4 ∧
    encodeWord (.adcEvtDone 1 122) = 0x2300017A ∧ encodeWord (.adcSwr 1 121 0xFFFE) = 0x28F9FFFE ∧
    encodeWord (.adcConfig 0x16) = 0x20000016 ∧ encode (.rbPut [1, 2]) = (0x11000002, [1, 2]) := by decide

/-! ### Unit RB -/

/-- S1 line 0. -/
theorem test_init : after (.rbInit true) (State.resetWith small) (fun t => (t.inited, t.hen, t.occ, t.response)) =
    some (true, true, 0, some ⟨.ok, 0, []⟩) := by decide

/-- V23: a second RB.INIT. -/
theorem test_init_twice : after (.rbInit false) three (fun t => (t.fault, t.hen, t.occ, t.response)) =
    some (0b0100, true, 3, some ⟨.outOfOrder, 0, []⟩) := by decide

/-- V8 on the ring after V6: five cells are free, seven bytes come. -/
theorem test_put_truncates :
    after (.rbPut [0x51, 0x52, 0x53, 0x54, 0x55, 0x56, 0x57])
      { wrapped with
        ring := [(0, 0x01), (1, 0x02), (2, 0x03), (3, 0x04), (4, 0x05), (5, 0x06), (6, 0x07), (7, 0x08), (8, 0x09),
          (9, 0x0A), (10, 0x0B), (11, 0x0C), (12, 0x0D), (13, 0x0E), (14, 0x0F), (15, 0x10)]
        wcur := 0, occ := 11, bytesWritten := 16, ovwCount := 1 }
      (fun t => (t.ring, [t.wcur, t.occ, t.bytesWritten, t.ovwCount], t.events, t.response)) =
    some (wrapped.ring, [5, 16, 21, 2], [.ovw 2], some ⟨.ok, 5, []⟩) := by decide

/-- V24: the counter wraps with CNT_W = 8, and so does the cursor. -/
theorem test_put_wraps :
    after (.rbPut [0, 1, 2, 3, 4, 5, 6, 7, 8, 9])
      { ready with params := { small with cntW := 8 }, wcur := 10, rcur := 10, bytesWritten := 250, bytesRead := 250 }
      (fun t => (t.wcur, t.occ, t.bytesWritten, t.bytesRead, t.response)) =
    some (4, 10, 4, 250, some ⟨.ok, 10, []⟩) := by decide

/-- V9: the largest length, over the end of the store. -/
theorem test_get_wraps :
    after (.rbGet 65535) wrapped (fun t => (t.rcur, t.occ, t.bytesRead, t.response)) =
    some (5, 0, 21, some ⟨.ok, 16,
      [0x06, 0x07, 0x08, 0x09, 0x0A, 0x0B, 0x0C, 0x0D, 0x0E, 0x0F, 0x10, 0x51, 0x52, 0x53, 0x54, 0x55]⟩) := by decide

/-- V26, step G3: the put between the steps filled the ring. -/
theorem test_get_split_finish :
    (let t := getContinue { k := 6, r0 := 0, out := some [0, 1, 2, 3, 4, 5] }
        { ready with params := smallSplit, wcur := 0, occ := 16, bytesWritten := 16 };
      (t.rcur, t.occ, t.bytesRead, t.response)) = (6, 10, 6, some ⟨.ok, 6, [0, 1, 2, 3, 4, 5]⟩) := by decide

/-! ### Introspection: V7, P4 line 9, P5 line 10 -/

/-- V7, on the state after V6. -/
theorem test_reads :
    (let s : State := { ready with rcur := 5, occ := 11, bytesRead := 5, bytesWritten := 16, ovwCount := 1 };
      [answer .rbOcc s, answer .rbWcur s, answer .rbRcur s, answer .rbTotrd s, answer .rbTotwr s, answer .rbOvwc s]) =
    [some ⟨.ok, 11, []⟩, some ⟨.ok, 0, []⟩, some ⟨.ok, 5, []⟩, some ⟨.ok, 5, []⟩, some ⟨.ok, 16, []⟩,
      some ⟨.ok, 1, []⟩] := by decide

theorem test_status_after_failed_config :
    answer .sysStatus { State.resetWith small with inited := true, cfg := .failed, cfgErr := 0x16, act := 1 } =
    some ⟨.ok, 0x00016038, []⟩ := by decide

theorem test_status_with_faults :
    answer .sysStatus { ready with fault := 0b0111 } = some ⟨.ok, 0x00000760, []⟩ := by decide

/-! ### Unit ADC -/

/-- V37: a failed configuration. -/
theorem test_config_fails :
    after (.adcConfig 0x16) (State.resetWith small) (fun t => (t.cfg, t.cfgErr, t.response)) =
    some (.failed, 0x16, some ⟨.cfgError, 0x16, []⟩) := by decide

/-- V38: no retry. -/
theorem test_config_again :
    after (.adcConfig 0) { State.resetWith small with cfg := .failed, cfgErr := 0x16 }
      (fun t => (t.cfg, t.cfgErr, t.response)) = some (.failed, 0x16, some ⟨.noEffect, 0x16, []⟩) := by decide

/-- V33. -/
theorem test_ready_before_config :
    after .adcEvtReady (State.resetWith small) (fun t => (t.drvState, t.response)) =
    some (.notReady, some ⟨.noEffect, 0, []⟩) := by decide

/-- V34. -/
theorem test_ready_after_config :
    after .adcEvtReady { State.resetWith small with cfg := .configured } (fun t => (t.drvState, t.response)) =
    some (.ready, some ⟨.ok, 0, []⟩) := by decide

/-- V30, V31. -/
theorem test_bufreq :
    after .adcEvtBufreq ready (fun t => (t.act, t.response)) = some (1, some ⟨.ok, 1, []⟩) ∧
      after .adcEvtBufreq { ready with act := 1 } (fun t => (t.act, t.response)) = some (0, some ⟨.ok, 0, []⟩) := by
  decide

/-- V45: odd free space splits a sample. -/
theorem test_done_splits_sample :
    after (.adcEvtDone 0 4) converted
      (fun t => ([13, 14, 15, 0].map (memRead t.ring), [t.wcur, t.occ, t.bytesWritten, t.ovwCount, t.eventCount],
        t.events, t.response)) =
    some ([some 0xBB, some 0xAA, some 0xDD, some 0], [0, 16, 16, 1, 1], [.ovw 1], some ⟨.ok, 3, []⟩) := by decide

/-- V44: RB.INIT is checked before the operand. -/
theorem test_done_check_order :
    after (.adcEvtDone 0 200) (State.resetWith small) (fun t => (t.fault, t.eventCount, t.response)) =
    some (0b0100, 0, some ⟨.outOfOrder, 0, []⟩) := by decide

/-- V50. -/
theorem test_fin :
    after .adcEvtFin { ready with drvState := .sampling } (fun t => (t.drvState, t.fault, t.events, t.response)) =
    some (.sampling, 0, [.infoFin], some ⟨.ok, 0, []⟩) := by decide

/-- V32, V36. -/
theorem test_start :
    after .adcStart (State.resetWith small) (fun t => (t.drvState, t.response)) =
      some (.notReady, some ⟨.notReady, 0, []⟩) ∧
    after .adcStart { ready with drvState := .stopped } (fun t => (trigEn t, t.response)) =
      some (true, some ⟨.ok, 0, []⟩) := by decide

/-- V35, V36. -/
theorem test_stop :
    after .adcStop { ready with drvState := .ready } (fun t => (t.drvState, t.response)) =
      some (.ready, some ⟨.noEffect, 0, []⟩) ∧
    after .adcStop { ready with drvState := .sampling } (fun t => (t.drvState, trigEn t, t.response)) =
      some (.stopped, false, some ⟨.ok, 0, []⟩) := by decide

/-- V47 to V49. -/
theorem test_bytes :
    answer .adcBytes { State.reset with eventCount := 3 } = some ⟨.ok, 732, []⟩ ∧
    answer .adcBytes { State.reset with eventCount := 17602325 } = some ⟨.ok, 4, []⟩ ∧
    answer .adcBytes { State.reset with eventCount := 0xFFFFFFFF } = some ⟨.ok, 0xFFFFFF0C, []⟩ := by decide

/-- V51. -/
theorem test_swr :
    after (.adcSwr 1 3 0x8000) (State.resetWith small)
      (fun t => (memRead t.samples (sampleAddress 1 3), memRead t.samples (sampleAddress 0 3), t.response)) =
    some (some 0x8000, none, some ⟨.ok, 0, []⟩) := by decide

/-- V42. -/
theorem test_swr_operand :
    after (.adcSwr 0 4 1) (State.resetWith small) (fun t => (t.fault, t.samples, t.response)) =
    some (0b0010, [], some ⟨.badOperand, 0, []⟩) := by decide

/-! ### Steps -/

/-- V52, V56: an illegal record through its port. -/
theorem test_step_illegal :
    afterStep (serving .foreground 0 [] (State.resetWith small))
      (fun t => (t.fault, t.response, t.portF, statusWord t)) =
      some (0b0001, some ⟨.illegal, 0, []⟩, [], 0x00000100) ∧
    afterStep (serving .reserved 0x13000000 [] (State.resetWith small)) (fun t => (t.fault, t.portX)) =
      some (0b0001, []) := by decide

/-- The word of a table row is the first instruction after reset. -/
theorem test_step_withFetchWord :
    afterStep (State.reset.withFetchWord 32 0x10000001) (fun t => (t.inited, t.hen, t.answered)) =
      some (true, true, [⟨.foreground, ⟨.ok, 0, []⟩⟩]) ∧
    afterStep (State.reset.withFetchWord 32 0x28F9FFFE) (fun t => memRead t.samples (sampleAddress 1 121)) =
      some (some 0xFFFE) ∧
    decodeTableWord 32 0x11000002 = some (.rbPut [0, 0]) := by decide

/-! ### The invariants in the states of the witnesses -/

/-- T after a failed configuration. -/
def failed : State := { three with cfg := .failed, cfgErr := 0x16 }

theorem blockInv_three_serving : BlockInv (serving .interrupt 0x11000001 [9] three) where
  ring :=
    { valid := by decide, occ_le := by decide, wcur_lt := by decide, rcur_lt := by decide, cursors := by decide
      totals := by decide, written_lt := by decide, read_lt := by decide, ovw_lt := by decide, held := by decide
      ring_wf := by decide, ring_range := by decide }
  get := by intro g h; simp [serving, setPortQueue, three, ready, State.resetWith] at h
  adc :=
    { ready_configured := by decide, err_failed := by decide, events_lt := by decide, samples_wf := by decide
      samples_range := by decide }
  faultBits := by unfold FaultInv; decide
  uninit := by unfold UninitInv; decide

theorem blockInv_reading : BlockInv (reading) where
  ring :=
    { valid := by decide, occ_le := by decide, wcur_lt := by decide, rcur_lt := by decide, cursors := by decide
      totals := by decide, written_lt := by decide, read_lt := by decide, ovw_lt := by decide, held := by decide
      ring_wf := by decide, ring_range := by decide }
  get := by
    intro g h
    cases h
    exact ⟨by decide, by decide, by decide, by decide, by simp⟩
  adc :=
    { ready_configured := by decide, err_failed := by decide, events_lt := by decide, samples_wf := by decide
      samples_range := by decide }
  faultBits := by unfold FaultInv; decide
  uninit := by unfold UninitInv; decide

theorem blockInv_reading_serving : BlockInv (serving .foreground 0x12000002 [] reading) where
  ring :=
    { valid := by decide, occ_le := by decide, wcur_lt := by decide, rcur_lt := by decide, cursors := by decide
      totals := by decide, written_lt := by decide, read_lt := by decide, ovw_lt := by decide, held := by decide
      ring_wf := by decide, ring_range := by decide }
  get := by
    intro g h
    cases h
    exact ⟨by decide, by decide, by decide, by decide, by simp⟩
  adc :=
    { ready_configured := by decide, err_failed := by decide, events_lt := by decide, samples_wf := by decide
      samples_range := by decide }
  faultBits := by unfold FaultInv; decide
  uninit := by unfold UninitInv; decide

theorem blockInv_failed_serving : BlockInv (serving .foreground 0x25000000 [] failed) where
  ring :=
    { valid := by decide, occ_le := by decide, wcur_lt := by decide, rcur_lt := by decide, cursors := by decide
      totals := by decide, written_lt := by decide, read_lt := by decide, ovw_lt := by decide, held := by decide
      ring_wf := by decide, ring_range := by decide }
  get := by intro g h; simp [serving, setPortQueue, failed, three, ready, State.resetWith] at h
  adc :=
    { ready_configured := by decide, err_failed := by decide, events_lt := by decide, samples_wf := by decide
      samples_range := by decide }
  faultBits := by unfold FaultInv; decide
  uninit := by unfold UninitInv; decide

theorem ringInv_wrapped : RingInv wrapped where
  valid := by decide
  occ_le := by decide
  wcur_lt := by decide
  rcur_lt := by decide
  cursors := by decide
  totals := by decide
  written_lt := by decide
  read_lt := by decide
  ovw_lt := by decide
  held := by decide
  ring_wf := by decide
  ring_range := by decide

/-! ### Witnesses: the block -/

theorem witness_InvariantsHoldAfterReset :
    small.valid = true ∧ smallSplit.valid = true ∧ Config.reference.valid = true := by decide

/-- The bounds of R6 where they are met exactly, and one beyond. -/
theorem witness_params_bounds :
    ({ small with capacity := 1, cntW := 1, sbLen := 1, chunk := 1 } : Params).valid = true ∧
      ({ small with sbLen := 128, chunk := 65535 } : Params).valid = true ∧
      ({ small with capacity := 256, cntW := 8 } : Params).valid = false ∧
      ({ small with sbLen := 129 } : Params).valid = false := by decide

theorem witness_DecodingTheEncodedRecordGivesTheCommand :
    (Instr.adcSwr 1 127 0xFFFF).wellFormed = true ∧ (Instr.rbPut [1, 2]).wellFormed = true := by decide

theorem witness_DecodedRecordEncodesToItself :
    decodeCommand .interrupt 0x11000002 [0xAA, 0x55] = .ok (.rbPut [0xAA, 0x55]) := by decide

/-- Every illegal case of R96 through a step: the hypotheses of the second clause, each `e` in turn. -/
theorem witness_IllegalCommandOnlySetsFaultBit0 :
    [(Ctx.foreground, (0x00000000 : Word), DecodeError.unassignedOpcode), (.foreground, 0x13000001, .mbzNotZero),
      (.interrupt, 0x12000008, .wrongContext), (.reserved, 0x13000000, .reservedContext)].all (fun x =>
        (serving x.1 x.2.1 [] ready).params.valid && (serving x.1 x.2.1 [] ready).schedule == [.serve x.1] &&
        portQueue x.1 (serving x.1 x.2.1 [] ready) == [⟨x.2.1, [], .external⟩] &&
        getPending x.1 (serving x.1 x.2.1 [] ready) == none &&
        match decodeCommand x.1 x.2.1 [] with
        | .ok _ => false
        | .error e => e == x.2.2) = true := by decide

theorem witness_WorkedEncodingsDecode : (List.replicate 10 (0 : Byte)).length = 10 ∧ Ctx.foreground ≠ .reserved := by
  decide

theorem witness_StepRunsTheDecodedCommand :
    (serving .foreground 0x13000000 [] three).params.valid = true ∧
    (serving .foreground 0x13000000 [] three).schedule = [.serve .foreground] ∧
    portQueue .foreground (serving .foreground 0x13000000 [] three) = [⟨0x13000000, [], .external⟩] ∧
    (serving .foreground 0x13000000 [] three).getInFlight = none ∧
    decodeCommand .foreground 0x13000000 [] = .ok .rbOcc := by decide

/-- The other clauses: a state without and one with a response, a record of each source, and both kinds of answer. -/
theorem witness_StepRunsTheDecodedCommand_settle :
    reading.response = none ∧ isOwnDone (converterRecord (.adcEvtDone 0 4)) = true ∧ ({ three with response := some ⟨.ok, 0, []⟩ } : State).response = some ⟨.ok, 0, []⟩ ∧
    [Source.host, .converterRequest, .converter, .external].map (fun src => (⟨0, [], src⟩ : Packet).source) =
      [.host, .converterRequest, .converter, .external] ∧
    (⟨.cfgError, 0x16, []⟩ : Response).status = .cfgError ∧ (⟨.ok, 0, []⟩ : Response).status ≠ .cfgError := by
  decide

/-- V37 through its port: the configuration error is reported to the sink, and a second ADC.CONFIG reports nothing. -/
theorem test_step_reports_configError :
    afterStep (serving .foreground 0x20000016 [] ready) (fun t => t.host.reports) = some [.configError 0x16] ∧
      afterStep (serving .foreground 0x20000016 [] { ready with cfg := .failed, cfgErr := 0x16 })
        (fun t => t.host.reports) = some [] := by decide

/-- The two stops: no such block, no such record. -/
theorem witness_StepStopsOnlyWithoutABlockOrARecord :
    step { ready with params := { small with capacity := 0 } } = .fault .noSuchConfiguration ∧
      step (serving .interrupt 0x11000002 [] ready) = .refused .payloadNotOfLength := ⟨rfl, rfl⟩

theorem witness_PresentedCommandsWaitBehindEarlierOnes :
    (let s : State := { ready with schedule := [.present .foreground 0x13000000 []], portF := [⟨0x14000000, [], .host⟩] };
      s.params.valid = true ∧ s.schedule = [.present .foreground 0x13000000 []] ∧
      afterStep s (fun t => t.portF.map (fun p => p.word)) = some [0x14000000, 0x13000000]) := by decide

theorem witness_EnvironmentMovesLeaveTheBlockAlone :
    (let s : State := { ready with schedule := [.startEvent] };
      (∃ t, step s = .next t) ∧ ∀ c later, s.schedule ≠ .serve c :: later) :=
  ⟨⟨_, rfl⟩, by intro c later h; cases h⟩

theorem witness_InitZeroesOnceAndRefusesASecond : (State.resetWith small).inited = false ∧ three.inited = true := by
  decide

/-- A put that fits exactly, one that is one too long, and one before RB.INIT. -/
theorem witness_PutStoresThePrefixThatFits :
    three.inited = true ∧ (State.resetWith small).inited = false ∧
    after (.rbPut (List.replicate 13 7)) three (fun t => (t.occ, t.ovwCount, t.events)) = some (16, 0, []) ∧
    after (.rbPut (List.replicate 14 7)) three (fun t => (t.occ, t.ovwCount, t.events)) = some (16, 1, [.ovw 1]) := by
  decide

/-- The atomic form, before and after RB.INIT, with `len` at and beyond the occupancy. -/
theorem witness_AtomicGetReturnsTheBytesAtTheReadCursor :
    three.params.getAtomic = true ∧ three.inited = true ∧ (State.resetWith small).inited = false ∧
    answer (.rbGet 3) three = some ⟨.ok, 3, [1, 2, 3]⟩ ∧ answer (.rbGet 4) three = some ⟨.ok, 3, [1, 2, 3]⟩ := by
  decide

theorem witness_SplitGetRunsAsThreeSteps :
    reading.params.getAtomic = false ∧ reading.inited = true ∧ (State.resetWith smallSplit).inited = false := by decide

theorem witness_StepContinuesASplitGet :
    (serving .foreground 0x12000002 [] reading).params.valid = true ∧
    (serving .foreground 0x12000002 [] reading).schedule = [.serve .foreground] ∧
    (serving .foreground 0x12000002 [] reading).portF = [⟨0x12000002, [], .external⟩] ∧
    (serving .foreground 0x12000002 [] reading).getInFlight = some ⟨2, 0, none⟩ := by decide

theorem witness_UninterruptedSplitGetIsTheAtomicGet :
    (let s : State := { three with params := smallSplit };
      s.params.getAtomic = false ∧ s.inited = true ∧ s.getInFlight = none ∧
      exec (.rbGet 2) s = .next { s with getInFlight := some ⟨2, 0, none⟩, response := none } ∧
      (getContinue ⟨2, 0, none⟩ { s with getInFlight := some ⟨2, 0, none⟩, response := none }).getInFlight =
        some ⟨2, 0, some [1, 2]⟩) := ⟨rfl, rfl, rfl, rfl, rfl⟩

theorem witness_SplitGetIsUndisturbedByOtherContexts :
    RingInv reading ∧ GetInv reading ∧ reading.getInFlight = some ⟨2, 0, none⟩ ∧
      (Instr.rbPut [9]).ctx ≠ .foreground ∧ ∃ t, exec (.rbPut [9]) reading = .next t :=
  ⟨blockInv_reading.ring, blockInv_reading.get, rfl, by decide, _, rfl⟩

/-- On a ring that is full and wraps. -/
theorem witness_PutsAppendAndNeverReplaceUnreadBytes :
    RingInv wrapped ∧ (Instr.rbPut [9]).ctx = .interrupt ∧ ∃ t, exec (.rbPut [9]) wrapped = .next t :=
  ⟨ringInv_wrapped, rfl, _, rfl⟩

theorem witness_GetRemovesTheOldestBytes :
    RingInv wrapped ∧ wrapped.params.getAtomic = true ∧ wrapped.inited = true := ⟨ringInv_wrapped, rfl, rfl⟩

/-- A step that serves a put, one that continues a split get. -/
theorem witness_StepKeepsTheBlockInvariants :
    (BlockInv (serving .interrupt 0x11000001 [9] three) ∧
      ∃ t, step (serving .interrupt 0x11000001 [9] three) = .next t) ∧
    BlockInv (serving .foreground 0x12000002 [] reading) ∧
      ∃ t, step (serving .foreground 0x12000002 [] reading) = .next t :=
  ⟨⟨blockInv_three_serving, _, rfl⟩, blockInv_reading_serving, _, rfl⟩

theorem witness_QueueOrderHoldsOverEveryRun :
    BlockInv (serving .interrupt 0x11000001 [9] three) ∧
      ∃ t, runSteps 1 (serving .interrupt 0x11000001 [9] three) = .next t := ⟨blockInv_three_serving, _, rfl⟩

theorem witness_ReturnedBytesArePrefixOfStoredBytesFromReset :
    small.valid = true ∧
      ∃ t, runSteps 2 (startOf small [.present .foreground 0x10000001 [], .serve .foreground]) = .next t :=
  ⟨by decide, _, rfl⟩

theorem witness_CommandsKeepTheStoresCanonical :
    Memory.wf converted.ring ∧ Memory.wf converted.samples ∧ ∃ t, exec (.adcEvtDone 0 4) converted = .next t :=
  ⟨by decide, by decide, _, rfl⟩

theorem witness_RingReadsAnswerTheirFields : RingInv wrapped := ringInv_wrapped

theorem witness_ConfigIsTakenOnce :
    (State.resetWith small).cfg = .unconfigured ∧ (0 : BitVec 8) = 0 ∧ (0xFF : BitVec 8) ≠ 0 ∧
      ({ ready with cfg := .configured } : State).cfg ≠ .unconfigured ∧
      ({ ready with cfg := .failed } : State).cfg ≠ .unconfigured := by decide

theorem witness_DriverReadyActsOnlyWhenConfigured :
    (let s : State := { ready with cfg := .configured }; s.drvState = .notReady ∧ s.cfg = .configured) ∧
      ¬(ready.drvState = .notReady ∧ ready.cfg = .configured) := by decide

theorem witness_BufferRequestTogglesTheActiveIndex :
    ready.act = 0 ∧ ({ ready with act := 1 } : State).act = 1 := by decide

/-- Two buffer-requests around another command, in a state with no configuration and in a configured one. -/
theorem witness_ToggleLaw :
    (∃ t, runCommands [.adcEvtBufreq, .adcConfig 1, .adcEvtBufreq] ready = .next t ∧
      (ready.cfg = .unconfigured → t.cfg ≠ .configured)) ∧
    ∃ t, runCommands [.adcEvtBufreq, .adcStart] { ready with cfg := .configured } = .next t ∧
      (({ ready with cfg := .configured } : State).cfg = .unconfigured → t.cfg ≠ .configured) :=
  ⟨⟨_, rfl, by decide⟩, _, rfl, by decide⟩

/-- `n` at SB_LEN and one beyond, and before RB.INIT. -/
theorem witness_ConversionDonePutsTheSamplesLowByteFirst :
    converted.inited = true ∧ (4#8).toNat ≤ converted.params.sbLen ∧ converted.params.sbLen < (5#8).toNat ∧
      (State.resetWith small).inited = false ∧ memRead converted.samples (sampleAddress 0 3) = some 0x1122 := by decide

theorem witness_StartEntersSamplingFromReadyOrStopped :
    ({ ready with drvState := .ready } : State).drvState = .ready ∧
    ({ ready with drvState := .stopped } : State).drvState = .stopped ∧
    ready.drvState = .notReady ∧ ({ ready with drvState := .sampling } : State).drvState = .sampling ∧
    ∃ t, exec .adcStart ready = .next t := ⟨rfl, rfl, rfl, rfl, _, rfl⟩

theorem witness_StopLeavesSampling :
    ({ ready with drvState := .sampling } : State).drvState = .sampling ∧ ready.drvState ≠ .sampling ∧
    ∃ t, exec .adcStop ready = .next t := ⟨rfl, by decide, _, rfl⟩

/-- `k` at SB_LEN - 1 and at SB_LEN. -/
theorem witness_SampleWriteChangesOneCell :
    (3#7).toNat < ready.params.sbLen ∧ ready.params.sbLen ≤ (4#7).toNat ∧ ((0 : BitVec 1), (3#7)) ≠ (1, 3#7) := by
  decide

theorem witness_DriverStateFollowsTheTransitionTable :
    (transitionTable .adcStart .configured .ready).2 = some .ok ∧
      (transitionTable .adcEvtReady .failed .notReady).2 = some .noEffect := by decide

/-- A command outside every list of the statement, and one outside all but its own. -/
theorem witness_EachFieldHasItsWriters :
    (∃ t, exec .sysStatus three = .next t) ∧ Instr.sysStatus.opcode ∉ [0x10#8, 0x11#8, 0x12#8, 0x23#8] ∧
      (∃ t, exec (.rbPut [1]) three = .next t) ∧ (Instr.rbPut [1]).opcode ∉ [0x10#8, 0x12#8] :=
  ⟨⟨_, rfl⟩, by decide, ⟨_, rfl⟩, by decide⟩

/-- A command for each status the statement has a clause for. -/
theorem witness_ErrorsChangeNothingButTheFaultBit :
    answer .adcStart ready = some ⟨.notReady, 0, []⟩ ∧ answer .adcStop ready = some ⟨.noEffect, 0, []⟩ ∧
    answer (.adcEvtDone 0 5) ready = some ⟨.badOperand, 0, []⟩ ∧
    answer (.rbInit true) ready = some ⟨.outOfOrder, 0, []⟩ ∧
    answer (.adcConfig 0x16) ready = some ⟨.cfgError, 0x16, []⟩ ∧ answer .rbOcc ready = some ⟨.ok, 0, []⟩ := by decide

theorem witness_FaultIsStickyAndConfigIsWriteOnce :
    (let s : State := { three with fault := 0b0101, cfg := .failed, cfgErr := 0x16 };
      s.cfg ≠ .unconfigured ∧ ∃ t, step (serving .foreground 0x20000000 [] s) = .next t) := ⟨by decide, _, rfl⟩

theorem witness_FailedConfigurationNeverSamples :
    BlockInv (serving .foreground 0x25000000 [] failed) ∧
      (serving .foreground 0x25000000 [] failed).cfg = .failed ∧
      ∃ t, runSteps 1 (serving .foreground 0x25000000 [] failed) = .next t := ⟨blockInv_failed_serving, rfl, _, rfl⟩

theorem witness_FaultBitsMatchTheAnswersGiven :
    (let s : State := serving .interrupt 0x23000005 []
        { ready with fault := 0b0100, answered := [⟨.foreground, ⟨.outOfOrder, 0, []⟩⟩] };
      FaultHistoryInv s ∧ ∃ t, step s = .next t) := ⟨by unfold FaultHistoryInv; decide, _, rfl⟩

theorem witness_OccupancyReadingIsALowerBoundForTheNextGet :
    (∀ i ∈ [Instr.rbPut [1], .adcSwr 0 0 1], i.ctx ≠ .foreground) ∧ three.inited = true ∧
      three.params.getAtomic = true ∧ ∃ t, runCommands [Instr.rbPut [1], .adcSwr 0 0 1] three = .next t :=
  ⟨by decide, rfl, rfl, _, rfl⟩

/-! ### Witnesses: the environment agents -/

/-- T with the host in a loop state and a phase, and events waiting. -/
def hosted (l : LoopState) (p : HostPhase) (inbox : List HostEvent) : State :=
  { ready with host := { HostLoop.initial with loopState := l, phase := p, inbox := inbox } }

theorem witness_HostStartsASessionOnlyOnOk :
    (let s := hosted .idle .ready [.start]; s.host.phase = .ready ∧ s.host.inbox = [.start] ∧ s.host.loopState = .idle) ∧
    (hosted .idle .awaitStart []).host.phase = .awaitStart ∧
    (hosted .idle .awaitStart []).params.acqBaseline = false ∧
    ({ hosted .idle .awaitStart [] with params := { small with acqBaseline := true } } : State).params.acqBaseline =
      true ∧
    (hosted .streaming .awaitBaseline []).host.phase = .awaitBaseline ∧ Status.notReady ≠ .ok := by decide

theorem witness_HostDrainsAndCountsOnlySuccessfulSends :
    (let s := hosted .streaming .ready [];
      s.host.phase = .ready ∧ s.host.inbox = [] ∧ s.host.loopState = .streaming ∧ s.params.valid = true) ∧
    (hosted .streaming (.awaitChunk true) []).host.phase = .awaitChunk true ∧
    (hostReceive ⟨.ok, 1, [7]⟩ (hosted .streaming (.awaitChunk true) [])).host.bytesSent = 1 ∧
    (hostReceive ⟨.ok, 1, [7]⟩ (hosted .streaming (.awaitChunk false) [])).host.bytesSent = 0 ∧
    (hostReceive ⟨.ok, 0, []⟩ (hosted .streaming (.awaitChunk true) [])).host.sends = [] := by decide

/-- V60: the telemetry of tick 29 goes on, that of tick 30 stops. A tick, a Stop, and the two events that are ignored. -/
theorem witness_HostTickReportsAndThenStopsAtTheLimit :
    (let s := hosted .streaming .ready [.tick];
      s.host.phase = .ready ∧ s.host.inbox = [.tick] ∧ s.host.loopState = .streaming) ∧
    [[], [1], [1, 2], [1, 2, 3], [1, 2, 3, 4]].map
        (fun got => (hostReceive ⟨.ok, 9, []⟩ (hosted .streaming (.awaitTelemetry got) [])).portF.map (fun p => p.word)) =
      [[0x13000000], [0x14000000], [0x15000000], [0x16000000], [0x17000000]] ∧
    (let s := hosted .streaming (.awaitTelemetry [1, 2, 3, 4, 5]) [];
      let at29 : State := { s with host := { s.host with elapsedS := 29 } };
      let at30 : State := { s with host := { s.host with elapsedS := 30 } };
      at29.host.phase = .awaitTelemetry [1, 2, 3, 4, 5] ∧ at29.host.elapsedS < at29.params.autoStopS ∧
      at30.params.autoStopS ≤ at30.host.elapsedS ∧
      (hostReceive ⟨.ok, 6, []⟩ at29).portF = [] ∧
      (hostReceive ⟨.ok, 6, []⟩ at30).portF = [⟨0x26000000, [], .host⟩]) ∧
    (hosted .streaming .awaitStop []).host.phase = .awaitStop ∧
    (let s := hosted .streaming .ready [.stop, .tick];
      s.host.phase = .ready ∧ s.host.inbox = [.stop, .tick] ∧ s.host.loopState = .streaming ∧
      (hostTurn true s).host.inbox = []) ∧
    (hosted .streaming .ready [.start]).host.inbox = [.start] ∧ (hosted .idle .ready [.stop]).host.inbox = [.stop] := by
  decide

theorem witness_StepKeepsTheEnvironmentInvariants :
    (let s : State := { hosted .streaming .ready [.tick] with schedule := [.hostTurn true] };
      HostInv s ∧ AutoStopInv s ∧ ConverterInv s ∧ 1 ≤ s.params.autoStopS ∧ ∃ t, step s = .next t) :=
  ⟨by unfold HostInv; decide, fun _ => ⟨by decide, fun _ _ => by decide⟩, by unfold ConverterInv; decide, by decide,
    _, rfl⟩

/-- T sampling, with the converter in buffer 1 at a position. -/
def sampling (pos : Nat) (next : Option (BitVec 1)) : State :=
  { ready with
    drvState := .sampling
    converter := { Converter.initial with filling := some 1, pos := pos, next := next } }

/-- The last position of a buffer, and a state that is not sampling. -/
theorem witness_ConverterSamplesOnlyWhileTriggered :
    trigEn ready = false ∧ (sampling 3 none).converter.filling = some 1 ∧ trigEn (sampling 3 none) = true ∧
      (sampling 3 none).converter.pos < (sampling 3 none).params.sbLen ∧ (sampling 3 none).params.sbLen ≤ 128 ∧
      converterSample 5 (sampling 4 none) = sampling 4 none := by decide

/-- With a next buffer, without, and stopped; and each gate closed: not full, a write pending, a conversion-done pending, one
answered since the stop. -/
theorem witness_ConverterReportsDoneThenStartsTheNext :
    (sampling 4 (some 0)).converter.filling = some 1 ∧
      (sampling 4 (some 0)).converter.pos = (sampling 4 (some 0)).params.sbLen ∧ trigEn (sampling 4 (some 0)) = true ∧
      samplesPending (sampling 4 (some 0)) = false ∧ donePending (sampling 4 (some 0)) = false ∧
      (sampling 4 (some 0)).params.sbLen ≤ 128 ∧ (sampling 4 (some 0)).converter.next = some 0 ∧
      (sampling 4 none).converter.next = none ∧ ready.converter.filling = none ∧
      (sampling 3 none).converter.pos ≠ (sampling 3 none).params.sbLen ∧
      trigEn { sampling 4 none with drvState := .stopped } = false ∧
      samplesPending { sampling 4 none with portA := [converterRecord (.adcSwr 1 3 7)] } = true ∧
      donePending { sampling 4 none with portP := [converterRecord (.adcEvtDone 0 4)] } = true ∧
      (sampling 4 none).converter.stopReported = false ∧
      ({ Converter.initial with stopReported := true } : Converter).stopReported = true := by decide

/-- P2 lines 14 to 16: buffer 0 is full and ADC.STOP has run; once its writes are in the store it is reported, with the word of
line 16, and no buffer-request follows. While a write is still on its way it is not. -/
def fullAtStop : State :=
  { ready with
    drvState := .stopped, act := 1
    samples := [(0, 0x1111), (1, 0x2222), (2, 0x3333), (3, 0x4444)]
    converter := { Converter.initial with filling := some 0, pos := 4, next := some 1 } }

theorem test_endOfBatch_after_stop :
    (converterEndOfBatch fullAtStop).portP.map (fun p => p.word) = [0x23000004] ∧
      (converterEndOfBatch fullAtStop).converter.filling = none ∧
      converterEndOfBatch { fullAtStop with portA := [converterRecord (.adcSwr 0 3 0x4444)] } =
        { fullAtStop with portA := [converterRecord (.adcSwr 0 3 0x4444)] } := by decide

/-- The conversion-done of line 16 is answered in Stopped, after which no other may follow. -/
theorem test_step_done_after_stop :
    afterStep { fullAtStop with portP := [converterRecord (.adcEvtDone 0 4)], schedule := [.serve .interrupt] }
      (fun t => (t.eventCount, t.converter.stopReported)) = some (1, true) := by decide

/-- A converter at rest that was given buffer 1, and the driver-ready move before and after it. -/
theorem witness_ConverterStartsTheBufferItWasGiven :
    (let s : State := { sampling 0 (some 1) with converter := { Converter.initial with next := some 1 } };
      s.converter.filling = none ∧ s.converter.next = some 1 ∧ trigEn s = true) ∧
    (sampling 0 none).converter.filling ≠ none ∧ ready.converter.next = none ∧ trigEn ready = false ∧
    (let s : State := { ready with cfg := .configured };
      s.cfg = .configured ∧ s.converter.readyRaised = false) ∧
    ready.cfg ≠ .configured ∧ ({ Converter.initial with readyRaised := true } : Converter).readyRaised = true := by decide

/-- Each agent's move first on the schedule, and the session timer on and off. -/
theorem witness_StepPerformsTheMovesOfTheAgents :
    ([.sample 5, .startBuffer, .endOfBatch, .driverReady, .startEvent, .stopEvent, .tick, .hostTurn true] : List Move).all
      (fun m => ({ ready with schedule := [m] } : State).params.valid &&
        ({ ready with schedule := [m] } : State).schedule == [m]) = true ∧
    ready.host.timerOn = false ∧ ({ HostLoop.initial with timerOn := true } : HostLoop).timerOn = true := by decide

/-! ### Witnesses: the handoff protocol -/

/-- T sampling: buffer 0 is full and its conversion-done is about to be delivered, buffer 1 is being filled. -/
def handingOver : State :=
  { ready with
    cfg := .configured, drvState := .sampling, act := 1
    samples := [(0, 0xAABB), (1, 0xCCDD), (2, 0xEEFF), (3, 0x1122), (128, 0x0001)]
    portP := [converterRecord (.adcEvtDone 0 4), converterRecord .adcEvtBufreq]
    portA := [converterRecord (.adcSwr 1 1 0x0002)]
    schedule := [.serve .interrupt]
    converter := { filling := some 1, pos := 2, next := none, readyRaised := true, stopReported := false } }

theorem envHandoff_handingOver : EnvHandoff handingOver where
  valid := by decide
  alone := by
    intro m hm w payload
    simp only [handingOver, List.mem_singleton] at hm
    subst hm
    constructor <;> simp
  elsewhere := by decide
  configured := by decide
  unready := by decide
  pos_le := by decide
  notifications := by
    refine ⟨[.adcEvtDone 0 4, .adcEvtBufreq], rfl, ?_, ⟨rfl, .inr rfl⟩, ?_⟩
    · intro i hi
      rcases List.mem_cons.1 hi with rfl | hi
      · exact ⟨rfl, by simp⟩
      · obtain rfl := List.mem_singleton.1 hi
        exact ⟨rfl, by simp⟩
    · intro b hb
      have h0 : b = 0 := by simp [doneOf] at hb; exact hb.1
      subst h0
      unfold bufferWritten
      decide
  samples := ⟨1, [0x0002], rfl, rfl, by unfold bufferWritten; decide⟩

/-- A step while one conversion-done is pending, one while `trig_en` is 0, and a conversion-done that arrives after a stop. -/
theorem witness_AtMostOneConversionDoneArrivesAfterAStop :
    donesPending handingOver ≤ 1 ∧ (∃ t, step handingOver = .next t) ∧
    (let s : State := { handingOver with drvState := .stopped };
      trigEn s = false ∧ donesPending s ≤ 1 ∧ donesWhileStopped 1 s = 1 ∧ ∃ t, step s = .next t) :=
  ⟨by decide, ⟨_, rfl⟩, rfl, by decide, by decide, ⟨_, rfl⟩⟩

theorem witness_HandoffProtocolHoldsAfterReset :
    small.valid = true ∧
      ∀ m ∈ [Move.driverReady], ∀ w payload, m ≠ .present .interrupt w payload ∧ m ≠ .present .converter w payload :=
  ⟨by decide, by simp⟩

theorem witness_StepKeepsTheHandoffProtocol : EnvHandoff handingOver ∧ ∃ t, step handingOver = .next t :=
  ⟨envHandoff_handingOver, _, rfl⟩

/-- The conversion-done at the head of port P, and it as a record that is pending. -/
theorem witness_ConversionDoneCopiesTheCompletedBuffer :
    EnvHandoff handingOver ∧ nextCommand handingOver = some (.adcEvtDone 0 4) ∧ (∃ t, step handingOver = .next t) ∧
      converterRecord (doneOf handingOver 0) ∈ handingOver.portP :=
  ⟨envHandoff_handingOver, by decide, ⟨_, rfl⟩, by decide⟩

/-- One delivery: the buffer delivered is 0. -/
theorem witness_ConversionDonesAlternate : EnvHandoff handingOver ∧ stepDone handingOver = [0] :=
  ⟨envHandoff_handingOver, by decide⟩

/-! ### Witnesses: infinite runs -/

/-- The instance T right after reset meets the invariants. -/
theorem blockInv_reset : BlockInv (State.resetWith small) where
  ring :=
    { valid := by decide, occ_le := by decide, wcur_lt := by decide, rcur_lt := by decide, cursors := by decide
      totals := by decide, written_lt := by decide, read_lt := by decide, ovw_lt := by decide, held := by decide
      ring_wf := by decide, ring_range := by decide }
  get := by intro g h; simp [State.resetWith] at h
  adc :=
    { ready_configured := by decide, err_failed := by decide, events_lt := by decide, samples_wf := by decide
      samples_range := by decide }
  faultBits := by unfold FaultInv; decide
  uninit := by unfold UninitInv; decide

/-- An infinite run from reset that never comes back to a state: a Start event at every move. -/
theorem infiniteRun_starts :
    InfiniteRun (State.resetWith small) (fun _ => .startEvent)
      (fun n => { State.resetWith small with host := { HostLoop.initial with inbox := List.replicate n .start } }) where
  start := rfl
  next := by
    intro n
    rw [List.replicate_succ']
    rfl

theorem witness_EveryDrawSequenceHasItsInfiniteRun :
    (State.resetWith small).params.valid = true ∧ recordsWhole (State.resetWith small) ∧
      wholeRecord .interrupt 0x11000001 [9] ∧
      ∀ (n : Nat) (c : Ctx) (w : Word) (payload : List Byte),
        (fun _ : Nat => Move.present .interrupt 0x11000001 [9]) n = .present c w payload → wholeRecord c w payload := by
  have hr : wholeRecord .interrupt 0x11000001 [9] := by unfold wholeRecord; decide
  refine ⟨by decide, ?_, hr, ?_⟩
  · intro c p hp
    cases c <;> cases hp
  · rintro n c w payload ⟨⟩
    exact hr

theorem witness_InfiniteRunsKeepTheInvariantsAndTheQueueOrder :
    BlockInv (State.resetWith small) ∧ ∃ draws run, InfiniteRun (State.resetWith small) draws run :=
  ⟨blockInv_reset, _, _, infiniteRun_starts⟩

end Sys2Proof.Machine.Tests
end

/-! # The statements of 00_scope: the step, where it stops, and the puts of context P (R6, R9, R11, R72, R98, R125) -/

namespace Sys2Proof.Machine

/-! ### What a step does, by the next move of its schedule -/

@[simp] theorem portQueue_withSchedule (c : Ctx) (l : List Move) (s : State) :
    portQueue c (withSchedule l s) = portQueue c s := by cases c <;> rfl

@[simp] theorem getPending_withSchedule (c : Ctx) (l : List Move) (s : State) :
    getPending c (withSchedule l s) = getPending c s := by cases c <;> rfl

/-- Only port F can be in the middle of a split RB.GET (R240). -/
theorem getPending_eq_none {c : Ctx} {s : State} (h : c = .foreground → s.getInFlight = none) :
    getPending c s = none := by
  cases c with
  | foreground => exact h rfl
  | interrupt | converter | reserved => rfl

theorem step_of_invalid {s : State} (hv : s.params.valid = false) : step s = .fault .noSuchConfiguration := by
  simp [step, performNext, hv]

theorem step_of_schedule_nil {s : State} (hv : s.params.valid = true) (hs : s.schedule = []) : step s = .next s := by
  simp [step, performNext, hv, hs]

theorem step_of_schedule_cons {s : State} {m : Move} {later : List Move} (hv : s.params.valid = true)
    (hs : s.schedule = m :: later) : step s = performMove m (withSchedule later s) := by
  simp [step, performNext, hv, hs, withSchedule]

theorem serve_of_portQueue_nil {c : Ctx} {s : State} (hq : portQueue c s = []) : serve c s = .next s := by
  simp [serve, hq]

theorem serve_of_portQueue_cons {c : Ctx} {p : Packet} {rest : List Packet} {s : State}
    (hq : portQueue c s = p :: rest) : serve c s = onNext (settle c p rest) (runPacket c p s) := by
  simp [serve, hq]

theorem runPacket_of_getPending_none {c : Ctx} {s : State} (p : Packet) (hg : getPending c s = none) :
    runPacket c p s = runRecord c p s := by
  simp [runPacket, hg]

theorem runPacket_of_getPending_some {c : Ctx} {s : State} {g : GetProgress} (p : Packet)
    (hg : getPending c s = some g) : runPacket c p s = .next (getContinue g s) := by
  simp [runPacket, hg]

theorem runRecord_of_decodeCommand_ok {c : Ctx} {p : Packet} {i : Instr} (s : State)
    (hd : decodeCommand c p.word p.payload = .ok i) : runRecord c p s = exec i s := by
  simp [runRecord, hd]

/-! ### What becomes of an answer -/

theorem settle_of_response_none (c : Ctx) (p : Packet) (rest : List Packet) {t : State} (h : t.response = none) :
    settle c p rest t = t := by
  simp [settle, h]

/-- An answered command leaves its port, its answer goes into the history and back to who presented the command (R98). -/
theorem settle_of_response_some (c : Ctx) (p : Packet) (rest : List Packet) {t : State} {r : Response}
    (h : t.response = some r) :
    settle c p rest t = deliver p.source r
      (setPortQueue c rest
        { t with answered := t.answered ++ [⟨c, r⟩], converter := converterAfterAnswer p t }) := by
  cases c <;> simp [settle, h, setPortQueue]

theorem deliver_external_of_not_cfgError {r : Response} (s : State) (h : r.status ≠ .cfgError) :
    deliver .external r s = s := if_neg h

theorem deliver_external_of_cfgError {r : Response} (s : State) (h : r.status = .cfgError) :
    deliver .external r s = { s with host := { s.host with reports := s.host.reports ++ [.configError r.value] } } :=
  if_pos h

/-- Settles O8: the step is taken apart move, port, record, decoded command, and the answer by its source. -/
theorem stepRunsTheDecodedCommand : Obligations.StepRunsTheDecodedCommand := by
  refine ⟨?_, fun c p rest t h => settle_of_response_none c p rest h, ?_⟩
  · intro c p rest later i s hv hs hq hg hd
    have hq' : portQueue c (withSchedule later s) = p :: rest := by simpa using hq
    have hg' : getPending c (withSchedule later s) = none := by simpa using getPending_eq_none hg
    calc step s = serve c (withSchedule later s) := step_of_schedule_cons hv hs
      _ = onNext (settle c p rest) (runPacket c p (withSchedule later s)) := serve_of_portQueue_cons hq'
      _ = onNext (settle c p rest) (exec i (withSchedule later s)) := by
        rw [runPacket_of_getPending_none p hg', runRecord_of_decodeCommand_ok _ hd]
  · intro c p rest r t u hr hu
    have hset : settle c p rest t = deliver p.source r u := by
      rw [hu]
      exact settle_of_response_some c p rest hr
    rw [hset]
    refine ⟨?_, ?_, ?_, ?_, ?_⟩
    · intro hp; rw [hp]; rfl
    · intro hp; rw [hp]; rfl
    · intro hp; rw [hp]; rfl
    · intro hp hst; rw [hp, deliver_external_of_not_cfgError u hst]
    · intro hp hst; rw [hp, deliver_external_of_cfgError u hst]

/-! ### Where the step stops -/

/-- Every command has a next state in every state (R127, R162, R200). -/
theorem exists_exec_eq_next (i : Instr) (s : State) : ∃ t, exec i s = .next t := by
  cases i with
  | sysStatus | rbOcc | rbWcur | rbRcur | rbTotrd | rbTotwr | rbOvwc | adcEvtBufreq | adcEvtFin | adcBytes =>
    exact ⟨_, rfl⟩
  | rbInit | rbPut | rbGet | adcConfig | adcEvtReady | adcEvtDone | adcStart | adcStop | adcSwr =>
    simp only [exec, execRbInit, execRbPut, execRbGet, execAdcConfig, execAdcEvtReady, execAdcEvtDone, execAdcStart,
      execAdcStop, execAdcSwr]
    repeat' split
    all_goals exact ⟨_, rfl⟩

/-- A fresh record is refused only where it is no command record (log 7). -/
theorem runRecord_next_or_refused (c : Ctx) (p : Packet) (s : State) :
    (∃ t, runRecord c p s = .next t) ∨
      (runRecord c p s = .refused .payloadNotOfLength ∧
        decodeCommand c p.word p.payload = .error .payloadNotOfLength) := by
  unfold runRecord
  split
  case h_1 i hd => exact .inl (exists_exec_eq_next i s)
  case h_6 hd => exact .inr ⟨rfl, hd⟩
  all_goals exact .inl ⟨_, rfl⟩

theorem runPacket_next_or_refused (c : Ctx) (p : Packet) (s : State) :
    (∃ t, runPacket c p s = .next t) ∨
      (runPacket c p s = .refused .payloadNotOfLength ∧
        decodeCommand c p.word p.payload = .error .payloadNotOfLength) := by
  cases hg : getPending c s with
  | some g => exact .inl ⟨_, runPacket_of_getPending_some p hg⟩
  | none => rw [runPacket_of_getPending_none p hg]; exact runRecord_next_or_refused c p s

theorem serve_next_or_refused (c : Ctx) (s : State) :
    (∃ t, serve c s = .next t) ∨
      (serve c s = .refused .payloadNotOfLength ∧
        ∃ p rest, portQueue c s = p :: rest ∧ decodeCommand c p.word p.payload = .error .payloadNotOfLength) := by
  cases hq : portQueue c s with
  | nil => exact .inl ⟨s, serve_of_portQueue_nil hq⟩
  | cons p rest =>
    rw [serve_of_portQueue_cons hq]
    rcases runPacket_next_or_refused c p s with ⟨t, ht⟩ | ⟨hr, hd⟩
    · exact .inl ⟨settle c p rest t, by rw [ht]; rfl⟩
    · exact .inr ⟨by rw [hr]; rfl, p, rest, rfl, hd⟩

/-- Settles O10: by the next move, of which only the serving of a port can stop. -/
theorem stepStopsOnlyWithoutABlockOrARecord : Obligations.StepStopsOnlyWithoutABlockOrARecord := by
  refine fun s => ⟨step_of_invalid, fun hv => ?_⟩
  cases hs : s.schedule with
  | nil => exact .inl ⟨s, step_of_schedule_nil hv hs⟩
  | cons m later =>
    rw [step_of_schedule_cons hv hs]
    cases m with
    | serve c =>
      refine (serve_next_or_refused c (withSchedule later s)).imp_right ?_
      rintro ⟨hr, p, rest, hq, hd⟩
      exact ⟨hr, c, p, rest, later, rfl, by simpa using hq, hd⟩
    | present | sample | startBuffer | endOfBatch | driverReady | startEvent | stopEvent | tick | hostTurn =>
      exact .inl ⟨_, rfl⟩

/-! ### The puts of context P and the queue -/

theorem exec_rbPut_of_inited (data : List Byte) {s : State} (h : s.inited = true) :
    exec (.rbPut data) s =
      .next (respond .ok (BitVec.ofNat 32 (putAccepted s data.length)) [] (putCore data s)) := if_pos h

theorem exec_rbPut_of_not_inited (data : List Byte) {s : State} (h : s.inited = false) :
    exec (.rbPut data) s = .next (reportError .outOfOrder s) := by
  simp [exec, execRbPut, h]

theorem exec_adcEvtDone_of_legal (idx : BitVec 1) {n : BitVec 8} {s : State} (h : s.inited = true)
    (hn : countLegal s n = true) :
    exec (.adcEvtDone idx n) s =
      .next (respond .ok (BitVec.ofNat 32 (putAccepted s (2 * n.toNat))) []
        { putCore (bufferBytes s idx n.toNat) (advanceDraws n.toNat s) with
          eventCount := counterAdd s s.eventCount 1 }) := (if_pos h).trans (if_pos hn)

theorem exec_adcEvtDone_of_not_legal (idx : BitVec 1) {n : BitVec 8} {s : State} (h : s.inited = true)
    (hn : countLegal s n = false) : exec (.adcEvtDone idx n) s = .next (reportError .badOperand s) := by
  simp [exec, execAdcEvtDone, h, hn]

theorem exec_adcEvtDone_of_not_inited (idx : BitVec 1) (n : BitVec 8) {s : State} (h : s.inited = false) :
    exec (.adcEvtDone idx n) s = .next (reportError .outOfOrder s) := by
  simp [exec, execAdcEvtDone, h]

theorem storedBytes_of_not_inited (i : Instr) {s : State} (h : s.inited = false) : storedBytes i s = [] := by
  simp [storedBytes, h]

theorem storedBytes_rbPut (data : List Byte) {s : State} (h : s.inited = true) :
    storedBytes (.rbPut data) s = data.take (putAccepted s data.length) := if_pos h

theorem storedBytes_adcEvtDone (idx : BitVec 1) (n : BitVec 8) {s : State} (h : s.inited = true) :
    storedBytes (.adcEvtDone idx n) s =
      if countLegal s n then (bufferBytes s idx n.toNat).take (putAccepted s (2 * n.toNat)) else [] := if_pos h

/-- Only RB.PUT and ADC.EVT_DONE store bytes (R123). -/
theorem storedBytes_of_not_put {i : Instr} (s : State) (hi : i.opcode ≠ 0x11#8 ∧ i.opcode ≠ 0x23#8) :
    storedBytes i s = [] := by
  unfold storedBytes
  split
  · split
    · exact absurd rfl hi.1
    · exact absurd rfl hi.2
    · rfl
  · rfl

@[simp] theorem occupied_respond (st : Status) (v : Word) (d : List Byte) (s : State) :
    occupied (respond st v d s) = occupied s := rfl

@[simp] theorem occupied_reportError (st : Status) (s : State) : occupied (reportError st s) = occupied s := rfl

@[simp] theorem occupied_advanceDraws (k : Nat) (s : State) : occupied (advanceDraws k s) = occupied s := rfl

theorem ringInv_advanceDraws {s : State} (h : RingInv s) (k : Nat) : RingInv (advanceDraws k s) :=
  ringInv_congr (s := s) rfl rfl rfl rfl rfl rfl rfl rfl h

/-- Reading a buffer moves on the free values only, so the put that follows accepts as much. -/
@[simp] theorem putAccepted_advanceDraws (k len : Nat) (s : State) :
    putAccepted (advanceDraws k s) len = putAccepted s len := rfl

/-- A command other than RB.INIT, RB.GET and the two puts leaves the queue alone. -/
theorem occupied_of_exec_not_ring {i : Instr} {s t : State} (hi : i.opcode ∉ [0x10#8, 0x11#8, 0x12#8, 0x23#8])
    (h : exec i s = .next t) : occupied t = occupied s := by
  cases exec_effect h with
  | answers | fails | configures | failsConfig | becomesReady | toggles | finishes | starts | stops | writesSample =>
    rfl
  | inits _ he | puts _ he | gets _ he | beginsGet _ he | converts _ _ he =>
    subst he
    simp [Instr.opcode] at hi

/-- RB.PUT appends what it stores (R121). -/
theorem occupied_of_exec_rbPut {data : List Byte} {s t : State} (hr : RingInv s) (h : exec (.rbPut data) s = .next t) :
    occupied t = occupied s ++ (storedBytes (.rbPut data) s).map some := by
  cases hin : s.inited with
  | true =>
    rw [exec_rbPut_of_inited data hin] at h
    cases h
    rw [occupied_respond, occupied_putCore hr, storedBytes_rbPut data hin]
  | false =>
    rw [exec_rbPut_of_not_inited data hin] at h
    cases h
    simp [storedBytes_of_not_inited _ hin]

/-- ADC.EVT_DONE appends what it stores of the buffer's bytes (R153). -/
theorem occupied_of_exec_adcEvtDone {idx : BitVec 1} {n : BitVec 8} {s t : State} (hr : RingInv s)
    (h : exec (.adcEvtDone idx n) s = .next t) :
    occupied t = occupied s ++ (storedBytes (.adcEvtDone idx n) s).map some := by
  cases hin : s.inited with
  | true =>
    rw [storedBytes_adcEvtDone idx n hin]
    cases hn : countLegal s n with
    | true =>
      rw [exec_adcEvtDone_of_legal idx hin hn] at h
      cases h
      have hput := occupied_putCore (ringInv_advanceDraws hr n.toNat) (bufferBytes s idx n.toNat)
      rw [occupied_advanceDraws, putAccepted_advanceDraws, length_bufferBytes] at hput
      exact hput
    | false =>
      rw [exec_adcEvtDone_of_not_legal idx hin hn] at h
      cases h
      simp
  | false =>
    rw [exec_adcEvtDone_of_not_inited idx n hin] at h
    cases h
    simp [storedBytes_of_not_inited _ hin]

/-- Settles O20: by the commands of context P, of which two run the put core and the others leave the queue alone. -/
theorem putsAppendAndNeverReplaceUnreadBytes : Obligations.PutsAppendAndNeverReplaceUnreadBytes := by
  intro i s t hr hc h
  cases i with
  | rbPut data => exact occupied_of_exec_rbPut hr h
  | adcEvtDone idx n => exact occupied_of_exec_adcEvtDone hr h
  | adcEvtReady | adcEvtBufreq | adcEvtFin =>
    rw [occupied_of_exec_not_ring (by simp [Instr.opcode]) h, storedBytes_of_not_put s (by simp [Instr.opcode])]
    simp
  | sysStatus | rbInit | rbGet | rbOcc | rbWcur | rbRcur | rbTotrd | rbTotwr | rbOvwc | adcConfig | adcStart | adcStop
    | adcBytes | adcSwr => cases hc

end Sys2Proof.Machine

/-! # The statements of 10_state: writers, invariants, the fault register and the order of the queue (R20 to R44) -/

namespace Sys2Proof.Machine

/-! ### Which command writes which field (R21 to R28, R31 to R35, R42) -/

/-- No command touches the parameters, the ports, the agents, or the model's own history and schedule. -/
theorem params_of_exec {i : Instr} {s t : State} (h : exec i s = .next t) : t.params = s.params := by
  cases exec_effect h <;> simp

theorem answered_of_exec {i : Instr} {s t : State} (h : exec i s = .next t) : t.answered = s.answered := by
  cases exec_effect h <;> simp

theorem agents_of_exec {i : Instr} {s t : State} (h : exec i s = .next t) :
    t.schedule = s.schedule ∧ t.portF = s.portF ∧ t.portP = s.portP ∧ t.portA = s.portA ∧ t.portX = s.portX ∧
      t.converter = s.converter ∧ t.host = s.host := by
  cases exec_effect h <;> simp

theorem ring_of_exec {i : Instr} {s t : State} (h : exec i s = .next t) (hi : i.opcode ∉ [0x11#8, 0x23#8]) :
    t.ring = s.ring := by
  cases exec_effect h with
  | puts _ he | converts _ _ he => simp [he, Instr.opcode] at hi
  | _ => rfl

theorem writeSide_of_exec {i : Instr} {s t : State} (h : exec i s = .next t)
    (hi : i.opcode ∉ [0x10#8, 0x11#8, 0x23#8]) :
    t.wcur = s.wcur ∧ t.bytesWritten = s.bytesWritten ∧ t.ovwCount = s.ovwCount := by
  cases exec_effect h with
  | inits _ he | puts _ he | converts _ _ he => simp [he, Instr.opcode] at hi
  | _ => exact ⟨rfl, rfl, rfl⟩

theorem readSide_of_exec {i : Instr} {s t : State} (h : exec i s = .next t) (hi : i.opcode ∉ [0x10#8, 0x12#8]) :
    t.rcur = s.rcur ∧ t.bytesRead = s.bytesRead ∧ t.getInFlight = s.getInFlight := by
  cases exec_effect h with
  | inits _ he | gets _ he | beginsGet _ he => simp [he, Instr.opcode] at hi
  | puts | converts => simp
  | _ => exact ⟨rfl, rfl, rfl⟩

theorem occ_of_exec {i : Instr} {s t : State} (h : exec i s = .next t)
    (hi : i.opcode ∉ [0x10#8, 0x11#8, 0x12#8, 0x23#8]) : t.occ = s.occ := by
  cases exec_effect h with
  | inits _ he | puts _ he | converts _ _ he | gets _ he | beginsGet _ he => simp [he, Instr.opcode] at hi
  | _ => rfl

theorem hen_inited_of_exec {i : Instr} {s t : State} (h : exec i s = .next t) (hi : i.opcode ≠ 0x10#8) :
    t.hen = s.hen ∧ t.inited = s.inited := by
  cases exec_effect h with
  | inits _ he => simp [he, Instr.opcode] at hi
  | puts | converts => simp
  | _ => exact ⟨rfl, rfl⟩

theorem samples_of_exec {i : Instr} {s t : State} (h : exec i s = .next t) (hi : i.opcode ≠ 0x28#8) :
    t.samples = s.samples := by
  cases exec_effect h with
  | writesSample _ _ _ he => simp [he, Instr.opcode] at hi
  | puts | converts => simp
  | _ => rfl

theorem act_of_exec {i : Instr} {s t : State} (h : exec i s = .next t) (hi : i.opcode ∉ [0x20#8, 0x22#8]) :
    t.act = s.act := by
  cases exec_effect h with
  | configures he | toggles he => simp [he, Instr.opcode] at hi
  | puts | converts => simp
  | _ => rfl

theorem eventCount_of_exec {i : Instr} {s t : State} (h : exec i s = .next t) (hi : i.opcode ≠ 0x23#8) :
    t.eventCount = s.eventCount := by
  cases exec_effect h with
  | converts _ _ he => simp [he, Instr.opcode] at hi
  | puts => simp
  | _ => rfl

theorem drvState_of_exec {i : Instr} {s t : State} (h : exec i s = .next t)
    (hi : i.opcode ∉ [0x21#8, 0x25#8, 0x26#8]) : t.drvState = s.drvState := by
  cases exec_effect h with
  | becomesReady he | starts he | stops he => simp [he, Instr.opcode] at hi
  | puts | converts => simp
  | _ => rfl

theorem cfg_of_exec {i : Instr} {s t : State} (h : exec i s = .next t) (hi : i.opcode ≠ 0x20#8) :
    t.cfg = s.cfg ∧ t.cfgErr = s.cfgErr := by
  cases exec_effect h with
  | configures he | failsConfig _ he => simp [he, Instr.opcode] at hi
  | puts | converts => simp
  | _ => exact ⟨rfl, rfl⟩

theorem events_of_exec {i : Instr} {s t : State} (h : exec i s = .next t)
    (hi : i.opcode ∉ [0x11#8, 0x23#8, 0x24#8]) : t.events = s.events := by
  cases exec_effect h with
  | puts _ he | converts _ _ he | finishes he => simp [he, Instr.opcode] at hi
  | _ => rfl

/-- Settles O39: field by field, the effects that write it. -/
theorem eachFieldHasItsWriters : Obligations.EachFieldHasItsWriters := fun _ _ _ h =>
  ⟨ring_of_exec h, writeSide_of_exec h, readSide_of_exec h, occ_of_exec h, hen_inited_of_exec h, samples_of_exec h,
    act_of_exec h, eventCount_of_exec h, drvState_of_exec h, cfg_of_exec h, events_of_exec h, params_of_exec h,
    answered_of_exec h, agents_of_exec h⟩

/-! ### Properties that every step keeps -/

/-- What the block does when it serves a record: a command, the next step of a split RB.GET (R240), or the report of an
illegal command (R96). -/
inductive Serves (s : State) : State → Prop
  | command (i : Instr) (u : State) (h : exec i s = .next u) : Serves s u
  | getStep (g : GetProgress) (h : s.getInFlight = some g) : Serves s (getContinue g s)
  | illegal : Serves s (reportIllegal s)

theorem getInFlight_of_agentsOnly {s t : State} (h : AgentsOnly s t) : t.getInFlight = s.getInFlight := by
  obtain ⟨_, _, _, _, _, _, _, rfl⟩ := h
  rfl

/-- A step is moves of the agents only, or these around one record served and its answer recorded. -/
theorem step_agents_or_serves {s t : State} (h : step s = .next t) :
    AgentsOnly s t ∨ ∃ s' u c, AgentsOnly s s' ∧ Serves s' u ∧ AgentsOnly (recordAnswer c u) t := by
  cases step_effect h with
  | agents ha => exact .inl ha
  | runs i s' u _ hs _ he ht => exact .inr ⟨s', u, _, hs, .command i u he, ht⟩
  | continues g s' _ hs hg ht => exact .inr ⟨s', _, _, hs, .getStep g ((getInFlight_of_agentsOnly hs).trans hg), ht⟩
  | illegal c s' _ hs ht => exact .inr ⟨s', _, c, hs, .illegal, ht⟩

/-- A property that the agents' moves and the serving of a record keep is kept by every step. -/
theorem step_keeps {P : State → Prop} (hagents : ∀ {s t}, AgentsOnly s t → P s → P t)
    (hserves : ∀ {s u} (c : Ctx), Serves s u → P s → P (recordAnswer c u)) {s t : State} (hs : P s)
    (h : step s = .next t) : P t := by
  rcases step_agents_or_serves h with ha | ⟨s', u, c, ha, hu, ht⟩
  · exact hagents ha hs
  · exact hagents ht (hserves c hu (hagents ha hs))

theorem recordAnswer_of_response_none (c : Ctx) {s : State} (h : s.response = none) : recordAnswer c s = s := by
  simp [recordAnswer, h]

theorem recordAnswer_of_response_some (c : Ctx) {s : State} {r : Response} (h : s.response = some r) :
    recordAnswer c s = { s with answered := s.answered ++ [⟨c, r⟩] } := by
  simp [recordAnswer, h]

/-- Recording an answer changes the history of answers and nothing else. -/
theorem recordAnswer_eq (c : Ctx) (s : State) : ∃ l, recordAnswer c s = { s with answered := l } := by
  unfold recordAnswer
  split <;> exact ⟨_, rfl⟩

/-! ### The fault register and the configuration (R34, R35, R37, R231) -/

/-- The fault bit of the status now answered, 0 if nothing is answered (R201). -/
def answerFaultBit (s : State) : BitVec 4 := (s.response.map fun r => r.status.faultBit).getD 0

/-- A command adds the fault bit of its answer to `fault`. -/
theorem fault_of_exec {i : Instr} {s t : State} (h : exec i s = .next t) :
    t.fault = s.fault ||| answerFaultBit t := by
  cases exec_effect h with
  | answers st _ hst => rcases hst with rfl | rfl | rfl <;> simp [answerFaultBit, Status.faultBit]
  | _ => simp [answerFaultBit, Status.faultBit]

theorem fault_of_serves {s u : State} (h : Serves s u) : u.fault = s.fault ||| answerFaultBit u := by
  cases h with
  | command i _ he => exact fault_of_exec he
  | getStep g =>
    unfold getContinue
    split <;> simp [answerFaultBit, Status.faultBit]
  | illegal => simp [answerFaultBit, Status.faultBit]

/-- Once `cfg` has left Unconfigured no command changes it or `cfg_err`. -/
theorem cfg_of_exec_of_configured {i : Instr} {s t : State} (h : exec i s = .next t) (hc : s.cfg ≠ .unconfigured) :
    t.cfg = s.cfg ∧ t.cfgErr = s.cfgErr := by
  cases exec_effect h with
  | configures _ hu | failsConfig _ _ _ hu => exact absurd hu hc
  | puts | converts => simp
  | _ => exact ⟨rfl, rfl⟩

@[simp] theorem getContinue_params (g : GetProgress) (s : State) : (getContinue g s).params = s.params := by
  unfold getContinue; split <;> rfl

@[simp] theorem getContinue_cfg (g : GetProgress) (s : State) : (getContinue g s).cfg = s.cfg := by
  unfold getContinue; split <;> rfl

@[simp] theorem getContinue_cfgErr (g : GetProgress) (s : State) : (getContinue g s).cfgErr = s.cfgErr := by
  unfold getContinue; split <;> rfl

@[simp] theorem getContinue_answered (g : GetProgress) (s : State) : (getContinue g s).answered = s.answered := by
  unfold getContinue; split <;> rfl

theorem and_or_absorb (f b : BitVec 4) : f &&& (f ||| b) = f := by
  ext i hi
  simpa using Or.inl

/-- `t` still has the fault bits of `s`, its configuration if it was taken, and its parameters. -/
def KeepsFaultAndConfig (s t : State) : Prop :=
  s.fault &&& t.fault = s.fault ∧ (s.cfg ≠ .unconfigured → t.cfg = s.cfg ∧ t.cfgErr = s.cfgErr) ∧ t.params = s.params

theorem KeepsFaultAndConfig.refl (s : State) : KeepsFaultAndConfig s s := ⟨BitVec.and_self, fun _ => ⟨rfl, rfl⟩, rfl⟩

theorem KeepsFaultAndConfig.trans {s t u : State} (h : KeepsFaultAndConfig s t) (h' : KeepsFaultAndConfig t u) :
    KeepsFaultAndConfig s u := by
  obtain ⟨hf, hc, hp⟩ := h
  obtain ⟨hf', hc', hp'⟩ := h'
  refine ⟨?_, fun hs => ?_, hp'.trans hp⟩
  · calc s.fault &&& u.fault = s.fault &&& t.fault &&& u.fault := by rw [hf]
      _ = s.fault := by rw [BitVec.and_assoc, hf', hf]
  · obtain ⟨h1, h2⟩ := hc hs
    obtain ⟨h3, h4⟩ := hc' (h1 ▸ hs)
    exact ⟨h3.trans h1, h4.trans h2⟩

theorem keepsFaultAndConfig_of_agentsOnly {s t : State} (h : AgentsOnly s t) : KeepsFaultAndConfig s t := by
  obtain ⟨_, _, _, _, _, _, _, rfl⟩ := h
  exact .refl s

theorem keepsFaultAndConfig_recordAnswer (c : Ctx) (s : State) : KeepsFaultAndConfig s (recordAnswer c s) := by
  obtain ⟨l, hl⟩ := recordAnswer_eq c s
  rw [hl]
  exact .refl s

theorem keepsFaultAndConfig_of_serves {s u : State} (h : Serves s u) : KeepsFaultAndConfig s u := by
  refine ⟨by rw [fault_of_serves h, and_or_absorb], ?_⟩
  cases h with
  | command i _ he => exact ⟨cfg_of_exec_of_configured he, params_of_exec he⟩
  | getStep | illegal => simp

/-- Settles O41: fault bits are only added and the configuration is written only from Unconfigured. -/
theorem faultIsStickyAndConfigIsWriteOnce : Obligations.FaultIsStickyAndConfigIsWriteOnce := fun s _ =>
  step_keeps (P := KeepsFaultAndConfig s) (fun ha hs => hs.trans (keepsFaultAndConfig_of_agentsOnly ha))
    (fun c hu hs => (hs.trans (keepsFaultAndConfig_of_serves hu)).trans (keepsFaultAndConfig_recordAnswer c _))
    (.refl s)

/-! ### The fault register and the history of answers (R199, R201) -/

theorem Status.faultBit_getLsbD_zero (st : Status) : st.faultBit.getLsbD 0 = (st == .illegal) := by
  cases st <;> rfl

theorem Status.faultBit_getLsbD_one (st : Status) : st.faultBit.getLsbD 1 = (st == .badOperand) := by
  cases st <;> rfl

theorem Status.faultBit_getLsbD_two (st : Status) : st.faultBit.getLsbD 2 = (st == .outOfOrder) := by
  cases st <;> rfl

theorem answered_of_serves {s u : State} (h : Serves s u) : u.answered = s.answered := by
  cases h with
  | command i _ he => exact answered_of_exec he
  | getStep | illegal => simp

/-- An answer recorded stands in the history beside those that stood there. -/
theorem answeredWith_of_recordAnswer {s u : State} {r : Response} (c : Ctx) (ha : u.answered = s.answered)
    (hr : u.response = some r) (st : Status) :
    answeredWith (recordAnswer c u) st = (answeredWith s st || r.status == st) := by
  simp [recordAnswer_of_response_some c hr, answeredWith, ha]

theorem faultHistoryInv_of_agentsOnly {s t : State} (h : AgentsOnly s t) (hs : FaultHistoryInv s) :
    FaultHistoryInv t := by
  obtain ⟨_, _, _, _, _, _, _, rfl⟩ := h
  exact hs

/-- The bit an answer sets is that of the status it puts into the history. -/
theorem faultHistoryInv_of_serves {s u : State} (c : Ctx) (h : Serves s u) (hs : FaultHistoryInv s) :
    FaultHistoryInv (recordAnswer c u) := by
  have hf := fault_of_serves h
  have ha := answered_of_serves h
  obtain ⟨h0, h1, h2⟩ := hs
  cases hr : u.response with
  | none =>
    rw [recordAnswer_of_response_none c hr]
    simp only [answerFaultBit, hr] at hf
    simp_all [FaultHistoryInv, answeredWith]
  | some r =>
    have hfr : (recordAnswer c u).fault = s.fault ||| r.status.faultBit := by
      simp [recordAnswer_of_response_some c hr, hf, answerFaultBit, hr]
    simp only [FaultHistoryInv, hfr, answeredWith_of_recordAnswer c ha hr, BitVec.getLsbD_or, h0, h1, h2,
      Status.faultBit_getLsbD_zero, Status.faultBit_getLsbD_one, Status.faultBit_getLsbD_two, and_self]

/-- Settles O43: an answer sets the bit of its own status. -/
theorem faultBitsMatchTheAnswersGiven : Obligations.FaultBitsMatchTheAnswersGiven := fun _ _ =>
  step_keeps faultHistoryInv_of_agentsOnly faultHistoryInv_of_serves

/-! ### Commands of P and A between a reading of the occupancy and a get (R42, R235) -/

/-- Only RB.INIT and RB.GET lower the occupancy. -/
theorem occ_le_of_exec {i : Instr} {s t : State} (h : exec i s = .next t) (hi : i.opcode ∉ [0x10#8, 0x12#8]) :
    s.occ ≤ t.occ := by
  cases exec_effect h with
  | inits _ he | gets _ he => simp [he, Instr.opcode] at hi
  | puts | converts => simp
  | _ => exact Nat.le_refl _

theorem opcode_not_mem_of_ctx_ne_foreground {i : Instr} (hi : i.ctx ≠ .foreground) : i.opcode ∉ [0x10#8, 0x12#8] := by
  cases i with
  | rbInit | rbGet => exact absurd rfl hi
  | _ => simp [Instr.opcode]

/-- What the commands of P and A leave of the state that a get reads: it can only have more bytes to return. -/
theorem occ_le_of_runCommands {is : List Instr} {s t : State} (hctx : ∀ i ∈ is, i.ctx ≠ .foreground)
    (h : runCommands is s = .next t) :
    s.occ ≤ t.occ ∧ t.rcur = s.rcur ∧ t.inited = s.inited ∧ t.params = s.params := by
  induction is generalizing s with
  | nil => cases h; exact ⟨Nat.le_refl _, rfl, rfl, rfl⟩
  | cons i is ih =>
    obtain ⟨u, hu⟩ := exists_exec_eq_next i s
    simp only [runCommands, hu] at h
    have hi := opcode_not_mem_of_ctx_ne_foreground (hctx i List.mem_cons_self)
    obtain ⟨hocc, hrcur, hinit, hparams⟩ := ih (fun j hj => hctx j (List.mem_cons_of_mem _ hj)) h
    obtain ⟨hrcur', -⟩ := readSide_of_exec hu hi
    obtain ⟨-, hinit'⟩ := hen_inited_of_exec hu (fun he => hi (by simp [he]))
    exact ⟨(occ_le_of_exec hu hi).trans hocc, hrcur.trans hrcur', hinit.trans hinit', hparams.trans (params_of_exec hu)⟩

theorem exec_rbGet_of_atomic (len : BitVec 16) {s : State} (h : s.inited = true) (ha : s.params.getAtomic = true) :
    exec (.rbGet len) s = .next (getWhole len.toNat s) := (if_pos h).trans (if_pos ha)

/-- Settles O44: commands of P and A only add bytes, and the get returns `min(len, occ)` of them. -/
theorem occupancyReadingIsALowerBoundForTheNextGet : Obligations.OccupancyReadingIsALowerBoundForTheNextGet := by
  intro is len s t hctx hin hat h
  obtain ⟨hocc, hrcur, hinit, hparams⟩ := occ_le_of_runCommands hctx h
  refine ⟨hocc, hrcur, getWhole len.toNat t, ringReadRun t t.rcur (getAvailable t len.toNat),
    exec_rbGet_of_atomic len (hinit.trans hin) (hparams ▸ hat), by simp, ?_⟩
  rw [length_ringReadRun]
  exact min_le_min_left _ hocc

/-! ### The invariants of the block: unit RB (R29, R240) -/

theorem ringInv_of_exec {i : Instr} {s t : State} (hr : RingInv s) (h : exec i s = .next t) : RingInv t := by
  cases exec_effect h with
  | inits =>
    obtain ⟨hcap, -, -⟩ := capacity_bounds hr.valid
    exact ⟨hr.valid, Nat.zero_le _, hcap, hcap, by simp, by simp, Nat.two_pow_pos _, Nat.two_pow_pos _,
      Nat.two_pow_pos _, by simp, hr.ring_wf, hr.ring_range⟩
  | puts data => exact ringInv_congr (s := putCore data s) rfl rfl rfl rfl rfl rfl rfl rfl (ringInv_putCore hr data)
  | converts idx n =>
    have hput := ringInv_putCore (ringInv_advanceDraws hr n.toNat) (bufferBytes s idx n.toNat)
    exact ringInv_congr (s := putCore (bufferBytes s idx n.toNat) (advanceDraws n.toNat s)) rfl rfl rfl rfl rfl rfl rfl
      rfl hput
  | gets len =>
    have hget := ringInv_getRetire hr (Nat.min_le_right len.toNat s.occ)
    exact ringInv_congr (s := getRetire s.rcur (getAvailable s len.toNat) s) rfl rfl rfl rfl rfl rfl rfl rfl hget
  | _ => exact ringInv_congr (s := s) rfl rfl rfl rfl rfl rfl rfl rfl hr

/-- A command other than RB.INIT and RB.GET appends to the queue what it stores. -/
theorem occupied_of_exec {i : Instr} {s t : State} (hr : RingInv s) (h : exec i s = .next t)
    (hi : i.opcode ∉ [0x10#8, 0x12#8]) : occupied t = occupied s ++ (storedBytes i s).map some := by
  cases i with
  | rbInit | rbGet => exact absurd (by simp [Instr.opcode]) hi
  | rbPut data => exact occupied_of_exec_rbPut hr h
  | adcEvtDone idx n => exact occupied_of_exec_adcEvtDone hr h
  | _ =>
    rw [occupied_of_exec_not_ring (by simp [Instr.opcode]) h, storedBytes_of_not_put s (by simp [Instr.opcode])]
    simp

/-- A split RB.GET in progress stays sound while the queue only grows at its end. -/
theorem getInv_of_append {s t : State} {l : List (Option Byte)} (hp : t.params = s.params) (hin : t.inited = s.inited)
    (hg : t.getInFlight = s.getInFlight) (hr : t.rcur = s.rcur) (hq : occupied t = occupied s ++ l) (h : GetInv s) :
    GetInv t := by
  intro g hgt
  obtain ⟨hinit, hat, hr0, hk, hout⟩ := h g (hg ▸ hgt)
  have hocc : s.occ ≤ t.occ := by
    rw [← length_occupied s, ← length_occupied t, hq, List.length_append]
    exact Nat.le_add_right _ _
  refine ⟨hin.trans hinit, hp ▸ hat, hr0.trans hr.symm, hk.trans hocc, fun out ho => ?_⟩
  rw [hout out ho, hq, List.take_append_of_le_length (by simpa using hk)]

theorem getInv_of_getInFlight_none {s : State} (h : s.getInFlight = none) : GetInv s := fun g hg => by simp [h] at hg

theorem getInFlight_none_of_atomic {s : State} (h : GetInv s) (ha : s.params.getAtomic = true) :
    s.getInFlight = none := by
  cases hg : s.getInFlight with
  | none => rfl
  | some g =>
    obtain ⟨-, hat, -⟩ := h g hg
    simp [ha] at hat

theorem getInFlight_none_of_not_inited {s : State} (h : GetInv s) (hin : s.inited = false) :
    s.getInFlight = none := by
  cases hg : s.getInFlight with
  | none => rfl
  | some g =>
    obtain ⟨hinit, -⟩ := h g hg
    simp [hin] at hinit

theorem getInv_of_exec {i : Instr} {s t : State} (hr : RingInv s) (hg : GetInv s) (h : exec i s = .next t) :
    GetInv t := by
  by_cases hi : i.opcode ∈ [0x10#8, 0x12#8]
  · cases exec_effect h with
    | answers | fails => exact hg
    | inits _ _ hin =>
      have hnone := getInFlight_none_of_not_inited hg hin
      exact getInv_of_getInFlight_none hnone
    | gets _ _ _ ha =>
      have hnone := getInFlight_none_of_atomic hg ha
      exact getInv_of_getInFlight_none hnone
    | beginsGet len _ hin ha =>
      intro g hgt
      cases hgt
      exact ⟨hin, ha, rfl, Nat.min_le_right _ _, fun out ho => by cases ho⟩
    | puts _ he | converts _ _ he | configures he | failsConfig _ he | becomesReady he | toggles he | finishes he
      | starts he | stops he | writesSample _ _ _ he => simp [he, Instr.opcode] at hi
  · obtain ⟨hrcur, -, hfl⟩ := readSide_of_exec h hi
    obtain ⟨-, hin⟩ := hen_inited_of_exec h (fun he => hi (by simp [he]))
    exact getInv_of_append (params_of_exec h) hin hfl hrcur (occupied_of_exec hr h hi) hg

/-- Before RB.INIT only finished reaches unit RB's events, and RB.INIT ends that time. -/
theorem uninitInv_of_exec {i : Instr} {s t : State} (hu : UninitInv s) (h : exec i s = .next t) : UninitInv t := by
  cases exec_effect h with
  | inits => exact fun ht => absurd ht (by simp)
  | puts _ _ hin | converts _ _ _ hin => exact fun ht => absurd ht (by simp [hin])
  | gets _ _ hin | beginsGet _ _ hin => exact fun ht => absurd ht (by simp [hin])
  | finishes =>
    intro ht
    obtain ⟨h1, h2, h3, h4, h5, h6, h7, hev⟩ := hu ht
    exact ⟨h1, h2, h3, h4, h5, h6, h7, by simp [hev]⟩
  | _ => exact hu

/-! ### The invariants of the block: unit ADC (R34, R35, R159) -/

/-- The key of an existing sample cell (R60). -/
theorem sampleAddress_range (idx : BitVec 1) {k : BitVec 7} {len : Nat} (hk : k.toNat < len) :
    sampleAddress idx k.toNat < 256 ∧ sampleAddress idx k.toNat % 128 < len := by
  have h1 := idx.isLt
  have h2 := k.isLt
  simp only [sampleAddress]
  omega

theorem adcInv_congr {s t : State} (hp : t.params = s.params) (hd : t.drvState = s.drvState) (hc : t.cfg = s.cfg)
    (he : t.cfgErr = s.cfgErr) (hev : t.eventCount = s.eventCount) (hs : t.samples = s.samples) (h : AdcInv s) :
    AdcInv t := by
  obtain ⟨h1, h2, h3, h4, h5⟩ := h
  constructor <;> simp only [hp, hd, hc, he, hev, hs] <;> assumption

theorem adcInv_of_exec {i : Instr} {s t : State} (ha : AdcInv s) (h : exec i s = .next t) : AdcInv t := by
  obtain ⟨hready, herr, hev, hwf, hrange⟩ := ha
  cases exec_effect h with
  | configures _ hc =>
    have h0 : s.cfgErr = 0 := by simpa [hc] using herr
    exact ⟨fun _ => rfl, by simp [h0], hev, hwf, hrange⟩
  | failsConfig err _ he hc =>
    exact ⟨fun hd => absurd (hready hd) (by simp [hc]), by simpa using he, hev, hwf, hrange⟩
  | becomesReady _ _ hc => exact ⟨fun _ => hc, herr, hev, hwf, hrange⟩
  | starts _ hd => exact ⟨fun _ => hready (by rcases hd with hd | hd <;> simp [hd]), herr, hev, hwf, hrange⟩
  | stops _ hd => exact ⟨fun _ => hready (by simp [hd]), herr, hev, hwf, hrange⟩
  | converts idx n =>
    exact ⟨by simpa using hready, by simpa using herr, by simpa [counterAdd] using Nat.mod_lt _ (Nat.two_pow_pos _),
      by simpa using hwf, by simpa using hrange⟩
  | writesSample idx k v _ hk =>
    refine ⟨hready, herr, hev, memWrite_wf hwf _ _, fun x hx => ?_⟩
    rcases mem_memWrite hx with rfl | hx
    · exact sampleAddress_range idx hk
    · exact hrange x hx
  | puts =>
    exact ⟨by simpa using hready, by simpa using herr, by simpa using hev, by simpa using hwf, by simpa using hrange⟩
  | _ => exact ⟨hready, herr, hev, hwf, hrange⟩

/-! ### The invariants of the block, together -/

theorem Status.faultBit_getLsbD_three (st : Status) : st.faultBit.getLsbD 3 = false := by cases st <;> rfl

/-- No answer sets fault bit 3. -/
theorem faultInv_of_serves {s u : State} (h : Serves s u) (hs : FaultInv s) : FaultInv u := by
  have hbit : (answerFaultBit u).getLsbD 3 = false := by
    unfold answerFaultBit
    cases u.response with
    | none => rfl
    | some r => exact r.status.faultBit_getLsbD_three
  rw [FaultInv, fault_of_serves h, BitVec.getLsbD_or, hbit, hs]
  rfl

/-- Step G2 of a split RB.GET keeps the invariants: what it read is what the counted cells hold (R240). -/
theorem blockInv_getFetch {s : State} {g : GetProgress} (hs : BlockInv s) (h : s.getInFlight = some g) :
    BlockInv (getFetch g s) := by
  obtain ⟨hin, hat, hr0, hk, -⟩ := hs.get g h
  have hget : GetInv (getFetch g s) := by
    intro g' hg'
    cases hg'
    refine ⟨hin, hat, hr0, hk, fun out ho => ?_⟩
    cases ho
    rw [hr0]
    exact ringReadRun_map_some hs.ring hk
  exact ⟨ringInv_congr (s := s) rfl rfl rfl rfl rfl rfl rfl rfl hs.ring, hget,
    adcInv_congr (s := s) rfl rfl rfl rfl rfl rfl hs.adc, hs.faultBits, hs.uninit⟩

/-- Step G3 of a split RB.GET keeps the invariants: it retires occupied bytes (R240). -/
theorem blockInv_getFinish {s : State} {g : GetProgress} (out : List Byte) (hs : BlockInv s)
    (h : s.getInFlight = some g) : BlockInv (getFinish g out s) := by
  obtain ⟨hin, -, hr0, hk, -⟩ := hs.get g h
  have hret := ringInv_getRetire hs.ring hk
  rw [← hr0] at hret
  exact ⟨ringInv_congr (s := getRetire g.r0 g.k s) rfl rfl rfl rfl rfl rfl rfl rfl hret,
    getInv_of_getInFlight_none rfl, adcInv_congr (s := s) rfl rfl rfl rfl rfl rfl hs.adc, hs.faultBits,
    fun hu => absurd hu (by simp [hin])⟩

theorem blockInv_getContinue {s : State} {g : GetProgress} (hs : BlockInv s) (h : s.getInFlight = some g) :
    BlockInv (getContinue g s) := by
  unfold getContinue
  split
  · exact blockInv_getFetch hs h
  · exact blockInv_getFinish _ hs h

theorem blockInv_of_exec {i : Instr} {s t : State} (hs : BlockInv s) (h : exec i s = .next t) : BlockInv t :=
  ⟨ringInv_of_exec hs.ring h, getInv_of_exec hs.ring hs.get h, adcInv_of_exec hs.adc h,
    faultInv_of_serves (.command i t h) hs.faultBits, uninitInv_of_exec hs.uninit h⟩

/-- The invariants of the block read nothing of the agents, the history and the response, and of `fault` only bit 3. -/
theorem blockInv_frame {s : State} (hs : BlockInv s) {f p a x : List Packet} {moves : List Move} {conv : Converter}
    {host : HostLoop} {ans : List Answer} {resp : Option Response} {fl : BitVec 4} (hfl : fl.getLsbD 3 = false) :
    BlockInv { s with
      portF := f, portP := p, portA := a, portX := x, schedule := moves, converter := conv, host := host
      answered := ans, response := resp, fault := fl } :=
  ⟨ringInv_congr (s := s) rfl rfl rfl rfl rfl rfl rfl rfl hs.ring, hs.get,
    adcInv_congr (s := s) rfl rfl rfl rfl rfl rfl hs.adc, hfl, hs.uninit⟩

theorem blockInv_of_agentsOnly {s t : State} (h : AgentsOnly s t) (hs : BlockInv s) : BlockInv t := by
  obtain ⟨_, _, _, _, _, _, _, rfl⟩ := h
  exact blockInv_frame hs hs.faultBits

theorem blockInv_recordAnswer (c : Ctx) {s : State} (hs : BlockInv s) : BlockInv (recordAnswer c s) := by
  obtain ⟨l, hl⟩ := recordAnswer_eq c s
  rw [hl]
  exact blockInv_frame hs hs.faultBits

theorem blockInv_of_serves {s u : State} (h : Serves s u) (hs : BlockInv s) : BlockInv u := by
  cases h with
  | command i _ he => exact blockInv_of_exec hs he
  | getStep g hg => exact blockInv_getContinue hs hg
  | illegal =>
    have hf : FaultInv (reportIllegal s) := faultInv_of_serves .illegal hs.faultBits
    exact blockInv_frame hs hf

/-- Settles O22: the record served keeps each invariant, and the agents and the history are outside of them. -/
theorem stepKeepsTheBlockInvariants : Obligations.StepKeepsTheBlockInvariants := fun _ _ =>
  step_keeps blockInv_of_agentsOnly (fun c hu hs => blockInv_recordAnswer c (blockInv_of_serves hu hs))

/-! ### Reset (R44) -/

/-- Settles O1: each field of `resetWith` is the table's value. -/
theorem resetGivesTheValuesOfTheSpec : Obligations.ResetGivesTheValuesOfTheSpec := fun _ =>
  ⟨fun _ => rfl, fun _ => rfl, rfl, rfl, rfl, rfl, rfl, rfl, rfl, rfl, rfl, rfl, rfl, rfl, rfl, rfl, rfl, rfl, rfl⟩

theorem ringInv_startOf {p : Params} (hp : p.valid = true) (moves : List Move) : RingInv (startOf p moves) := by
  obtain ⟨hcap, -⟩ := capacity_bounds hp
  have hpow : 0 < 2 ^ p.cntW := Nat.two_pow_pos _
  exact ⟨hp, Nat.zero_le _, hcap, hcap, by simp [startOf, State.resetWith], by simp [startOf, State.resetWith], hpow,
    hpow, hpow, fun i hi => absurd hi (Nat.not_lt_zero i), List.Pairwise.nil, fun x hx => absurd hx List.not_mem_nil⟩

theorem adcInv_startOf (p : Params) (moves : List Move) : AdcInv (startOf p moves) :=
  ⟨fun h => absurd rfl h, by simp [startOf, State.resetWith], Nat.two_pow_pos _, List.Pairwise.nil,
    fun x hx => absurd hx List.not_mem_nil⟩

theorem blockInv_startOf {p : Params} (hp : p.valid = true) (moves : List Move) : BlockInv (startOf p moves) :=
  ⟨ringInv_startOf hp moves, getInv_of_getInFlight_none rfl, adcInv_startOf p moves,
    by simp [FaultInv, startOf, State.resetWith], fun _ => ⟨rfl, rfl, rfl, rfl, rfl, rfl, rfl, rfl⟩⟩

/-- Settles O2: nothing is stored, held, answered or streaming after reset. -/
theorem invariantsHoldAfterReset : Obligations.InvariantsHoldAfterReset := by
  intro p moves hp
  refine ⟨blockInv_startOf hp moves, ?_, ?_, Nat.zero_le _, ?_⟩
  · simp [FaultHistoryInv, answeredWith, startOf, State.resetWith]
  · exact ⟨fun _ => ⟨rfl, rfl, rfl, .inl rfl⟩, fun h => by cases h⟩
  · intro h
    cases h

/-- Settles O54: nothing is on its way after reset, and the converter was given nothing. -/
theorem handoffProtocolHoldsAfterReset : Obligations.HandoffProtocolHoldsAfterReset := by
  intro p moves hp halone
  exact
    { valid := hp
      alone := halone
      elsewhere := fun q hq => absurd hq List.not_mem_nil
      configured := fun h => by cases h
      unready := fun _ => ⟨rfl, rfl⟩
      pos_le := Nat.zero_le _
      notifications :=
        ⟨[], rfl, fun i hi => absurd hi List.not_mem_nil, ⟨rfl, rfl⟩, fun b hb => absurd hb List.not_mem_nil⟩
      samples := rfl }

/-! ### The converter's sample (R181, R182 a) -/

/-- A sample write goes to the end of port A, and nothing else changes. -/
theorem issue_converter (src : Source) {i : Instr} (s : State) (h : i.ctx = .converter) :
    issue src i s = { s with portA := s.portA ++ [⟨encodeWord i, encodePayload i, src⟩] } := by
  simp [issue, present, setPortQueue, portQueue, h]

theorem converterSample_of_not_trigEn (v : Sample) {s : State} (h : trigEn s = false) : converterSample v s = s := by
  unfold converterSample
  split <;> simp [h]

theorem converterSample_of_filling {s : State} {f : BitVec 1} (v : Sample) (hf : s.converter.filling = some f)
    (ht : trigEn s = true) (hp : s.converter.pos < s.params.sbLen) :
    converterSample v s =
      issue .converter (.adcSwr f (BitVec.ofNat 7 s.converter.pos) v)
        { s with converter := { s.converter with pos := s.converter.pos + 1 } } := by
  simp only [converterSample, hf, ht, hp, and_self, if_true]

/-- Settles O49: the record issued is that of the sample write, whose entry is the position. -/
theorem converterSamplesOnlyWhileTriggered : Obligations.ConverterSamplesOnlyWhileTriggered := by
  refine fun v s => ⟨converterSample_of_not_trigEn v, fun f hf ht hp hlen => ?_⟩
  refine ⟨encodeWord (.adcSwr f (BitVec.ofNat 7 s.converter.pos) v), decodeCommand_adcSwr _ _ _, ?_, ?_⟩
  · rw [BitVec.toNat_ofNat]
    exact Nat.mod_eq_of_lt (by omega)
  · rw [converterSample_of_filling v hf ht hp, issue_converter _ _ rfl]
    rfl

/-! ### The order of the queue over a run (R24, R25, R125, R126) -/

/-- The bytes now answered. -/
def answerData (s : State) : List Byte := (s.response.map fun r => r.data).getD []

/-- From `s` to `t` the puts stored `a` and the gets returned `g`: the queue and both totals follow (R24, R25, R125). -/
structure QueueMove (s t : State) (a g : List Byte) : Prop where
  params : t.params = s.params
  order : occupied s ++ a.map some = g.map some ++ occupied t
  written : t.bytesWritten = counterAdd s s.bytesWritten a.length
  read : t.bytesRead = counterAdd s s.bytesRead g.length

theorem counterAdd_zero {s : State} {n : Nat} (h : n < 2 ^ s.params.cntW) : counterAdd s n 0 = n := Nat.mod_eq_of_lt h

/-- Where nothing of the queue changes, nothing was stored and nothing returned. -/
theorem queueMove_of_unchanged {s t : State} (hr : RingInv s) (hp : t.params = s.params)
    (hq : occupied t = occupied s) (hw : t.bytesWritten = s.bytesWritten) (hrd : t.bytesRead = s.bytesRead) :
    QueueMove s t [] [] :=
  ⟨hp, by simp [hq], hw.trans (counterAdd_zero hr.written_lt).symm, hrd.trans (counterAdd_zero hr.read_lt).symm⟩

theorem counterAdd_counterAdd {s t : State} (hp : t.params = s.params) (n a b : Nat) :
    counterAdd t (counterAdd s n a) b = counterAdd s n (a + b) := by
  simp [counterAdd, hp, Nat.add_assoc]

theorem QueueMove.trans {s t u : State} {a a' g g' : List Byte} (h : QueueMove s t a g) (h' : QueueMove t u a' g') :
    QueueMove s u (a ++ a') (g ++ g') where
  params := h'.params.trans h.params
  order := by
    calc occupied s ++ (a ++ a').map some = (occupied s ++ a.map some) ++ a'.map some := by simp
      _ = g.map some ++ (occupied t ++ a'.map some) := by rw [h.order, List.append_assoc]
      _ = (g ++ g').map some ++ occupied u := by rw [h'.order]; simp
  written := by rw [h'.written, h.written, counterAdd_counterAdd h.params, List.length_append]
  read := by rw [h'.read, h.read, counterAdd_counterAdd h.params, List.length_append]

/-! The commands. -/

/-- Only RB.GET answers with data (R98). -/
theorem answerData_of_exec {i : Instr} {s t : State} (h : exec i s = .next t) (hi : i.opcode ≠ 0x12#8) :
    answerData t = [] := by
  cases exec_effect h with
  | gets _ he | beginsGet _ he => simp [he, Instr.opcode] at hi
  | _ => rfl

theorem bytesWritten_of_exec_rbPut {data : List Byte} {s t : State} (hr : RingInv s)
    (h : exec (.rbPut data) s = .next t) :
    t.bytesWritten = counterAdd s s.bytesWritten (storedBytes (.rbPut data) s).length := by
  cases hin : s.inited with
  | true =>
    rw [exec_rbPut_of_inited data hin] at h
    cases h
    rw [storedBytes_rbPut data hin, length_take_putAccepted]
    exact putCore_bytesWritten data s
  | false =>
    rw [exec_rbPut_of_not_inited data hin] at h
    cases h
    simp [storedBytes_of_not_inited _ hin, counterAdd_zero hr.written_lt]

theorem bytesWritten_of_exec_adcEvtDone {idx : BitVec 1} {n : BitVec 8} {s t : State} (hr : RingInv s)
    (h : exec (.adcEvtDone idx n) s = .next t) :
    t.bytesWritten = counterAdd s s.bytesWritten (storedBytes (.adcEvtDone idx n) s).length := by
  cases hin : s.inited with
  | true =>
    rw [storedBytes_adcEvtDone idx n hin]
    cases hn : countLegal s n with
    | true =>
      rw [exec_adcEvtDone_of_legal idx hin hn] at h
      cases h
      have hl := length_take_putAccepted s (bufferBytes s idx n.toNat)
      rw [length_bufferBytes] at hl
      rw [if_pos rfl, hl]
      simp [counterAdd]
    | false =>
      rw [exec_adcEvtDone_of_not_legal idx hin hn] at h
      cases h
      simp [counterAdd_zero hr.written_lt]
  | false =>
    rw [exec_adcEvtDone_of_not_inited idx n hin] at h
    cases h
    simp [storedBytes_of_not_inited _ hin, counterAdd_zero hr.written_lt]

theorem bytesWritten_of_exec {i : Instr} {s t : State} (hr : RingInv s) (h : exec i s = .next t)
    (hi : i.opcode ≠ 0x10#8) : t.bytesWritten = counterAdd s s.bytesWritten (storedBytes i s).length := by
  cases i with
  | rbInit => exact absurd rfl hi
  | rbPut data => exact bytesWritten_of_exec_rbPut hr h
  | adcEvtDone idx n => exact bytesWritten_of_exec_adcEvtDone hr h
  | _ =>
    obtain ⟨-, hw, -⟩ := writeSide_of_exec h (by simp [Instr.opcode])
    rw [hw, storedBytes_of_not_put s (by simp [Instr.opcode])]
    exact (counterAdd_zero hr.written_lt).symm

/-- RB.INIT finds the queue as it makes it: empty, with both totals 0 (R120). -/
theorem queueMove_of_exec_rbInit {hen : Bool} {s t : State} (hs : BlockInv s) (h : exec (.rbInit hen) s = .next t) :
    QueueMove s t [] [] := by
  cases exec_effect h with
  | answers | fails => exact queueMove_of_unchanged hs.ring rfl rfl rfl rfl
  | inits _ _ hin =>
    obtain ⟨-, -, hocc, hw, hrd, -⟩ := hs.uninit hin
    exact queueMove_of_unchanged hs.ring rfl (by simp [occupied, hocc]) hw.symm hrd.symm
  | _ => contradiction

/-- RB.GET returns the oldest bytes, or with GET_ATOMIC false none yet (R122, R240). -/
theorem queueMove_of_exec_rbGet {len : BitVec 16} {s t : State} (hr : RingInv s)
    (h : exec (.rbGet len) s = .next t) : QueueMove s t [] (answerData t) := by
  cases exec_effect h with
  | answers | fails | beginsGet => exact queueMove_of_unchanged hr rfl rfl rfl rfl
  | gets len =>
    have hk : getAvailable s len.toNat ≤ s.occ := Nat.min_le_right _ _
    have hdata : answerData (getWhole len.toNat s) = ringReadRun s s.rcur (getAvailable s len.toNat) := rfl
    have hq : occupied (getWhole len.toNat s) = (occupied s).drop (getAvailable s len.toNat) := occupied_getRetire s hk
    refine ⟨rfl, ?_, (counterAdd_zero hr.written_lt).symm, by simp [hdata]⟩
    rw [hdata, hq, ringReadRun_map_some hr hk, List.take_append_drop]
    simp
  | _ => contradiction

theorem queueMove_of_exec {i : Instr} {s t : State} (hs : BlockInv s) (h : exec i s = .next t) :
    QueueMove s t (storedBytes i s) (answerData t) := by
  cases i with
  | rbInit =>
    rw [storedBytes_of_not_put s (by simp [Instr.opcode]), answerData_of_exec h (by simp [Instr.opcode])]
    exact queueMove_of_exec_rbInit hs h
  | rbGet =>
    rw [storedBytes_of_not_put s (by simp [Instr.opcode])]
    exact queueMove_of_exec_rbGet hs.ring h
  | _ =>
    obtain ⟨-, hrd, -⟩ := readSide_of_exec h (by simp [Instr.opcode])
    rw [answerData_of_exec h (by simp [Instr.opcode])]
    exact ⟨params_of_exec h, (occupied_of_exec hs.ring h (by simp [Instr.opcode])).symm,
      bytesWritten_of_exec hs.ring h (by simp [Instr.opcode]), hrd.trans (counterAdd_zero hs.ring.read_lt).symm⟩

/-- Step G2 of a split RB.GET answers nothing, and G3 the bytes that G2 read, which it retires (R240). -/
theorem queueMove_getContinue {s : State} {g : GetProgress} (hs : BlockInv s) (h : s.getInFlight = some g) :
    QueueMove s (getContinue g s) [] (answerData (getContinue g s)) := by
  obtain ⟨-, -, hr0, hk, hout⟩ := hs.get g h
  unfold getContinue
  split
  · exact queueMove_of_unchanged hs.ring rfl rfl rfl rfl
  · rename_i out ho
    have hdata : answerData (getFinish g out s) = out := rfl
    have hq : occupied (getFinish g out s) = (occupied s).drop g.k := by
      rw [← occupied_getRetire s hk, ← hr0]
      rfl
    have htake := hout out ho
    have hlen : out.length = g.k := by simpa [hk] using congrArg List.length htake
    refine ⟨rfl, ?_, (counterAdd_zero hs.ring.written_lt).symm, by simp [hdata, hlen]⟩
    rw [hdata, hq, htake, List.take_append_drop]
    simp

/-! The steps. -/

/-- From `s` to `t` the puts stored `a`, and the history of answers grew by what the gets returned (R125). -/
def QueueRun (s t : State) (a : List Byte) : Prop :=
  ∃ g, returnedBytes t = returnedBytes s ++ g ∧ QueueMove s t a g

theorem QueueRun.refl {s : State} (h : RingInv s) : QueueRun s s [] :=
  ⟨[], by simp, queueMove_of_unchanged h rfl rfl rfl rfl⟩

theorem QueueRun.trans {s t u : State} {a a' : List Byte} (h : QueueRun s t a) (h' : QueueRun t u a') :
    QueueRun s u (a ++ a') := by
  obtain ⟨g, hg, hm⟩ := h
  obtain ⟨g', hg', hm'⟩ := h'
  exact ⟨g ++ g', by rw [hg', hg, List.append_assoc], hm.trans hm'⟩

theorem queueRun_of_agentsOnly {s t : State} (hr : RingInv s) (h : AgentsOnly s t) : QueueRun s t [] := by
  obtain ⟨_, _, _, _, _, _, _, rfl⟩ := h
  exact ⟨[], by simp [returnedBytes], queueMove_of_unchanged hr rfl rfl rfl rfl⟩

theorem returnedBytes_recordAnswer (c : Ctx) (s : State) :
    returnedBytes (recordAnswer c s) = returnedBytes s ++ answerData s := by
  cases h : s.response with
  | none => simp [recordAnswer_of_response_none c h, answerData, h]
  | some r => simp [recordAnswer_of_response_some c h, returnedBytes, answerData, h]

/-- The record served, its answer recorded: what it answered is what the gets returned. -/
theorem queueRun_recordAnswer {s u : State} {a : List Byte} (c : Ctx) (hans : u.answered = s.answered)
    (h : QueueMove s u a (answerData u)) : QueueRun s (recordAnswer c u) a := by
  refine ⟨answerData u, by rw [returnedBytes_recordAnswer, returnedBytes, returnedBytes, hans], ?_⟩
  obtain ⟨hp, ho, hw, hr⟩ := h
  obtain ⟨l, hl⟩ := recordAnswer_eq c u
  rw [hl]
  exact ⟨hp, ho, hw, hr⟩

theorem storedBytes_of_agentsOnly {s t : State} (i : Instr) (h : AgentsOnly s t) :
    storedBytes i t = storedBytes i s := by
  obtain ⟨_, _, _, _, _, _, _, rfl⟩ := h
  rfl

theorem stepStored_of_nextCommand_none {s : State} (h : nextCommand s = none) : stepStored s = [] := by
  simp [stepStored, h]

theorem stepStored_of_nextCommand_some {s : State} {i : Instr} (h : nextCommand s = some i) :
    stepStored s = storedBytes i s := by
  simp [stepStored, h]

/-- A record served between two moves of the agents. -/
theorem queueRun_between {s s' u t : State} {a : List Byte} (hs : BlockInv s) (ha : AgentsOnly s s')
    (hu : QueueRun s' u a) (hui : RingInv u) (ht : AgentsOnly u t) : QueueRun s t a := by
  simpa using ((queueRun_of_agentsOnly hs.ring ha).trans hu).trans (queueRun_of_agentsOnly hui ht)

/-- One step stores what `stepStored` says and returns what its answer holds (R125). -/
theorem queueRun_step {s t : State} (hs : BlockInv s) (h : step s = .next t) : QueueRun s t (stepStored s) := by
  cases step_effect h with
  | agents ha hn =>
    rw [stepStored_of_nextCommand_none hn]
    exact queueRun_of_agentsOnly hs.ring ha
  | runs i s' u hn ha _ he ht =>
    have hs' := blockInv_of_agentsOnly ha hs
    rw [stepStored_of_nextCommand_some hn, ← storedBytes_of_agentsOnly i ha]
    exact queueRun_between hs ha (queueRun_recordAnswer _ (answered_of_exec he) (queueMove_of_exec hs' he))
      (blockInv_recordAnswer _ (blockInv_of_exec hs' he)).ring ht
  | continues g s' hn ha hg ht =>
    have hs' := blockInv_of_agentsOnly ha hs
    have hg' : s'.getInFlight = some g := (getInFlight_of_agentsOnly ha).trans hg
    rw [stepStored_of_nextCommand_none hn]
    exact queueRun_between hs ha (queueRun_recordAnswer _ (getContinue_answered g s') (queueMove_getContinue hs' hg'))
      (blockInv_recordAnswer _ (blockInv_getContinue hs' hg')).ring ht
  | illegal c s' hn ha ht =>
    have hs' := blockInv_of_agentsOnly ha hs
    rw [stepStored_of_nextCommand_none hn]
    have hm : QueueMove s' (reportIllegal s') [] (answerData (reportIllegal s')) :=
      queueMove_of_unchanged hs'.ring rfl rfl rfl rfl
    exact queueRun_between hs ha (queueRun_recordAnswer c (answered_of_serves .illegal) hm)
      (blockInv_recordAnswer c (blockInv_of_serves .illegal hs')).ring ht

/-- The invariants and the order of the queue over any number of steps (R125). -/
theorem queueRun_runSteps {n : Nat} {s t : State} (hs : BlockInv s) (h : runSteps n s = .next t) :
    BlockInv t ∧ QueueRun s t (runStored n s) := by
  induction n generalizing s with
  | zero =>
    cases h
    exact ⟨hs, .refl hs.ring⟩
  | succ n ih =>
    simp only [runSteps, runStored] at h ⊢
    split at h
    · rename_i u hu
      obtain ⟨ht, hrun⟩ := ih (stepKeepsTheBlockInvariants s u hs hu) h
      exact ⟨ht, (queueRun_step hs hu).trans hrun⟩
    · cases h
    · cases h

/-- Settles O24: the order over a run, from a queue that is empty and totals that are 0. -/
theorem returnedBytesArePrefixOfStoredBytesFromReset : Obligations.ReturnedBytesArePrefixOfStoredBytesFromReset := by
  intro p moves n t hp h
  obtain ⟨ht, g, hg, hparams, horder, hw, hr⟩ := queueRun_runSteps (blockInv_startOf hp moves) h
  have hret : returnedBytes t = g := hg
  have horder' : (runStored n (startOf p moves)).map some = g.map some ++ occupied t := horder
  obtain ⟨g', held, hrun, hg', hheld⟩ := List.map_eq_append_iff.1 horder'
  obtain rfl : g' = g := List.map_injective_iff.2 (Option.some_injective _) hg'
  have hcap := ht.ring.occ_le
  refine ⟨held, by rw [hret, hrun], hheld.symm, ?_, by rwa [hparams] at hcap, ?_, ?_⟩
  · rw [← length_occupied t, ← hheld, List.length_map]
  · simpa [counterAdd, startOf, State.resetWith] using hw
  · simpa [counterAdd, startOf, State.resetWith, hret] using hr

/-! The moments of an infinite run. -/

theorem agentsOnly_drawing (m : Move) (s : State) : AgentsOnly s (drawing m s) := agentsOnly_schedule _ s

theorem drawnStored_succ (draws : Nat → Move) (run : Nat → State) (n : Nat) :
    drawnStored draws run (n + 1) = drawnStored draws run n ++ stepStored (drawing (draws n) (run n)) := by
  simp [drawnStored, List.range_succ]

theorem queueRun_infiniteRun {s : State} {draws : Nat → Move} {run : Nat → State} (hs : BlockInv s)
    (h : InfiniteRun s draws run) (n : Nat) : BlockInv (run n) ∧ QueueRun s (run n) (drawnStored draws run n) := by
  induction n with
  | zero =>
    rw [h.start]
    exact ⟨hs, .refl hs.ring⟩
  | succ n ih =>
    obtain ⟨hn, hrun⟩ := ih
    have hdraw := agentsOnly_drawing (draws n) (run n)
    have hd := blockInv_of_agentsOnly hdraw hn
    have hstep := (queueRun_of_agentsOnly hn.ring hdraw).trans (queueRun_step hd (h.next n))
    rw [drawnStored_succ]
    exact ⟨stepKeepsTheBlockInvariants _ _ hd (h.next n), hrun.trans hstep⟩

/-- Settles O59: by induction on the moves drawn. -/
theorem infiniteRunsKeepTheInvariantsAndTheQueueOrder : Obligations.InfiniteRunsKeepTheInvariantsAndTheQueueOrder := by
  intro s draws run hs h n
  obtain ⟨hn, g, hg, hm⟩ := queueRun_infiniteRun hs h n
  exact ⟨hn, g, hg, hm.order⟩

end Sys2Proof.Machine

/-! # The statements of 20_memory: the order of the queue, split gets, the stores, the ports, and runs without end
(R61, R62, R72 to R76, R125, R240, R246) -/

namespace Sys2Proof

/-! ### The records of the encoder are command records (R90, R94) -/

/-- The word of a command is selected by the command's own row of the opcode map (R94). -/
theorem encodeWord_and_maskBits : ∀ i : Instr, encodeWord i &&& i.maskBits = i.matchBits
  | .sysStatus => Laws.OpcodeByte.sysStatus
  | .rbInit hen => Laws.OpcodeByte.rbInit hen
  | .rbPut data => Laws.OpcodeByte.rbPut data
  | .rbGet len => Laws.OpcodeByte.rbGet len
  | .rbOcc => Laws.OpcodeByte.rbOcc
  | .rbWcur => Laws.OpcodeByte.rbWcur
  | .rbRcur => Laws.OpcodeByte.rbRcur
  | .rbTotrd => Laws.OpcodeByte.rbTotrd
  | .rbTotwr => Laws.OpcodeByte.rbTotwr
  | .rbOvwc => Laws.OpcodeByte.rbOvwc
  | .adcConfig err => Laws.OpcodeByte.adcConfig err
  | .adcEvtReady => Laws.OpcodeByte.adcEvtReady
  | .adcEvtBufreq => Laws.OpcodeByte.adcEvtBufreq
  | .adcEvtDone idx n => Laws.OpcodeByte.adcEvtDone idx n
  | .adcEvtFin => Laws.OpcodeByte.adcEvtFin
  | .adcStart => Laws.OpcodeByte.adcStart
  | .adcStop => Laws.OpcodeByte.adcStop
  | .adcBytes => Laws.OpcodeByte.adcBytes
  | .adcSwr idx k v => Laws.OpcodeByte.adcSwr idx k v

/-- How long a record's payload is depends on its word and on the opcode it decodes to. -/
theorem payloadLength_eq (w : Word) (i : Instr) :
    payloadLength w i = if i.opcode = 0x11#8 then (lenField w).toNat else 0 := by
  cases i <;> rfl

/-- The encoder gives a well-formed command the payload that its word announces (R90). -/
theorem length_encodePayload {i : Instr} (hi : i.wellFormed = true) :
    (encodePayload i).length = payloadLength (encodeWord i) i := by
  cases i with
  | rbPut data =>
    have hlen : data.length < 2 ^ 16 := by simpa [Instr.wellFormed] using hi
    simp only [encodePayload, payloadLength, encodeWord, lenField_toNat, formatL_toNat, BitVec.toNat_ofNat]
    omega
  | _ => rfl

namespace Machine

/-- The record of a well-formed command is a command record on every port. -/
theorem wholeRecord_encode (c : Ctx) {i : Instr} (hi : i.wellFormed = true) :
    wholeRecord c (encodeWord i) (encodePayload i) := by
  obtain ⟨j, hj, hop, -⟩ := decodeWord_of_selected (encodePayload i) (encodeWord_and_maskBits i)
  have hlen : (encodePayload i).length = payloadLength (encodeWord i) j := by
    rw [length_encodePayload hi, payloadLength_eq, payloadLength_eq, hop]
  simp only [wholeRecord, decodeCommand, hj, hlen, ne_eq, not_true_eq_false, if_false]
  split_ifs <;> simp

/-! ### The order of the queue (R125) -/

/-- Settles O23: the order of the queue over a run, which needs the invariants kept along it (`queueRun_runSteps`). -/
theorem queueOrderHoldsOverEveryRun : Obligations.QueueOrderHoldsOverEveryRun := by
  intro n s t hs h
  obtain ⟨-, g, hret, hmove⟩ := queueRun_runSteps hs h
  exact ⟨g, hret, hmove.order⟩

/-! ### A split RB.GET and the commands of P and A (R76, R240) -/

/-- Settles O19: a command of P or A only appends to the queue, behind the bytes that the get counts. -/
theorem splitGetIsUndisturbedByOtherContexts : Obligations.SplitGetIsUndisturbedByOtherContexts := by
  intro i s t g hr hg hflight hctx h
  have hi := opcode_not_mem_of_ctx_ne_foreground hctx
  obtain ⟨hrcur, -, hflight'⟩ := readSide_of_exec h hi
  obtain ⟨-, -, -, hk, -⟩ := hg g hflight
  refine ⟨hflight'.trans hflight, hrcur, hk.trans (occ_le_of_exec h hi), ?_⟩
  rw [occupied_of_exec hr h hi, List.take_append_of_le_length (by simpa using hk)]

/-- Settles O17: the step taken apart move, port and get in progress. -/
theorem stepContinuesASplitGet : Obligations.StepContinuesASplitGet := by
  intro p rest later g s hv hs hq hg
  have hg' : getPending .foreground (withSchedule later s) = some g := hg
  calc step s = serve .foreground (withSchedule later s) := step_of_schedule_cons hv hs
    _ = onNext (settle .foreground p rest) (runPacket .foreground p (withSchedule later s)) :=
      serve_of_portQueue_cons hq
    _ = .next (settle .foreground p rest (getContinue g (withSchedule later s))) := by
      rw [runPacket_of_getPending_some p hg']
      rfl

/-! ### The form of the stores (R62) -/

/-- Settles O25: by the effects, of which two run the put core and one writes a sample. -/
theorem commandsKeepTheStoresCanonical : Obligations.CommandsKeepTheStoresCanonical := by
  intro i s t hr hs h
  cases exec_effect h with
  | puts | converts => exact ⟨by simpa using memWriteRun_wf _ hr _ _, by simpa using hs⟩
  | writesSample => exact ⟨hr, memWrite_wf hs _ _⟩
  | _ => exact ⟨hr, hs⟩

/-! ### What a step leaves pending on the ports (R72 c) -/

/-- Settles O11: the move is the presentation, and the ports are what they were before the schedule moved on. -/
theorem presentedCommandsWaitBehindEarlierOnes : Obligations.PresentedCommandsWaitBehindEarlierOnes := by
  intro c w payload later s hv hs
  have hstep : step s = .next (present c ⟨w, payload, .external⟩ (withSchedule later s)) :=
    step_of_schedule_cons hv hs
  rw [hstep, present, portQueue_withSchedule]
  rfl

/-- Replacing a port's records by command records leaves only command records pending. -/
theorem recordsWhole_setPortQueue {c : Ctx} {q : List Packet} {s : State} (h : recordsWhole s)
    (hq : ∀ p ∈ q, wholeRecord c p.word p.payload) : recordsWhole (setPortQueue c q s) := by
  intro d
  by_cases hd : d = c
  · subst hd
    simpa using hq
  · simpa [portQueue_setPortQueue_other hd] using h d

theorem recordsWhole_present {c : Ctx} {p : Packet} {s : State} (h : recordsWhole s)
    (hp : wholeRecord c p.word p.payload) : recordsWhole (present c p s) := by
  refine recordsWhole_setPortQueue h fun q hq => ?_
  rcases List.mem_append.1 hq with hq | hq
  · exact h c q hq
  · rw [List.mem_singleton.1 hq]
    exact hp

/-- What an agent issues is a command record. -/
theorem recordsWhole_issue (src : Source) {i : Instr} {s : State} (h : recordsWhole s)
    (hi : i.wellFormed = true := by rfl) : recordsWhole (issue src i s) :=
  recordsWhole_present h (wholeRecord_encode _ hi)

/-! The converter. -/

theorem recordsWhole_converterBegin (b : BitVec 1) {s : State} (h : recordsWhole s) :
    recordsWhole (converterBegin b s) := recordsWhole_issue _ h

theorem recordsWhole_converterDriverReady {s : State} (h : recordsWhole s) : recordsWhole (converterDriverReady s) := by
  unfold converterDriverReady
  split
  · exact recordsWhole_issue _ h
  · exact h

theorem recordsWhole_converterStartBuffer {s : State} (h : recordsWhole s) :
    recordsWhole (converterStartBuffer s) := by
  unfold converterStartBuffer
  repeat' split
  · exact recordsWhole_converterBegin _ h
  all_goals exact h

theorem recordsWhole_converterSample (v : Sample) {s : State} (h : recordsWhole s) :
    recordsWhole (converterSample v s) := by
  unfold converterSample
  repeat' split
  · exact recordsWhole_issue _ h
  all_goals exact h

theorem recordsWhole_converterLink {s : State} (h : recordsWhole s) : recordsWhole (converterLink s) := by
  unfold converterLink
  repeat' split
  · exact recordsWhole_converterBegin _ h
  · exact recordsWhole_issue _ h
  · exact h

theorem recordsWhole_converterEndOfBatch {s : State} (h : recordsWhole s) :
    recordsWhole (converterEndOfBatch s) := by
  unfold converterEndOfBatch
  repeat' split
  · exact recordsWhole_converterLink (recordsWhole_issue _ h)
  all_goals exact h

/-! The host. -/

theorem recordsWhole_hostIssue (p : HostPhase) {i : Instr} {s : State} (h : recordsWhole s)
    (hi : i.wellFormed = true := by rfl) : recordsWhole (hostIssue p i s) := recordsWhole_issue _ h hi

theorem recordsWhole_hostTimerTick {s : State} (h : recordsWhole s) : recordsWhole (hostTimerTick s) := by
  unfold hostTimerTick
  split <;> exact h

theorem recordsWhole_hostStop {s : State} (h : recordsWhole s) : recordsWhole (hostStop s) :=
  recordsWhole_hostIssue _ h

theorem recordsWhole_hostHandle (e : HostEvent) {s : State} (h : recordsWhole s) : recordsWhole (hostHandle e s) := by
  unfold hostHandle
  split
  · exact recordsWhole_hostIssue _ h
  · exact h
  · exact h
  · exact recordsWhole_hostStop h
  · exact h
  · exact recordsWhole_hostIssue _ h

theorem recordsWhole_hostTurn (sendOk : Bool) {s : State} (h : recordsWhole s) : recordsWhole (hostTurn sendOk s) := by
  unfold hostTurn
  repeat' split
  · exact recordsWhole_hostHandle _ h
  · exact recordsWhole_hostIssue _ h
  · exact h
  · exact h

theorem recordsWhole_hostReceiveStart (r : Response) {s : State} (h : recordsWhole s) :
    recordsWhole (hostReceiveStart r s) := by
  unfold hostReceiveStart hostSessionBegins
  repeat' split
  · exact recordsWhole_hostIssue _ h
  all_goals exact h

theorem recordsWhole_hostReceiveChunk (sendOk : Bool) (r : Response) {s : State} (h : recordsWhole s) :
    recordsWhole (hostReceiveChunk sendOk r s) := by
  unfold hostReceiveChunk
  repeat' split
  all_goals exact h

theorem recordsWhole_hostEmitTelemetry (t : Telemetry) {s : State} (h : recordsWhole s) :
    recordsWhole (hostEmitTelemetry t s) := by
  unfold hostEmitTelemetry
  split
  · exact recordsWhole_hostStop h
  · exact h

theorem recordsWhole_hostReceiveTelemetry (got : List Word) (v : Word) {s : State} (h : recordsWhole s) :
    recordsWhole (hostReceiveTelemetry got v s) := by
  unfold hostReceiveTelemetry
  split
  case h_6 => exact recordsWhole_hostEmitTelemetry _ h
  all_goals exact recordsWhole_hostIssue _ h

theorem recordsWhole_hostReceive (r : Response) {s : State} (h : recordsWhole s) : recordsWhole (hostReceive r s) := by
  unfold hostReceive
  split
  · exact h
  · exact recordsWhole_hostReceiveStart r h
  · exact h
  · exact recordsWhole_hostReceiveChunk _ r h
  · exact recordsWhole_hostReceiveTelemetry _ _ h
  · exact h

theorem recordsWhole_deliver (src : Source) (r : Response) {s : State} (h : recordsWhole s) :
    recordsWhole (deliver src r s) := by
  cases src with
  | external =>
    unfold deliver hostReportConfigError
    dsimp only
    split <;> exact h
  | converter | converterRequest => exact h
  | host => exact recordsWhole_hostReceive r h

/-! The block. -/

theorem serves_of_runPacket {c : Ctx} {p : Packet} {s u : State} (h : runPacket c p s = .next u) : Serves s u := by
  unfold runPacket at h
  split at h
  case h_1 g hg =>
    cases h
    cases c with
    | foreground => exact .getStep g hg
    | interrupt | converter | reserved => cases hg
  case h_2 =>
    unfold runRecord at h
    split at h
    case h_1 i _ => exact .command i u h
    all_goals cases h
    all_goals exact .illegal

/-- Serving a record leaves the ports as they are: the record is taken off by `settle`. -/
theorem portQueue_of_serves (c : Ctx) {s u : State} (h : Serves s u) : portQueue c u = portQueue c s := by
  cases h with
  | command i _ he =>
    obtain ⟨-, hF, hP, hA, hX, -⟩ := agents_of_exec he
    cases c <;> assumption
  | getStep g =>
    unfold getContinue
    split <;> cases c <;> rfl
  | illegal => cases c <;> rfl

theorem recordsWhole_settle {c : Ctx} {p : Packet} {rest : List Packet} {s : State} (h : recordsWhole s)
    (hq : portQueue c s = p :: rest) : recordsWhole (settle c p rest s) := by
  cases hr : s.response with
  | none => rwa [settle_of_response_none c p rest hr]
  | some r =>
    rw [settle_of_response_some c p rest hr]
    have hrest : ∀ q ∈ rest, wholeRecord c q.word q.payload := fun q hm => h c q (by simp [hq, hm])
    exact recordsWhole_deliver _ _ (recordsWhole_setPortQueue h hrest)

theorem recordsWhole_serve {c : Ctx} {s t : State} (h : recordsWhole s) (ht : serve c s = .next t) :
    recordsWhole t := by
  cases hq : portQueue c s with
  | nil =>
    rw [serve_of_portQueue_nil hq] at ht
    cases ht
    exact h
  | cons p rest =>
    rw [serve_of_portQueue_cons hq] at ht
    obtain ⟨u, hu, rfl⟩ := onNext_next ht
    have hserves := serves_of_runPacket hu
    have hports : recordsWhole u := fun d => by rw [portQueue_of_serves d hserves]; exact h d
    exact recordsWhole_settle hports ((portQueue_of_serves c hserves).trans hq)

/-- The one move that can leave another record pending is that of an unconstrained sender (R180 a). -/
theorem recordsWhole_performMove {m : Move} {s t : State} (h : recordsWhole s)
    (hm : ∀ c w payload, m = .present c w payload → wholeRecord c w payload) (ht : performMove m s = .next t) :
    recordsWhole t := by
  cases m with
  | serve c => exact recordsWhole_serve h ht
  | present c w payload => cases ht; exact recordsWhole_present h (hm c w payload rfl)
  | sample v => cases ht; exact recordsWhole_converterSample v h
  | startBuffer => cases ht; exact recordsWhole_converterStartBuffer h
  | endOfBatch => cases ht; exact recordsWhole_converterEndOfBatch h
  | driverReady => cases ht; exact recordsWhole_converterDriverReady h
  | startEvent | stopEvent => cases ht; exact h
  | tick => cases ht; exact recordsWhole_hostTimerTick h
  | hostTurn sendOk => cases ht; exact recordsWhole_hostTurn sendOk h

/-! ### Runs without end (R246) -/

/-- The state after the move `m` is drawn and performed; a stop would leave the state as it is. -/
def drawNext (m : Move) (s : State) : State :=
  match step (drawing m s) with
  | .next t => t
  | .fault _ => s
  | .refused _ => s

/-- The state after the first `n` moves of a sequence of draws. -/
def drawnRun (s : State) (draws : Nat → Move) : Nat → State
  | 0 => s
  | n + 1 => drawNext (draws n) (drawnRun s draws n)

/-- The states whose step does not stop: a block exists, and only command records are pending (R6, R90). -/
def Runnable (s : State) : Prop := s.params.valid = true ∧ recordsWhole s

/-- From a state with a block and command records only, no draw stops. -/
theorem step_drawing {s : State} (m : Move) (h : Runnable s) : step (drawing m s) = .next (drawNext m s) := by
  obtain ⟨hv, hw⟩ := h
  obtain ⟨-, hstep⟩ := stepStopsOnlyWithoutABlockOrARecord (drawing m s)
  rcases hstep hv with ⟨t, ht⟩ | ⟨-, c, p, rest, -, -, hq, hd⟩
  · simp [drawNext, ht]
  · have hq' : portQueue c s = p :: rest := by rwa [← portQueue_withSchedule c (m :: s.schedule) s]
    exact absurd hd (hw c p (by simp [hq']))

theorem runnable_drawNext {s : State} {m : Move} (h : Runnable s)
    (hm : ∀ c w payload, m = .present c w payload → wholeRecord c w payload) : Runnable (drawNext m s) := by
  have hstep := step_drawing m h
  obtain ⟨hv, hw⟩ := h
  obtain ⟨-, -, hparams⟩ := faultIsStickyAndConfigIsWriteOnce _ _ hstep
  have hmove : performMove m s = .next (drawNext m s) :=
    (step_of_schedule_cons (s := drawing m s) hv rfl).symm.trans hstep
  exact ⟨by rw [hparams]; exact hv, recordsWhole_performMove hw hm hmove⟩

/-- Settles O58: the run is built move by move, and each of its states has a block and command records only. -/
theorem everyDrawSequenceHasItsInfiniteRun : Obligations.EveryDrawSequenceHasItsInfiniteRun := by
  intro s draws hv hw hdraws
  have hrun : ∀ n, Runnable (drawnRun s draws n) := by
    intro n
    induction n with
    | zero => exact ⟨hv, hw⟩
    | succ n ih => exact runnable_drawNext ih (hdraws n)
  exact ⟨drawnRun s draws, rfl, fun n => step_drawing (draws n) (hrun n)⟩

end Machine

end Sys2Proof

/-! # The statements of 30_encoding: the encoder and the decoder, the opcode map, illegal commands, and that every command
answers (R90 to R102, R200, R209) -/

namespace Sys2Proof

/-! ### A decoded record, check by check (R90, R94, R96) -/

/-- A record is a command exactly when its tag is a port's, its word is the command's, and context and payload fit it. -/
theorem decodeCommand_eq_ok_iff {c : Ctx} {w : Word} {payload : List Byte} {i : Instr} :
    decodeCommand c w payload = .ok i ↔
      c ≠ .reserved ∧ decodeWord w payload = .ok i ∧ i.ctx = c ∧ payload.length = payloadLength w i := by
  unfold decodeCommand
  constructor
  · intro h
    repeat' split at h
    all_goals cases h
    simp_all
  · rintro ⟨hc, hd, hctx, hlen⟩
    simp [hc, hd, hctx, hlen]

/-- The reserved tag is no command's context (R94). -/
theorem Instr.ctx_ne_reserved (i : Instr) : i.ctx ≠ .reserved := by
  cases i <;> simp [Instr.ctx]

/-! ### Decoding undoes encoding (R91 to R94) -/

theorem opcodeField_encodeWord (i : Instr) : opcodeField (encodeWord i) = i.opcode :=
  ((selected_iff _ i).1 (encodeWord_and_maskBits i)).1

/-- The must-be-zero bits of an encoded command are zero. -/
theorem mbzAbove_encodeWord (i j : Instr) : mbzAbove i.operandBits (encodeWord i) j = .ok j :=
  if_pos ((mbz_eq _ _).2 ((selected_iff _ i).1 (encodeWord_and_maskBits i)).2)

theorem lenField_encodeWord_rbGet (len : BitVec 16) : lenField (encodeWord (.rbGet len)) = len := by
  apply BitVec.eq_of_toNat_eq
  rw [lenField_toNat, encodeWord, formatL_toNat]
  omega

theorem errField_encodeWord_adcConfig (err : BitVec 8) : errField (encodeWord (.adcConfig err)) = err := by
  apply BitVec.eq_of_toNat_eq
  rw [errField_toNat, encodeWord, formatE_toNat]
  omega

theorem decodeWord_encodeWord (i : Instr) : decodeWord (encodeWord i) (encodePayload i) = .ok i := by
  have ho := opcodeField_encodeWord i
  have hm := mbzAbove_encodeWord i
  cases i with
  | rbInit hen => cases hen <;> rfl
  | rbPut data =>
    unfold decodeWord
    rw [ho]
    exact hm _
  | rbGet len =>
    unfold decodeWord
    rw [ho, lenField_encodeWord_rbGet]
    exact hm _
  | adcConfig err =>
    unfold decodeWord
    rw [ho, errField_encodeWord_adcConfig]
    exact hm _
  | adcEvtDone idx n => exact (decodeCommand_eq_ok_iff.1 (decodeCommand_adcEvtDone idx n)).2.1
  | adcSwr idx k v => exact (decodeCommand_eq_ok_iff.1 (decodeCommand_adcSwr idx k v)).2.1
  | sysStatus | rbOcc | rbWcur | rbRcur | rbTotrd | rbTotwr | rbOvwc | adcEvtReady | adcEvtBufreq | adcEvtFin | adcStart
    | adcStop | adcBytes => rfl

/-- Settles O3: the word decodes to the command, whose context and payload are the record's own. -/
theorem decodingTheEncodedRecordGivesTheCommand : Obligations.DecodingTheEncodedRecordGivesTheCommand := fun i hi =>
  decodeCommand_eq_ok_iff.2 ⟨i.ctx_ne_reserved, decodeWord_encodeWord i, rfl, length_encodePayload hi⟩

/-! ### Encoding undoes decoding -/

/-- A command other than RB.PUT is well formed and carries no payload (R90, R93). -/
theorem noPayload_of_not_rbPut {i : Instr} (hi : ∀ data, i ≠ .rbPut data) :
    i.wellFormed = true ∧ encodePayload i = [] ∧ ∀ w, payloadLength w i = 0 := by
  cases i with
  | rbPut data => exact absurd rfl (hi data)
  | _ => exact ⟨rfl, rfl, fun _ => rfl⟩

/-- RB.PUT of as many bytes as a put's word announces is that word (R92 format L). -/
theorem encodeWord_rbPut {w : Word} {data : List Byte} (hw : formatL 0x11 (lenField w) = w)
    (hlen : data.length = (lenField w).toNat) : encodeWord (.rbPut data) = w := by
  rw [encodeWord, hlen, BitVec.ofNat_toNat, BitVec.setWidth_eq, hw]

/-- Settles O4: by the two forms of a decoded word (`decodeWord_ok`), that of RB.PUT and that of the other commands. -/
theorem decodedRecordEncodesToItself : Obligations.DecodedRecordEncodesToItself := by
  intro c w payload i h
  obtain ⟨-, hd, hctx, hlen⟩ := decodeCommand_eq_ok_iff.1 h
  rcases decodeWord_ok hd with ⟨rfl, hw⟩ | ⟨hput, hw⟩
  · have hlen' : payload.length = (lenField w).toNat := hlen
    refine ⟨by simpa [Instr.wellFormed, hlen'] using (lenField w).isLt, hctx, ?_⟩
    rw [encode, encodeWord_rbPut hw hlen', encodePayload]
  · obtain ⟨hwf, hpayload, hzero⟩ := noPayload_of_not_rbPut hput
    have hnil : payload = [] := List.length_eq_zero_iff.1 (hlen.trans (hzero w))
    exact ⟨hwf, hctx, by rw [encode, hw, hpayload, hnil]⟩

/-! ### The rows of the opcode map (R94) -/

/-- How many operand bits a command has is fixed by its opcode (R92, R94). -/
theorem operandBits_eq (i : Instr) :
    i.operandBits =
      if i.opcode = 0x10#8 then 1
      else if i.opcode = 0x11#8 ∨ i.opcode = 0x12#8 then 16
      else if i.opcode = 0x20#8 then 8
      else if i.opcode = 0x23#8 then 9
      else if i.opcode = 0x28#8 then 24
      else 0 := by
  cases i <;> rfl

/-- Commands of one opcode are of one row of the map. -/
theorem selected_of_opcode_eq {w : Word} {i j : Instr} (hop : j.opcode = i.opcode)
    (h : w &&& j.maskBits = j.matchBits) : w &&& i.maskBits = i.matchBits := by
  have hbits : j.operandBits = i.operandBits := by rw [operandBits_eq, operandBits_eq, hop]
  rwa [selected_iff, hop, hbits, ← selected_iff] at h

/-- A word that decodes is selected by the row of its command. -/
theorem selected_of_decodeWord {w : Word} {payload : List Byte} {i : Instr} (h : decodeWord w payload = .ok i) :
    w &&& i.maskBits = i.matchBits := by
  rcases decodeWord_ok h with ⟨rfl, hw⟩ | ⟨-, hw⟩
  · have hput : encodeWord (.rbPut (List.replicate (lenField w).toNat 0)) = w :=
      encodeWord_rbPut hw List.length_replicate
    rw [← hput]
    exact encodeWord_and_maskBits (.rbPut _)
  · rw [← hw]
    exact encodeWord_and_maskBits i

/-- Settles O5: a selected row decodes, and what decodes is selected by its row, which its opcode fixes. -/
theorem opcodeMapSelectsByMatchAndMask : Obligations.OpcodeMapSelectsByMatchAndMask := by
  intro w payload i
  constructor
  · rintro ⟨j, hj, hop⟩
    exact selected_of_opcode_eq hop (selected_of_decodeWord hj)
  · intro h
    obtain ⟨j, hj, hop, -⟩ := decodeWord_of_selected payload h
    exact ⟨j, hj, hop⟩

/-! ### Illegal commands (R96, R209) -/

theorem mbzAbove_ne_payloadNotOfLength (lo : Nat) (w : Word) (i : Instr) :
    mbzAbove lo w i ≠ .error .payloadNotOfLength := by
  unfold mbzAbove
  split <;> simp

/-- The decoder of words does not look at how long the payload is: each row answers a command or finds a bit that must be
zero, and a word of no row has an unassigned opcode. -/
theorem decodeWord_ne_payloadNotOfLength (w : Word) (payload : List Byte) :
    decodeWord w payload ≠ .error .payloadNotOfLength := by
  intro h
  unfold decodeWord at h
  iterate 18
    rcases ite_cases h with ⟨-, hrow⟩ | ⟨-, h⟩
    · exact mbzAbove_ne_payloadNotOfLength _ _ _ hrow
  split at h <;> cases h

theorem decodeCommand_reserved (w : Word) (payload : List Byte) :
    decodeCommand .reserved w payload = .error .reservedContext := rfl

theorem decodeCommand_of_decodeWord_error {c : Ctx} {w : Word} {payload : List Byte} {e : DecodeError}
    (hc : c ≠ .reserved) (hd : decodeWord w payload = .error e) : decodeCommand c w payload = .error e := by
  simp [decodeCommand, hc, hd]

theorem decodeCommand_of_wrong_ctx {c : Ctx} {w : Word} {payload : List Byte} {i : Instr} (hc : c ≠ .reserved)
    (hd : decodeWord w payload = .ok i) (hctx : i.ctx ≠ c) : decodeCommand c w payload = .error .wrongContext := by
  simp [decodeCommand, hc, hd, hctx]

/-- A record of a command's word under the command's context is at most of the wrong length. -/
theorem eq_payloadNotOfLength_of_decodeCommand {c : Ctx} {w : Word} {payload : List Byte} {i : Instr} {e : DecodeError}
    (hc : c ≠ .reserved) (hd : decodeWord w payload = .ok i) (hctx : i.ctx = c)
    (he : decodeCommand c w payload = .error e) : e = .payloadNotOfLength := by
  simp only [decodeCommand, hc, hd, hctx, ne_eq, not_true_eq_false, if_false] at he
  split at he <;> cases he
  rfl

/-- A record is illegal exactly on the conditions of R96. -/
theorem exists_illegal_iff (c : Ctx) (w : Word) (payload : List Byte) :
    (∃ e, decodeCommand c w payload = .error e ∧ e ≠ .payloadNotOfLength) ↔
      (c = .reserved ∨ (∀ i : Instr, w &&& i.maskBits ≠ i.matchBits) ∨
        ∃ i : Instr, w &&& i.maskBits = i.matchBits ∧ i.ctx ≠ c) := by
  constructor
  · rintro ⟨e, he, hlen⟩
    by_cases hc : c = .reserved
    · exact .inl hc
    refine .inr ?_
    cases hd : decodeWord w payload with
    | error e' =>
      refine .inl fun i hi => ?_
      obtain ⟨j, hj, -⟩ := decodeWord_of_selected payload hi
      simp [hd] at hj
    | ok i =>
      refine .inr ⟨i, selected_of_decodeWord hd, fun hctx => ?_⟩
      exact hlen (eq_payloadNotOfLength_of_decodeCommand hc hd hctx he)
  · intro h
    by_cases hc : c = .reserved
    · exact ⟨_, hc ▸ decodeCommand_reserved w payload, by simp⟩
    rcases h with hres | hnone | ⟨i, hi, hctx⟩
    · exact absurd hres hc
    · cases hd : decodeWord w payload with
      | error e =>
        refine ⟨e, decodeCommand_of_decodeWord_error hc hd, ?_⟩
        rintro rfl
        exact decodeWord_ne_payloadNotOfLength w payload hd
      | ok i => exact absurd (selected_of_decodeWord hd) (hnone i)
    · obtain ⟨j, hj, -, hjctx⟩ := decodeWord_of_selected payload hi
      exact ⟨_, decodeCommand_of_wrong_ctx hc hj (hjctx ▸ hctx), by simp⟩

namespace Machine

theorem runRecord_of_illegal {c : Ctx} {p : Packet} {e : DecodeError} (s : State)
    (hd : decodeCommand c p.word p.payload = .error e) (he : e ≠ .payloadNotOfLength) :
    runRecord c p s = .next (reportIllegal s) := by
  cases e with
  | payloadNotOfLength => exact absurd rfl he
  | unassignedOpcode | mbzNotZero | reservedContext | wrongContext => simp [runRecord, hd]

/-- The answer ILLEGAL to an unconstrained sender is recorded, and its record leaves the port (R98). -/
theorem settle_reportIllegal_external (c : Ctx) {p : Packet} (rest : List Packet) (s : State)
    (hp : p.source = .external) :
    settle c p rest (reportIllegal s) =
      setPortQueue c rest
        { reportIllegal s with
          answered := s.answered ++ [⟨c, ⟨.illegal, 0, []⟩⟩]
          converter := converterAfterAnswer p (reportIllegal s) } := by
  rw [settle_of_response_some c p rest (reportIllegal_response s), hp, deliver_external_of_not_cfgError _ (by simp)]
  rfl

/-- A record of an unconstrained sender is no conversion-done of the converter's own (log 14). -/
theorem isOwnDone_of_external {p : Packet} (hp : p.source = .external) : isOwnDone p = false := by
  simp [isOwnDone, hp]

/-- Settles O6: the conditions of R96 by the decoder's branches, and the step taken apart move, port, record and answer. -/
theorem illegalCommandOnlySetsFaultBit0 : Obligations.IllegalCommandOnlySetsFaultBit0 := by
  refine ⟨exists_illegal_iff, ?_⟩
  intro c p rest later e s hv hs hq hg hp hd he
  have hq' : portQueue c (withSchedule later s) = p :: rest := by simpa using hq
  have hg' : getPending c (withSchedule later s) = none := by simpa using hg
  calc step s = serve c (withSchedule later s) := step_of_schedule_cons hv hs
    _ = onNext (settle c p rest) (runPacket c p (withSchedule later s)) := serve_of_portQueue_cons hq'
    _ = .next (settle c p rest (reportIllegal (withSchedule later s))) := by
      rw [runPacket_of_getPending_none p hg', runRecord_of_illegal _ hd he]
      rfl
    _ = _ := by
      rw [settle_reportIllegal_external c rest _ hp, converterAfterAnswer, isOwnDone_of_external hp]
      rfl

end Machine

/-! ### The worked encodings (R102) -/

/-- Settles O7: by evaluation; of a payload only its length is read, and a word under another context not even that. -/
theorem workedEncodingsDecode : Obligations.WorkedEncodingsDecode := by
  have hput : ∀ data : List Byte, data.length = 10 → decodeCommand .interrupt 0x1100000A data = .ok (.rbPut data) :=
    fun data hlen => decodeCommand_eq_ok_iff.2 ⟨by simp, rfl, rfl, hlen⟩
  have hzero : ∀ c : Ctx, c ≠ .reserved → decodeCommand c 0x00000000 [] = .error .unassignedOpcode :=
    fun c hc => decodeCommand_of_decodeWord_error hc rfl
  have hwrong : ∀ data : List Byte, decodeCommand .foreground 0x11000003 data = .error .wrongContext :=
    fun data => decodeCommand_of_wrong_ctx (i := .rbPut data) (by simp) rfl (by simp [Instr.ctx])
  exact ⟨rfl, rfl, hput, rfl, rfl, rfl, rfl, rfl, hzero, rfl, hwrong⟩

namespace Machine

/-! ### Every command answers (R127, R162, R200, R240) -/

/-- A command that leaves no answer begins a split RB.GET. -/
theorem beginsGet_of_exec_response_none {i : Instr} {s t : State} (h : exec i s = .next t) (hr : t.response = none) :
    t.getInFlight ≠ none ∧ s.params.getAtomic = false ∧ ∃ len, i = .rbGet len := by
  cases exec_effect h with
  | beginsGet len hi _ ha => exact ⟨by simp, ha, len, hi⟩
  | _ => simp at hr

/-- Settles O9: every command has a next state, and by its effects only step G1 of a split RB.GET leaves no answer. -/
theorem everyCommandAnswersInEveryState : Obligations.EveryCommandAnswersInEveryState := by
  intro i s
  obtain ⟨t, ht⟩ := exists_exec_eq_next i s
  exact ⟨t, ht, beginsGet_of_exec_response_none ht⟩

end Machine

end Sys2Proof

/-! # The statements of 40_ring_buffer: RB.INIT, RB.PUT and the two forms of RB.GET (R120 to R125, R240) -/

namespace Sys2Proof.Machine

/-! ### RB.INIT (R120) -/

/-- Settles O13: by the two branches on `inited`. -/
theorem initZeroesOnceAndRefusesASecond : Obligations.InitZeroesOnceAndRefusesASecond := fun _ _ =>
  ⟨fun hin => if_neg (by simp [hin]), fun hin => if_pos hin⟩

/-! ### RB.PUT (R121, R123) -/

/-- After the prefix is stored the put core writes at most `ovw_count` and the events (R123). -/
theorem putCore_eq_putStore (data : List Byte) (s : State) :
    putCore data s =
      { putStore data s with
        ovwCount := (putCore data s).ovwCount
        events := (putCore data s).events } := by
  unfold putCore countTruncated
  split
  · split <;> rfl
  · rfl

/-- Settles O14: the put core stores the prefix (`putCore_storesPrefix`), and `putCore_eq_putStore` is its frame. -/
theorem putStoresThePrefixThatFits : Obligations.PutStoresThePrefixThatFits := by
  refine fun data s => ⟨fun hin => ?_, exec_rbPut_of_not_inited data⟩
  refine ⟨putAccepted s data.length, (putCore data s).ring, putCore_storesPrefix data s, ?_⟩
  rw [exec_rbPut_of_inited data hin, putCore_eq_putStore, putCore_ovwCount, putCore_events]
  rfl

/-! ### RB.GET (R122, R240) -/

theorem exec_rbGet_of_not_inited (len : BitVec 16) {s : State} (h : s.inited = false) :
    exec (.rbGet len) s = .next (reportError .outOfOrder s) := by
  simp [exec, execRbGet, h]

theorem exec_rbGet_of_split (len : BitVec 16) {s : State} (h : s.inited = true) (ha : s.params.getAtomic = false) :
    exec (.rbGet len) s = .next (getBegin len.toNat s) := by
  simp [exec, execRbGet, h, ha]

/-- Settles O15: the bytes are a read of `k` cells from the read cursor on, in which a written cell is read as it is. -/
theorem atomicGetReturnsTheBytesAtTheReadCursor : Obligations.AtomicGetReturnsTheBytesAtTheReadCursor := by
  refine fun len s hat => ⟨fun hin => ?_, exec_rbGet_of_not_inited len⟩
  exact ⟨getAvailable s len.toNat, ringReadRun s s.rcur (getAvailable s len.toNat),
    s.draws + getAvailable s len.toNat, rfl, length_ringReadRun ..,
    fun _ hi _ hb => getElem?_ringReadRun hi hb, exec_rbGet_of_atomic len hin hat⟩

/-- Settles O16: G1 is `getBegin`, G2 reads `k` cells from `r0` on, and G3 retires them. -/
theorem splitGetRunsAsThreeSteps : Obligations.SplitGetRunsAsThreeSteps := by
  refine ⟨fun len s hat hin => exec_rbGet_of_split len hin hat, fun len s _ => exec_rbGet_of_not_inited len, ?_,
    fun _ _ _ _ => rfl⟩
  intro k r0 s
  exact ⟨ringReadRun s r0 k, s.draws + k, length_ringReadRun .., fun _ hi _ hb => getElem?_ringReadRun hi hb, rfl⟩

/-- The steps G1, G2 and G3 one right after the other make the atomic get (R240). -/
theorem getContinue_getContinue_getBegin (len : Nat) {s : State} (h : s.getInFlight = none) :
    getContinue ⟨getAvailable s len, s.rcur, some (ringReadRun s s.rcur (getAvailable s len))⟩
      (getContinue ⟨getAvailable s len, s.rcur, none⟩ (getBegin len s)) = getWhole len s := by
  calc _ = { getWhole len s with getInFlight := none } := rfl
    _ = getWhole len s := by rw [← h]; rfl

/-- Settles O18: the steps make the atomic get, and no step reads GET_ATOMIC. -/
theorem uninterruptedSplitGetIsTheAtomicGet : Obligations.UninterruptedSplitGetIsTheAtomicGet := by
  intro len s t u v g g' hat hin hnone ht hg hu hg' hv
  rw [exec_rbGet_of_split len hin hat] at ht
  cases ht
  cases hg
  subst hu
  cases hg'
  have hv' : v = getWhole len.toNat s := hv.trans (getContinue_getContinue_getBegin len.toNat hnone)
  rw [hv']
  exact exec_rbGet_of_atomic len hin rfl

/-- Settles O21: RB.GET reads the first `k` cells of the queue and retires them. -/
theorem getRemovesTheOldestBytes : Obligations.GetRemovesTheOldestBytes := by
  intro len s hr hat hin
  have hk : getAvailable s len.toNat ≤ s.occ := Nat.min_le_right _ _
  have hq : occupied (getWhole len.toNat s) = (occupied s).drop (getAvailable s len.toNat) := occupied_getRetire s hk
  refine ⟨getWhole len.toNat s, ringReadRun s s.rcur (getAvailable s len.toNat),
    exec_rbGet_of_atomic len hin hat, by simp, length_ringReadRun .., ?_⟩
  rw [hq, ringReadRun_map_some hr hk, List.take_append_drop]

end Sys2Proof.Machine

/-! # The statements of 41_introspection: the six ring reads and SYS.STATUS (R140 to R146) -/

namespace Sys2Proof.Machine

/-! ### The ring reads (R140 to R145) -/

/-- CNT_W is at most 32 (log 6), so that zero-extension to 32 bits keeps a counter's value. -/
theorem toNat_ofNat_of_lt_cntW {p : Params} (hp : p.valid = true) {n : Nat} (hn : n < 2 ^ p.cntW) :
    (BitVec.ofNat 32 n).toNat = n := by
  obtain ⟨-, hcnt, -⟩ := capacity_bounds hp
  have hpow : 2 ^ p.cntW ≤ 2 ^ 32 := Nat.pow_le_pow_right Nat.two_pos hcnt
  rw [BitVec.toNat_ofNat, Nat.mod_eq_of_lt (hn.trans_le hpow)]

/-- Occupancies and cursors, which are at most C, keep their value too. -/
theorem toNat_ofNat_of_le_capacity {p : Params} (hp : p.valid = true) {n : Nat} (hn : n ≤ p.capacity) :
    (BitVec.ofNat 32 n).toNat = n := by
  obtain ⟨-, -, hcap, -⟩ := capacity_bounds hp
  exact toNat_ofNat_of_lt_cntW hp (hn.trans_lt hcap)

/-- Settles O26: each read answers its field, and the invariants keep every field in the range of a 32-bit value. -/
theorem ringReadsAnswerTheirFields : Obligations.RingReadsAnswerTheirFields := by
  refine fun s => ⟨rfl, rfl, rfl, rfl, rfl, rfl, fun h => ?_⟩
  have ranged {n : Nat} (hn : n ≤ s.params.capacity) := toNat_ofNat_of_le_capacity h.valid hn
  have counted {n : Nat} (hn : n < 2 ^ s.params.cntW) := toNat_ofNat_of_lt_cntW h.valid hn
  exact ⟨ranged h.occ_le, h.occ_le, ranged h.wcur_lt.le, h.wcur_lt, ranged h.rcur_lt.le, h.rcur_lt,
    counted h.read_lt, counted h.written_lt, counted h.ovw_lt⟩

/-! ### SYS.STATUS (R146) -/

/-- Bits of the status word, its 32 bits taken as the sum of the widths of its fields: only so do the library's lemmas
about `++` see the word. -/
theorem extractLsb'_statusWord (s : State) (start len : Nat) :
    (statusWord s).extractLsb' start len =
      BitVec.extractLsb' start len
        (0#12 ++ s.cfgErr ++ s.fault ++ 0#1 ++ BitVec.ofBool s.hen ++ BitVec.ofBool s.inited ++ s.act ++ s.cfg.code ++
          s.drvState.code) :=
  rfl

/-- Where each field stands in the status word (R146): each lies within one operand of the `++`, found by dropping those
below it. -/
theorem statusWord_fields (s : State) :
    (statusWord s).extractLsb' 0 2 = s.drvState.code ∧
    (statusWord s).extractLsb' 2 2 = s.cfg.code ∧
    (statusWord s).extractLsb' 4 1 = s.act ∧
    (statusWord s).extractLsb' 5 1 = BitVec.ofBool s.inited ∧
    (statusWord s).extractLsb' 6 1 = BitVec.ofBool s.hen ∧
    (statusWord s).extractLsb' 7 1 = BitVec.ofBool false ∧
    (statusWord s).extractLsb' 8 4 = s.fault ∧
    (statusWord s).extractLsb' 12 8 = s.cfgErr ∧
    (statusWord s).extractLsb' 20 12 = 0 := by
  simp (disch := decide) only [extractLsb'_statusWord, BitVec.extractLsb'_append_eq_of_le,
    BitVec.extractLsb'_append_eq_of_add_le]
  simp

/-- A field of one bit is that bit. -/
theorem getLsbD_of_extractLsb'_eq_ofBool {v : Word} {i : Nat} {b : Bool}
    (h : v.extractLsb' i 1 = BitVec.ofBool b) : v.getLsbD i = b := by
  simpa using congrArg (BitVec.getLsbD · 0) h

/-- Settles O27: the answer is `statusWord`, whose fields stand where R146 says. -/
theorem statusWordHoldsEveryFieldInItsBits : Obligations.StatusWordHoldsEveryFieldInItsBits := by
  intro s
  obtain ⟨hdrv, hcfg, hact, hinited, hhen, hzero, hfault, herr, hhigh⟩ := statusWord_fields s
  exact ⟨statusWord s, rfl, hdrv, hcfg, hact, getLsbD_of_extractLsb'_eq_ofBool hinited,
    getLsbD_of_extractLsb'_eq_ofBool hhen, getLsbD_of_extractLsb'_eq_ofBool hzero, hfault, herr, hhigh⟩

end Sys2Proof.Machine

/-! # The statements of 42_adc_handoff: the ADC commands, and the handoff of the sample buffers (R150 to R161, R183,
R185) -/

namespace Sys2Proof.Machine

/-! ### ADC.CONFIG, driver-ready and buffer-request (R150 to R152, R160) -/

/-- Settles O28: by the branches on `cfg` and on `err`. -/
theorem configIsTakenOnce : Obligations.ConfigIsTakenOnce := by
  refine fun err s => ⟨fun hc he => ?_, fun hc he => ?_, fun hc => ?_⟩
  · exact (if_pos hc).trans (if_pos he)
  · rw [BitVec.ofNat_toNat]
    exact (if_pos hc).trans (if_neg he)
  · rw [BitVec.ofNat_toNat]
    exact if_neg hc

/-- Settles O29: by the two branches of the command. -/
theorem driverReadyActsOnlyWhenConfigured : Obligations.DriverReadyActsOnlyWhenConfigured := fun _ =>
  ⟨fun h => if_pos h, fun h => if_neg h⟩

theorem exec_adcEvtBufreq (s : State) :
    exec .adcEvtBufreq s = .next (respond .ok ((s.act ^^^ 1).zeroExtend 32) [] { s with act := s.act ^^^ 1 }) := rfl

/-- Settles O30: one bit toggled is the other bit. -/
theorem bufferRequestTogglesTheActiveIndex : Obligations.BufferRequestTogglesTheActiveIndex := fun s =>
  ⟨fun h => by rw [exec_adcEvtBufreq, h]; rfl, fun h => by rw [exec_adcEvtBufreq, h]; rfl⟩

/-- In one bit the sum is the exclusive or. -/
theorem ofNat_one_xor (m n : Nat) : BitVec.ofNat 1 m ^^^ BitVec.ofNat 1 n = BitVec.ofNat 1 (m + n) := by
  have hbit : ∀ x y : BitVec 1, x ^^^ y = x + y := by decide
  rw [hbit, BitVec.ofNat_add]

/-- A command other than a successful ADC.CONFIG moves `act` if and only if it is a buffer-request (R42, R160). -/
theorem act_of_exec_of_not_configures {i : Instr} {s t : State} (h : exec i s = .next t)
    (hc : s.cfg = .unconfigured → t.cfg ≠ .configured) :
    t.act = s.act ^^^ BitVec.ofNat 1 (if i == .adcEvtBufreq then 1 else 0) := by
  by_cases hi : i = .adcEvtBufreq
  · subst hi
    cases h
    rfl
  · have hsame : t.act = s.act := by
      cases exec_effect h with
      | configures _ hu => exact absurd rfl (hc hu)
      | toggles he => exact absurd he hi
      | puts | converts => simp
      | _ => rfl
    simp [hi, hsame]

/-- Commands leave `cfg` as it is once it is taken. -/
theorem cfg_of_runCommands {is : List Instr} {s t : State} (h : runCommands is s = .next t)
    (hc : s.cfg ≠ .unconfigured) : t.cfg = s.cfg := by
  induction is generalizing s with
  | nil => cases h; rfl
  | cons i is ih =>
    obtain ⟨u, hu⟩ := exists_exec_eq_next i s
    simp only [runCommands, hu] at h
    obtain ⟨hcu, -⟩ := cfg_of_exec_of_configured hu hc
    exact (ih h (hcu ▸ hc)).trans hcu

/-- The toggle law over any list of commands that does not configure (R160). -/
theorem act_of_runCommands {is : List Instr} {s t : State} (h : runCommands is s = .next t)
    (hc : s.cfg = .unconfigured → t.cfg ≠ .configured) :
    t.act = s.act ^^^ BitVec.ofNat 1 (is.countP (· == .adcEvtBufreq)) := by
  induction is generalizing s with
  | nil => cases h; simp
  | cons i is ih =>
    obtain ⟨u, hu⟩ := exists_exec_eq_next i s
    simp only [runCommands, hu] at h
    have hfirst : s.cfg = .unconfigured → u.cfg ≠ .configured := fun hs hcu =>
      hc hs ((cfg_of_runCommands h (by simp [hcu])).trans hcu)
    have hrest : u.cfg = .unconfigured → t.cfg ≠ .configured := fun hcu =>
      hc (Classical.not_not.1 fun hs => hs ((cfg_of_exec_of_configured hu hs).1.symm.trans hcu))
    rw [ih h hrest, act_of_exec_of_not_configures hu hfirst, List.countP_cons, BitVec.xor_assoc,
      ofNat_one_xor, Nat.add_comm]

/-- Settles O31: the first buffer-request of a row starts the shorter row in the other index. -/
theorem toggleLaw : Obligations.ToggleLaw := by
  refine ⟨fun _ _ _ => act_of_runCommands, fun n => ?_⟩
  induction n with
  | zero => exact fun s => ⟨_, rfl, by rw [BitVec.ofNat_toNat]; rfl⟩
  | succ n ih =>
    intro s
    obtain ⟨t, ht, hr⟩ := ih (respond .ok ((s.act ^^^ 1).zeroExtend 32) [] { s with act := s.act ^^^ 1 })
    refine ⟨t, ht, hr.trans ?_⟩
    rw [show (1 : BitVec 1) = BitVec.ofNat 1 1 from rfl, respond_act, BitVec.xor_assoc, ofNat_one_xor, Nat.add_comm 1]

/-! ### Conversion-done and finished (R153, R154) -/

/-- Settles O32: the put core stores what fits of the buffer's bytes, and `putCore_eq_putStore` is its frame. -/
theorem conversionDonePutsTheSamplesLowByteFirst : Obligations.ConversionDonePutsTheSamplesLowByteFirst := by
  refine fun idx n s => ⟨fun hin hn => ?_, exec_adcEvtDone_of_not_inited idx n, fun hin hn => ?_⟩
  · have hstore := putCore_storesPrefix (bufferBytes s idx n.toNat) (advanceDraws n.toNat s)
    refine ⟨bufferBytes s idx n.toNat, _, (putCore (bufferBytes s idx n.toNat) (advanceDraws n.toNat s)).ring,
      s.draws + n.toNat, length_bufferBytes .., fun j hj v hv => ?_, hstore, ?_⟩
    · rw [← sampleRead_eq_of_memRead hv]
      exact getElem?_bufferBytes s idx hj
    · rw [exec_adcEvtDone_of_legal idx hin (by simpa [countLegal] using hn), ← length_bufferBytes s idx n.toNat,
        putCore_eq_putStore, putCore_ovwCount, putCore_events]
      rfl
  · exact exec_adcEvtDone_of_not_legal idx hin (by simpa [countLegal] using hn)

/-- Settles O33: the command appends the event and answers, in one branch. -/
theorem finishedOnlyEmitsInfoFin : Obligations.FinishedOnlyEmitsInfoFin := fun _ => rfl

/-! ### ADC.START, ADC.STOP and ADC.BYTES (R155 to R157) -/

/-- Settles O34: by the four driver states. -/
theorem startEntersSamplingFromReadyOrStopped : Obligations.StartEntersSamplingFromReadyOrStopped := by
  intro s
  cases hd : s.drvState <;> simp [exec, execAdcStart, hd, respond, trigEn]

/-- Settles O35: by the two branches of the command. -/
theorem stopLeavesSampling : Obligations.StopLeavesSampling := by
  refine fun s => ⟨fun hd => if_pos hd, fun hd => if_neg hd, fun t ht => ?_⟩
  simp only [exec, execAdcStop] at ht
  split at ht <;> cases ht
  · rfl
  · simpa [trigEn]

/-- Settles O36: the answer is the product, and a word of 32 bits holds it modulo 2^32. -/
theorem acquiredBytesIsEventsTimesBufferBytes : Obligations.AcquiredBytesIsEventsTimesBufferBytes := fun _ =>
  ⟨_, rfl, BitVec.toNat_ofNat _ _⟩

/-! ### ADC.SWR (R158) -/

theorem exec_adcSwr_of_legal (idx : BitVec 1) {k : BitVec 7} (v : Sample) {s : State} (hk : k.toNat < s.params.sbLen) :
    exec (.adcSwr idx k v) s =
      .next (respond .ok 0 [] { s with samples := memWrite s.samples (sampleAddress idx k.toNat) v }) :=
  if_pos (by simpa [entryLegal] using hk)

/-- Settles O37: the store is written at one key, and different cells have different keys. -/
theorem sampleWriteChangesOneCell : Obligations.SampleWriteChangesOneCell := by
  refine fun idx k v s => ⟨fun hk => ?_, fun hk => ?_⟩
  · refine ⟨_, exec_adcSwr_of_legal idx v hk, memRead_memWrite_same .., fun idx' k' hne => ?_⟩
    refine memRead_memWrite_other _ _ fun ha => hne ?_
    obtain ⟨rfl, rfl⟩ := sampleAddress_inj ha
    rfl
  · exact if_neg (by simpa [entryLegal] using hk)

/-! ### The driver state (R159) -/

/-- A driver that is not configured is in NotReady (R159). -/
theorem drvState_of_not_configured {s : State} (h : AdcInv s) (hc : s.cfg ≠ .configured) : s.drvState = .notReady :=
  Classical.not_not.1 fun hd => hc (h.ready_configured hd)

/-- Settles O38: by the command; one that is none of the table's three leaves the driver state alone. -/
theorem driverStateFollowsTheTransitionTable : Obligations.DriverStateFollowsTheTransitionTable := by
  intro i s
  obtain ⟨t, ht⟩ := exists_exec_eq_next i s
  refine ⟨t, ht, drvState_of_not_configured, ?_⟩
  cases i with
  | adcEvtReady =>
    simp only [exec, execAdcEvtReady] at ht
    split at ht
    case isTrue h =>
      cases ht
      simp [transitionTable, h]
    case isFalse h =>
      cases ht
      cases hd : s.drvState <;> simp_all [transitionTable]
  | adcStart =>
    simp only [exec, execAdcStart] at ht
    split at ht <;> cases ht
    all_goals simp_all [transitionTable]
  | adcStop =>
    simp only [exec, execAdcStop] at ht
    split at ht
    case isTrue h =>
      cases ht
      simp [transitionTable, h]
    case isFalse h =>
      cases ht
      cases hd : s.drvState <;> simp_all [transitionTable]
  | _ => exact ⟨drvState_of_exec ht (by simp [Instr.opcode]), fun _ h => by cases h⟩

/-! ### A failed configuration (R150, R151, R155, R202) -/

/-- What every step keeps, every run keeps. -/
theorem invariant_runSteps {P : State → Prop} (hstep : ∀ {s t}, P s → step s = .next t → P t) {n : Nat} {s t : State}
    (hs : P s) (h : runSteps n s = .next t) : P t := by
  induction n generalizing s with
  | zero => cases h; exact hs
  | succ n ih =>
    simp only [runSteps] at h
    split at h
    · rename_i u hu
      exact ih (hstep hs hu) h
    · cases h
    · cases h

theorem cfg_failed_of_step {s t : State} (hc : s.cfg = .failed) (h : step s = .next t) : t.cfg = .failed := by
  obtain ⟨-, hcfg, -⟩ := faultIsStickyAndConfigIsWriteOnce s t h
  exact (hcfg (by simp [hc])).1.trans hc

/-- Settles O42: the driver leaves NotReady only where it is configured (`AdcInv`), and a failed configuration stays. -/
theorem failedConfigurationNeverSamples : Obligations.FailedConfigurationNeverSamples := by
  intro n s t hs hc h
  have hkeep : BlockInv t ∧ t.cfg = .failed := invariant_runSteps (P := fun u => BlockInv u ∧ u.cfg = .failed)
    (fun ⟨hu, hcu⟩ hstep => ⟨stepKeepsTheBlockInvariants _ _ hu hstep, cfg_failed_of_step hcu hstep⟩) ⟨hs, hc⟩ h
  obtain ⟨ht, hfailed⟩ := hkeep
  obtain ⟨-, hstart, -⟩ := startEntersSamplingFromReadyOrStopped t
  have hd : t.drvState = .notReady := drvState_of_not_configured ht.adc (by simp [hfailed])
  exact ⟨hd, by simp [trigEn, hd], hstart hd⟩

/-! ### Where the handoff protocol stands, and which buffer is reported next (R161, R183) -/

@[simp] theorem xor_one_xor_one (b : BitVec 1) : b ^^^ 1 ^^^ 1 = b := by
  rw [BitVec.xor_assoc, BitVec.xor_self, BitVec.xor_zero]

theorem ne_xor_one (b : BitVec 1) : b ≠ b ^^^ 1 := by
  revert b
  decide

/-- The positions of the handoff protocol (R183), for conversion-dones of `n` samples: whether driver-ready was raised,
the buffer being filled, the next destination, `act`, the buffer-requests and conversion-dones on their way, and the
buffer that the next conversion-done to be delivered reports. -/
inductive HandoffAt (n : BitVec 8) :
    Bool → Option (BitVec 1) → Option (BitVec 1) → BitVec 1 → List Instr → BitVec 1 → Prop
  | notReady : HandoffAt n false none none 0 [] 0
  | given (b : BitVec 1) : HandoffAt n true none (some b) b [] b
  | givenReporting (b : BitVec 1) : HandoffAt n true none (some b) b [.adcEvtDone (b ^^^ 1) n] (b ^^^ 1)
  | filling (f : BitVec 1) : HandoffAt n true (some f) none f [.adcEvtBufreq] f
  | fillingReporting (f : BitVec 1) :
      HandoffAt n true (some f) none f [.adcEvtDone (f ^^^ 1) n, .adcEvtBufreq] (f ^^^ 1)
  | fillingGiven (f : BitVec 1) : HandoffAt n true (some f) (some (f ^^^ 1)) (f ^^^ 1) [] f
  | starved (f : BitVec 1) : HandoffAt n true none none f [.adcEvtBufreq, .adcEvtDone f n] f

namespace HandoffAt

variable {n : BitVec 8} {ready : Bool} {f b act d : BitVec 1} {filling next : Option (BitVec 1)} {q : List Instr}

/-- Driver-ready gives the converter buffer 0 (R182 d). -/
theorem raiseReady (h : HandoffAt n false filling next act q d) : HandoffAt n true none (some 0) act q d := by
  cases h
  exact .given 0

/-- The converter starts the buffer it was given and asks for the one after it (R182 c). -/
theorem start (h : HandoffAt n ready none (some b) act q d) :
    HandoffAt n ready (some b) none act (q ++ [.adcEvtBufreq]) d := by
  cases h with
  | given => exact .filling b
  | givenReporting => exact .fillingReporting b

/-- The converter reports the buffer it filled while no earlier report waits, and fills none (R182 b). -/
theorem report (h : HandoffAt n ready (some f) next act q d) (hq : ∀ b, .adcEvtDone b n ∉ q) :
    HandoffAt n ready none next act (q ++ [.adcEvtDone f n]) d := by
  cases h with
  | filling => exact .starved f
  | fillingReporting => exact absurd List.mem_cons_self (hq (f ^^^ 1))
  | fillingGiven => simpa using givenReporting (n := n) (f ^^^ 1)

/-- A buffer-request delivered toggles `act`, which is the converter's next destination (R152, R183 (2)). -/
theorem deliverRequest (h : HandoffAt n ready filling next act (.adcEvtBufreq :: q) d) :
    HandoffAt n ready filling (some (act ^^^ 1)) (act ^^^ 1) q d := by
  cases h with
  | filling => exact .fillingGiven act
  | starved => simpa using givenReporting (n := n) (act ^^^ 1)

/-- A conversion-done delivered is of the buffer that is next, and the other buffer is next after it. -/
theorem deliverDone {idx : BitVec 1} {m : BitVec 8}
    (h : HandoffAt n ready filling next act (.adcEvtDone idx m :: q) d) :
    idx = d ∧ HandoffAt n ready filling next act q (d ^^^ 1) := by
  cases h with
  | givenReporting => exact ⟨rfl, by simpa using given act⟩
  | fillingReporting => exact ⟨rfl, by simpa using HandoffAt.filling (n := n) act⟩

/-- The conversion-done at the head is of the buffer other than `act`, and of `n` samples. -/
theorem done_at_head {idx : BitVec 1} {m : BitVec 8}
    (h : HandoffAt n ready filling next act (.adcEvtDone idx m :: q) d) : idx = act ^^^ 1 ∧ m = n := by
  cases h <;> exact ⟨rfl, rfl⟩

/-- A buffer whose conversion-done is on its way is not being filled. -/
theorem filling_ne_of_done (h : HandoffAt n ready filling next act q d) (hq : .adcEvtDone b n ∈ q) :
    filling ≠ some b := by
  cases h with
  | fillingReporting =>
    obtain rfl : b = act ^^^ 1 := by simpa using hq
    simpa using ne_xor_one act
  | givenReporting | starved => simp
  | notReady | given | filling | fillingGiven => simp at hq

/-- Before driver-ready the active index is 0 (R150). -/
theorem act_of_not_ready (h : HandoffAt n false filling next act q d) : act = 0 := by
  cases h
  rfl

/-- Nothing is filled before driver-ready. -/
theorem idle_of_not_ready (h : HandoffAt n false filling next act q d) : filling = none ∧ next = none := by
  cases h
  exact ⟨rfl, rfl⟩

end HandoffAt

/-- The order that ENV_HANDOFF asks for is that the protocol stands at one of its positions. -/
theorem handoffOrder_iff (s : State) (q : List Instr) :
    (handoffOrder s q ∧
        (s.converter.readyRaised = false → s.converter.filling = none ∧ s.converter.next = none)) ↔
      ∃ d, HandoffAt (BitVec.ofNat 8 s.params.sbLen) s.converter.readyRaised s.converter.filling s.converter.next s.act
        q d := by
  unfold handoffOrder doneOf
  generalize s.converter.readyRaised = ready
  generalize s.converter.filling = filling
  generalize s.converter.next = next
  generalize s.act = act
  generalize BitVec.ofNat 8 s.params.sbLen = n
  constructor
  · rintro ⟨ho, hr⟩
    cases filling with
    | some f =>
      obtain rfl : ready = true := by cases ready <;> simp at hr ⊢
      cases next with
      | none =>
        obtain ⟨rfl, rfl | rfl⟩ := ho
        · exact ⟨_, .filling act⟩
        · exact ⟨_, .fillingReporting act⟩
      | some b =>
        obtain ⟨rfl, rfl, rfl⟩ := ho
        exact ⟨_, .fillingGiven f⟩
    | none =>
      cases next with
      | some b =>
        obtain rfl : ready = true := by cases ready <;> simp at hr ⊢
        obtain ⟨rfl, rfl | rfl⟩ := ho
        · exact ⟨_, .given act⟩
        · exact ⟨_, .givenReporting act⟩
      | none =>
        cases ready with
        | true =>
          obtain rfl : q = _ := ho
          exact ⟨_, .starved act⟩
        | false =>
          obtain ⟨rfl, rfl⟩ : act = 0 ∧ q = [] := ho
          exact ⟨_, .notReady⟩
  · rintro ⟨d, h⟩
    cases h <;> simp

/-- `EnvHandoff` with the position of the protocol, `d` being the buffer that the next conversion-done reports. -/
structure ProtocolAt (d : BitVec 1) (s : State) : Prop where
  valid : s.params.valid = true
  alone : ∀ m ∈ s.schedule, ∀ w payload, m ≠ .present .interrupt w payload ∧ m ≠ .present .converter w payload
  elsewhere : ∀ p ∈ s.portF ++ s.portX, p.source ≠ .converterRequest
  configured : s.converter.readyRaised = true → s.cfg = .configured
  pos_le : s.converter.pos ≤ s.params.sbLen
  notifications : ∃ q : List Instr, s.portP = q.map converterRecord ∧
    (∀ i ∈ q, i.ctx = .interrupt ∧ ∀ data, i ≠ .rbPut data) ∧
    HandoffAt (BitVec.ofNat 8 s.params.sbLen) s.converter.readyRaised s.converter.filling s.converter.next s.act
      (q.filter isHandoff) d ∧
    ∀ b, doneOf s b ∈ q → bufferWritten s b s.params.sbLen
  samples : samplesInOrder s

theorem envHandoff_iff (s : State) : EnvHandoff s ↔ ∃ d, ProtocolAt d s := by
  constructor
  · intro h
    obtain ⟨q, hq, hctx, ho, hw⟩ := h.notifications
    obtain ⟨d, hat⟩ := (handoffOrder_iff s _).1 ⟨ho, h.unready⟩
    exact ⟨d, h.valid, h.alone, h.elsewhere, h.configured, h.pos_le, ⟨q, hq, hctx, hat, hw⟩, h.samples⟩
  · rintro ⟨d, h⟩
    obtain ⟨q, hq, hctx, hat, hw⟩ := h.notifications
    obtain ⟨ho, hr⟩ := (handoffOrder_iff s _).2 ⟨d, hat⟩
    exact ⟨h.valid, h.alone, h.elsewhere, h.configured, hr, h.pos_le, ⟨q, hq, hctx, ho, hw⟩, h.samples⟩

/-! ### The records of the converter -/

theorem converterRecord_injective {i j : Instr} (h : converterRecord i = converterRecord j) : i = j := by
  obtain ⟨hw, hp, -⟩ := Packet.mk.injEq .. ▸ h
  have hi := decodeWord_encodeWord i
  rw [show encodeWord i = encodeWord j from hw, show encodePayload i = encodePayload j from hp,
    decodeWord_encodeWord j] at hi
  cases hi
  rfl

theorem decodeCommand_converterRecord {i : Instr} (hi : ∀ data, i ≠ .rbPut data) :
    decodeCommand i.ctx (converterRecord i).word (converterRecord i).payload = .ok i := by
  obtain ⟨hwf, -, -⟩ := noPayload_of_not_rbPut hi
  exact decodingTheEncodedRecordGivesTheCommand i hwf

/-- A sample on its way is pending. -/
theorem samplesPending_sampleRecords {s : State} {f : BitVec 1} {k : Nat} {v : Sample} {vs : List Sample}
    (hA : s.portA = sampleRecords f k (v :: vs)) : samplesPending s = true := by
  simp [samplesPending, hA, sampleRecords, converterRecord]

theorem samplesInOrder_of_idle {s : State} (hf : s.converter.filling = none) : samplesInOrder s ↔ s.portA = [] := by
  simp [samplesInOrder, hf]

theorem samplesInOrder_of_filling {s : State} {f : BitVec 1} (hf : s.converter.filling = some f) :
    samplesInOrder s ↔
      ∃ k vs, k + vs.length = s.converter.pos ∧ s.portA = sampleRecords f k vs ∧ bufferWritten s f k := by
  simp [samplesInOrder, hf]

/-- The 7 bits of an entry number hold it (R6, R93). -/
theorem toNat_entry {p : Params} (hp : p.valid = true) {k : Nat} (hk : k < p.sbLen) : (BitVec.ofNat 7 k).toNat = k := by
  obtain ⟨-, -, -, -, hlen, -⟩ := capacity_bounds hp
  rw [BitVec.toNat_ofNat]
  exact Nat.mod_eq_of_lt (by omega)

theorem serve_of_decodeCommand_ok {c : Ctx} {p : Packet} {rest : List Packet} {i : Instr} {s : State}
    (hq : portQueue c s = p :: rest) (hg : getPending c s = none) (hd : decodeCommand c p.word p.payload = .ok i) :
    serve c s = onNext (settle c p rest) (exec i s) := by
  rw [serve_of_portQueue_cons hq, runPacket_of_getPending_none p hg, runRecord_of_decodeCommand_ok s hd]

/-! ### Moves that leave the protocol where it stands -/

/-- `t` is as `s` is in all that the handoff protocol reads, but for what leaves F and X and is added there by others
than the converter, and for `cfg`, which stays Configured. -/
structure Undisturbed (s t : State) : Prop where
  params : t.params = s.params
  schedule : t.schedule = s.schedule
  requests : ∀ p ∈ t.portF ++ t.portX, p.source = .converterRequest → p ∈ s.portF ++ s.portX
  cfg : s.cfg = .configured → t.cfg = .configured
  act : t.act = s.act
  samples : t.samples = s.samples
  portP : t.portP = s.portP
  portA : t.portA = s.portA
  readyRaised : t.converter.readyRaised = s.converter.readyRaised
  filling : t.converter.filling = s.converter.filling
  next : t.converter.next = s.converter.next
  pos : t.converter.pos = s.converter.pos

theorem Undisturbed.refl (s : State) : Undisturbed s s :=
  ⟨rfl, rfl, fun _ hp _ => hp, id, rfl, rfl, rfl, rfl, rfl, rfl, rfl, rfl⟩

theorem Undisturbed.trans {s t u : State} (h : Undisturbed s t) (h' : Undisturbed t u) : Undisturbed s u where
  params := h'.params.trans h.params
  schedule := h'.schedule.trans h.schedule
  requests p hp hsrc := h.requests p (h'.requests p hp hsrc) hsrc
  cfg hc := h'.cfg (h.cfg hc)
  act := h'.act.trans h.act
  samples := h'.samples.trans h.samples
  portP := h'.portP.trans h.portP
  portA := h'.portA.trans h.portA
  readyRaised := h'.readyRaised.trans h.readyRaised
  filling := h'.filling.trans h.filling
  next := h'.next.trans h.next
  pos := h'.pos.trans h.pos

theorem ProtocolAt.of_undisturbed {d : BitVec 1} {s t : State} (h : ProtocolAt d s) (hu : Undisturbed s t) :
    ProtocolAt d t where
  valid := hu.params ▸ h.valid
  alone := hu.schedule ▸ h.alone
  elsewhere p hp hsrc := h.elsewhere p (hu.requests p hp hsrc) hsrc
  configured hr := hu.cfg (h.configured (hu.readyRaised ▸ hr))
  pos_le := by simpa only [hu.pos, hu.params] using h.pos_le
  notifications := by
    simpa only [hu.portP, hu.params, hu.readyRaised, hu.filling, hu.next, hu.act, hu.samples, doneOf, bufferWritten]
      using h.notifications
  samples := by
    simpa only [samplesInOrder, hu.filling, hu.pos, hu.portA, hu.samples, bufferWritten] using h.samples

/-! The host. -/

theorem undisturbed_host (host : HostLoop) (s : State) : Undisturbed s { s with host := host } :=
  ⟨rfl, rfl, fun _ hp _ => hp, id, rfl, rfl, rfl, rfl, rfl, rfl, rfl, rfl⟩

/-- Ports F and X may change, if no request of the converter's comes to them. -/
theorem undisturbed_setPortQueue {c : Ctx} (hc : c = .foreground ∨ c = .reserved) {q : List Packet} {s : State}
    (hq : ∀ p ∈ q, p.source = .converterRequest → p ∈ portQueue c s) : Undisturbed s (setPortQueue c q s) := by
  rcases hc with rfl | rfl
  · refine ⟨rfl, rfl, fun p hp hsrc => ?_, id, rfl, rfl, rfl, rfl, rfl, rfl, rfl, rfl⟩
    exact List.mem_append.2 ((List.mem_append.1 hp).imp_left fun hm => hq p hm hsrc)
  · refine ⟨rfl, rfl, fun p hp hsrc => ?_, id, rfl, rfl, rfl, rfl, rfl, rfl, rfl, rfl⟩
    exact List.mem_append.2 ((List.mem_append.1 hp).imp_right fun hm => hq p hm hsrc)

theorem undisturbed_present {c : Ctx} (hc : c = .foreground ∨ c = .reserved) {p : Packet}
    (hp : p.source ≠ .converterRequest) (s : State) : Undisturbed s (present c p s) := by
  refine undisturbed_setPortQueue hc fun q hq hsrc => (List.mem_append.1 hq).elim id fun hm => ?_
  obtain rfl := List.mem_singleton.1 hm
  exact absurd hsrc hp

theorem undisturbed_hostIssue (p : HostPhase) {i : Instr} (s : State) (hi : i.ctx = .foreground := by rfl) :
    Undisturbed s (hostIssue p i s) :=
  (undisturbed_host _ s).trans (undisturbed_present (.inl hi) (by simp) _)

theorem undisturbed_hostTimerTick (s : State) : Undisturbed s (hostTimerTick s) := by
  unfold hostTimerTick
  split
  · exact undisturbed_host _ s
  · exact .refl s

theorem undisturbed_hostStop (s : State) : Undisturbed s (hostStop s) :=
  (undisturbed_host _ s).trans (undisturbed_hostIssue _ _)

theorem undisturbed_hostHandle (e : HostEvent) (s : State) : Undisturbed s (hostHandle e s) := by
  unfold hostHandle
  split
  · exact undisturbed_hostIssue _ s
  · exact .refl s
  · exact .refl s
  · exact undisturbed_hostStop s
  · exact .refl s
  · exact (undisturbed_host _ s).trans (undisturbed_hostIssue _ _)

theorem undisturbed_hostTurn (sendOk : Bool) (s : State) : Undisturbed s (hostTurn sendOk s) := by
  unfold hostTurn
  repeat' split
  · exact (undisturbed_host _ s).trans (undisturbed_hostHandle _ _)
  · exact undisturbed_hostIssue _ s
  · exact .refl s
  · exact .refl s

theorem undisturbed_hostReceiveStart (r : Response) (s : State) : Undisturbed s (hostReceiveStart r s) := by
  unfold hostReceiveStart hostSessionBegins
  repeat' split
  · exact (undisturbed_host _ s).trans (undisturbed_hostIssue _ _)
  · exact undisturbed_host _ s
  · exact undisturbed_host _ s

theorem undisturbed_hostReceiveChunk (sendOk : Bool) (r : Response) (s : State) :
    Undisturbed s (hostReceiveChunk sendOk r s) := by
  unfold hostReceiveChunk
  repeat' split
  all_goals exact undisturbed_host _ s

theorem undisturbed_hostEmitTelemetry (t : Telemetry) (s : State) : Undisturbed s (hostEmitTelemetry t s) := by
  unfold hostEmitTelemetry
  split
  · exact (undisturbed_host _ s).trans (undisturbed_hostStop _)
  · exact undisturbed_host _ s

theorem undisturbed_hostReceiveTelemetry (got : List Word) (v : Word) (s : State) :
    Undisturbed s (hostReceiveTelemetry got v s) := by
  unfold hostReceiveTelemetry
  split
  case h_6 => exact undisturbed_hostEmitTelemetry _ s
  all_goals exact undisturbed_hostIssue _ s

theorem undisturbed_hostReceive (r : Response) (s : State) : Undisturbed s (hostReceive r s) := by
  unfold hostReceive
  split
  · exact .refl s
  · exact undisturbed_hostReceiveStart r s
  · exact undisturbed_host _ s
  · exact undisturbed_hostReceiveChunk _ r s
  · exact undisturbed_hostReceiveTelemetry _ _ s
  · exact undisturbed_host _ s

/-! The answers. -/

theorem undisturbed_deliver {src : Source} (hsrc : src ≠ .converterRequest) (r : Response) (s : State) :
    Undisturbed s (deliver src r s) := by
  cases src with
  | external =>
    unfold deliver hostReportConfigError
    dsimp only
    split
    · exact undisturbed_host _ s
    · exact .refl s
  | converter => exact .refl s
  | converterRequest => exact absurd rfl hsrc
  | host => exact undisturbed_hostReceive r s

/-- Settling a command that is no buffer-request of the converter's takes its record off and does no more. -/
theorem undisturbed_settle {c : Ctx} {p : Packet} {rest : List Packet} {s : State}
    (hsrc : p.source ≠ .converterRequest) (hr : s.response ≠ none) :
    Undisturbed (setPortQueue c rest s) (settle c p rest s) := by
  obtain ⟨r, hr⟩ := Option.ne_none_iff_exists'.1 hr
  rw [settle_of_response_some c p rest hr]
  refine .trans ?_ (undisturbed_deliver hsrc r _)
  cases c <;> exact ⟨rfl, rfl, fun _ hp _ => hp, id, rfl, rfl, rfl, rfl, rfl, rfl, rfl, rfl⟩

/-! What is served on ports F and X. -/

/-- What the block makes of the record at the head of a port. -/
theorem runPacket_cases {c : Ctx} {p : Packet} {s u : State} (h : runPacket c p s = .next u) :
    (∃ i, i.ctx = c ∧ exec i s = .next u) ∨ (∃ g, u = getContinue g s) ∨ u = reportIllegal s := by
  cases hg : getPending c s with
  | some g =>
    rw [runPacket_of_getPending_some p hg] at h
    cases h
    exact .inr (.inl ⟨g, rfl⟩)
  | none =>
    rw [runPacket_of_getPending_none p hg] at h
    cases hd : decodeCommand c p.word p.payload with
    | ok i =>
      rw [runRecord_of_decodeCommand_ok s hd] at h
      exact .inl ⟨i, ctx_of_decodeCommand hd, h⟩
    | error e =>
      by_cases he : e = .payloadNotOfLength
      · simp [runRecord, hd, he] at h
      · rw [runRecord_of_illegal s hd he] at h
        cases h
        exact .inr (.inr rfl)

/-- A command other than a buffer-request and a sample write leaves the samples alone, and `act` but for a successful
ADC.CONFIG, which makes it 0 (R42, R150). -/
theorem undisturbed_of_exec {i : Instr} {s u : State} (hi : i.opcode ∉ [0x22#8, 0x28#8])
    (hact : s.cfg = .unconfigured → s.act = 0) (h : exec i s = .next u) : Undisturbed s u := by
  obtain ⟨hsched, hF, hP, hA, hX, hconv, -⟩ := agents_of_exec h
  have hsamples : u.samples = s.samples := samples_of_exec h fun he => hi (by simp [he])
  have hactive : u.act = s.act := by
    cases exec_effect h with
    | configures _ hc => exact (hact hc).symm
    | toggles he => simp [he, Instr.opcode] at hi
    | puts | converts => simp
    | _ => rfl
  exact
    { params := params_of_exec h
      schedule := hsched
      requests := fun p hp _ => by rwa [hF, hX] at hp
      cfg := fun hc => (cfg_of_exec_of_configured h (by simp [hc])).1.trans hc
      act := hactive
      samples := hsamples
      portP := hP
      portA := hA
      readyRaised := by rw [hconv]
      filling := by rw [hconv]
      next := by rw [hconv]
      pos := by rw [hconv] }

theorem opcode_of_ctx_foreground {i : Instr} (hi : i.ctx = .foreground) : i.opcode ∉ [0x22#8, 0x28#8] := by
  cases i with
  | adcEvtBufreq | adcSwr => cases hi
  | _ => simp [Instr.opcode]

theorem undisturbed_getContinue (g : GetProgress) (s : State) : Undisturbed s (getContinue g s) := by
  unfold getContinue
  split <;> exact ⟨rfl, rfl, fun _ hp _ => hp, id, rfl, rfl, rfl, rfl, rfl, rfl, rfl, rfl⟩

theorem undisturbed_respond (st : Status) (v : Word) (data : List Byte) (s : State) :
    Undisturbed s (respond st v data s) :=
  ⟨rfl, rfl, fun _ hp _ => hp, id, rfl, rfl, rfl, rfl, rfl, rfl, rfl, rfl⟩

theorem undisturbed_reportIllegal (s : State) : Undisturbed s (reportIllegal s) :=
  ⟨rfl, rfl, fun _ hp _ => hp, id, rfl, rfl, rfl, rfl, rfl, rfl, rfl, rfl⟩

/-- Until a configuration succeeds `act` is 0 (R150). -/
theorem ProtocolAt.act_of_unconfigured {d : BitVec 1} {s : State} (h : ProtocolAt d s) (hc : s.cfg = .unconfigured) :
    s.act = 0 := by
  obtain ⟨q, -, -, hat, -⟩ := h.notifications
  cases hr : s.converter.readyRaised with
  | true => simp [h.configured hr] at hc
  | false =>
    rw [hr] at hat
    exact hat.act_of_not_ready

/-- Serving ports F and X leaves the protocol where it stands. -/
theorem ProtocolAt.undisturbed_serve {d : BitVec 1} {c : Ctx} {s t : State} (h : ProtocolAt d s)
    (hc : c = .foreground ∨ c = .reserved) (ht : serve c s = .next t) : Undisturbed s t := by
  cases hq : portQueue c s with
  | nil =>
    rw [serve_of_portQueue_nil hq] at ht
    cases ht
    exact .refl s
  | cons p rest =>
    rw [serve_of_portQueue_cons hq] at ht
    obtain ⟨u, hu, rfl⟩ := onNext_next ht
    have hqu : portQueue c u = p :: rest := (portQueue_of_serves c (serves_of_runPacket hu)).trans hq
    have hsrc : p.source ≠ .converterRequest :=
      h.elsewhere p (by rcases hc with rfl | rfl <;> exact List.mem_append.2 (by simp_all [portQueue]))
    have hsu : Undisturbed s u := by
      rcases runPacket_cases hu with ⟨i, hi, he⟩ | ⟨g, rfl⟩ | rfl
      · have hi' : i.ctx = .foreground := hc.elim hi.trans fun hX => absurd (hi.trans hX) i.ctx_ne_reserved
        exact undisturbed_of_exec (opcode_of_ctx_foreground hi') h.act_of_unconfigured he
      · exact undisturbed_getContinue g s
      · exact undisturbed_reportIllegal s
    refine hsu.trans ?_
    cases hr : u.response with
    | none =>
      rw [settle_of_response_none c p rest hr]
      exact .refl u
    | some r =>
      have hrest : Undisturbed u (setPortQueue c rest u) :=
        undisturbed_setPortQueue hc fun q hm _ => hqu ▸ List.mem_cons_of_mem p hm
      exact hrest.trans (undisturbed_settle hsrc (by simp [hr]))

/-! ### The moves of the converter (R182) -/

section

variable {d : BitVec 1} {s : State}

/-- Finished and driver-ready are no notifications of the handoff (R183 (4)). -/
theorem protocolAt_issue_other {i : Instr} (h : ProtocolAt d s) (hi : i = .adcEvtFin ∨ i = .adcEvtReady) :
    ProtocolAt d (issue .converter i s) := by
  obtain ⟨q, hq, hctx, hat, hw⟩ := h.notifications
  obtain ⟨hcx, hput, hsrc, hnot, hdone⟩ : i.ctx = .interrupt ∧ (∀ data, i ≠ .rbPut data) ∧
      converterRecord i = ⟨encodeWord i, encodePayload i, .converter⟩ ∧ isHandoff i = false ∧
      ∀ b n, i ≠ .adcEvtDone b n := by
    rcases hi with rfl | rfl <;> exact ⟨rfl, by simp, rfl, rfl, by simp⟩
  rw [issue_interrupt _ _ hcx]
  refine ⟨h.valid, h.alone, h.elsewhere, h.configured, h.pos_le, ⟨q ++ [i], ?_, ?_, ?_, ?_⟩, h.samples⟩
  · simp [hq, hsrc]
  · exact List.forall_mem_append.2 ⟨hctx, by simp [hcx, hput]⟩
  · simpa [hnot] using hat
  · intro b hb
    exact hw b (by simpa [doneOf, (hdone _ _).symm] using hb)

theorem protocolAt_converterDriverReady (h : ProtocolAt d s) : ProtocolAt d (converterDriverReady s) := by
  unfold converterDriverReady
  split
  case isTrue hc =>
    obtain ⟨hcfg, hready⟩ := hc
    obtain ⟨q, hq, hctx, hat, hw⟩ := h.notifications
    rw [hready] at hat
    obtain ⟨hf, -⟩ := hat.idle_of_not_ready
    have hgiven := hat.raiseReady
    rw [← hf] at hgiven
    exact protocolAt_issue_other
      ⟨h.valid, h.alone, h.elsewhere, fun _ => hcfg, h.pos_le, ⟨q, hq, hctx, hgiven, hw⟩, h.samples⟩ (.inr rfl)
  case isFalse => exact h

theorem protocolAt_converterBegin {b : BitVec 1} (h : ProtocolAt d s) (hf : s.converter.filling = none)
    (hn : s.converter.next = some b) : ProtocolAt d (converterBegin b s) := by
  obtain ⟨q, hq, hctx, hat, hw⟩ := h.notifications
  have hA := (samplesInOrder_of_idle hf).1 h.samples
  rw [hf, hn] at hat
  rw [converterBegin, issue_interrupt _ _ rfl]
  refine ⟨h.valid, h.alone, h.elsewhere, h.configured, Nat.zero_le _, ⟨q ++ [.adcEvtBufreq], ?_, ?_, ?_, ?_⟩,
    0, [], rfl, hA, fun k hk => absurd hk k.not_lt_zero⟩
  · simp [hq, converterRecord]
  · exact List.forall_mem_append.2 ⟨hctx, by simp [Instr.ctx]⟩
  · rw [List.filter_append]
    exact hat.start
  · intro b hb
    exact hw b (by simpa [doneOf] using hb)

theorem protocolAt_converterStartBuffer (h : ProtocolAt d s) : ProtocolAt d (converterStartBuffer s) := by
  unfold converterStartBuffer
  split
  case h_1 b hf hn =>
    split
    · exact protocolAt_converterBegin h hf hn
    · exact h
  all_goals exact h

theorem protocolAt_converterSample (v : Sample) (h : ProtocolAt d s) : ProtocolAt d (converterSample v s) := by
  cases hf : s.converter.filling with
  | none => simpa [converterSample, hf] using h
  | some f =>
    by_cases hc : trigEn s = true ∧ s.converter.pos < s.params.sbLen
    · obtain ⟨ht, hp⟩ := hc
      rw [converterSample_of_filling v hf ht hp, issue_converter _ _ rfl]
      refine ⟨h.valid, h.alone, h.elsewhere, h.configured, hp, h.notifications, ?_⟩
      obtain ⟨k, vs, hk, hA, hw⟩ := (samplesInOrder_of_filling hf).1 h.samples
      refine (samplesInOrder_of_filling (by exact hf)).2 ⟨k, vs ++ [v], by simp [← hk, Nat.add_assoc], ?_, hw⟩
      rw [sampleRecords_append, hA, hk]
      rfl
    · simpa [converterSample, hf, hc] using h

/-- A full buffer is reported, and the converter fills none (R182 b). -/
theorem protocolAt_report {f : BitVec 1} (h : ProtocolAt d s) (hf : s.converter.filling = some f)
    (hb : batchComplete s = true) : ProtocolAt d (converterRest (issue .converter (doneOf s f) s)) := by
  obtain ⟨q, hq, hctx, hat, hw⟩ := h.notifications
  obtain ⟨k, vs, hk, hA, hwf⟩ := (samplesInOrder_of_filling hf).1 h.samples
  obtain ⟨⟨⟨hfull, hsamples⟩, hdones⟩, -⟩ : ((s.converter.pos = s.params.sbLen ∧ samplesPending s = false) ∧
      donePending s = false) ∧ s.converter.stopReported = false := by simpa [batchComplete] using hb
  obtain rfl : vs = [] := by
    cases vs with
    | nil => rfl
    | cons v vs => simp [samplesPending_sampleRecords hA] at hsamples
  obtain rfl : k = s.params.sbLen := by simpa [hfull] using hk
  have hnone : ∀ b n, .adcEvtDone b n ∉ q := by
    intro b n hm
    have : donePending s = true := by
      rw [donePending, hq, List.any_map]
      exact List.any_eq_true.2 ⟨_, hm, isOwnDone_converterRecord b n⟩
    simp [this] at hdones
  rw [issue_interrupt _ _ rfl]
  rw [hf] at hat
  refine ⟨h.valid, h.alone, h.elsewhere, h.configured, Nat.zero_le _, ⟨q ++ [doneOf s f], ?_, ?_, ?_, ?_⟩, hA⟩
  · simp [converterRest, hq, converterRecord, doneOf]
  · exact List.forall_mem_append.2 ⟨hctx, by simp [doneOf, Instr.ctx]⟩
  · rw [List.filter_append]
    exact hat.report fun b hm => hnone b _ (List.mem_filter.1 hm).1
  · intro b hm
    rcases List.mem_append.1 hm with hm | hm
    · exact hw b hm
    · obtain rfl : b = f := by simpa [doneOf, converterRest] using hm
      exact hwf

theorem protocolAt_converterLink (h : ProtocolAt d (converterRest s)) : ProtocolAt d (converterLink s) := by
  unfold converterLink
  split
  · split
    case h_1 b hn => exact protocolAt_converterBegin (s := converterRest s) h rfl hn
    case h_2 => exact protocolAt_issue_other h (.inl rfl)
  · exact h

theorem protocolAt_converterEndOfBatch (h : ProtocolAt d s) : ProtocolAt d (converterEndOfBatch s) := by
  unfold converterEndOfBatch
  split
  case h_1 f hf =>
    split
    case isTrue hb => exact protocolAt_converterLink (protocolAt_report h hf hb)
    case isFalse => exact h
  case h_2 => exact h

/-! ### What is served on port A -/

/-- The sample at the head of port A goes to the store, and the protocol stands where it stood. -/
theorem protocolAt_writeSample {f : BitVec 1} {k : Nat} {v : Sample} {vs : List Sample} (h : ProtocolAt d s)
    (hf : s.converter.filling = some f) (hk : k + (vs.length + 1) = s.converter.pos) (hw : bufferWritten s f k) :
    ProtocolAt d
      { s with
        portA := sampleRecords f (k + 1) vs
        samples := memWrite s.samples (sampleAddress f k) v } := by
  obtain ⟨q, hq, hctx, hat, hdone⟩ := h.notifications
  refine ⟨h.valid, h.alone, h.elsewhere, h.configured, h.pos_le,
    ⟨q, hq, hctx, hat, fun b hb => bufferWritten_of_memWrite rfl (hdone b hb)⟩, ?_⟩
  have hpos : k + 1 + vs.length = s.converter.pos := by omega
  refine (samplesInOrder_of_filling (by exact hf)).2 ⟨k + 1, vs, hpos, rfl, fun j hj => ?_⟩
  by_cases hjk : j = k
  · simp [hjk]
  · exact bufferWritten_of_memWrite rfl hw j (by omega)

/-- Port A holds nothing but samples of the buffer being filled, the next entry first (R183 (5)). -/
theorem ProtocolAt.portA_cases (h : ProtocolAt d s) :
    s.portA = [] ∨ ∃ f k v vs, s.converter.filling = some f ∧ s.portA = sampleRecords f k (v :: vs) ∧
      k + (vs.length + 1) = s.converter.pos ∧ bufferWritten s f k := by
  cases hf : s.converter.filling with
  | none => exact .inl ((samplesInOrder_of_idle hf).1 h.samples)
  | some f =>
    obtain ⟨k, vs, hk, hA, hw⟩ := (samplesInOrder_of_filling hf).1 h.samples
    cases vs with
    | nil => exact .inl hA
    | cons v vs => exact .inr ⟨f, k, v, vs, rfl, hA, hk, hw⟩

theorem protocolAt_serve_converter {t : State} (h : ProtocolAt d s) (ht : serve .converter s = .next t) :
    ProtocolAt d t := by
  rcases h.portA_cases with hA | ⟨f, k, v, vs, hf, hA, hk, hw⟩
  · rw [serve_of_portQueue_nil (c := .converter) hA] at ht
    cases ht
    exact h
  · have hk' : k < s.params.sbLen := lt_of_lt_of_le (by omega) h.pos_le
    have hkey := toNat_entry h.valid hk'
    rw [serve_of_decodeCommand_ok (c := .converter) hA rfl (decodeCommand_adcSwr f _ v),
      exec_adcSwr_of_legal f v (hkey.symm ▸ hk'), hkey] at ht
    cases ht
    refine (protocolAt_writeSample (v := v) h hf hk hw).of_undisturbed (.trans ?_ (undisturbed_settle ?_ ?_))
    · exact undisturbed_respond .ok 0 [] _
    · simp [converterRecord]
    · simp

/-! ### What is served on port P -/

/-- The record at the head of port P is a notification of the converter's, which decodes as it was issued. -/
theorem ProtocolAt.portP_cons {p : Packet} {rest : List Packet} (h : ProtocolAt d s) (hP : s.portP = p :: rest) :
    ∃ i q, p = converterRecord i ∧ rest = q.map converterRecord ∧ i.ctx = .interrupt ∧ (∀ data, i ≠ .rbPut data) ∧
      decodeCommand .interrupt p.word p.payload = .ok i ∧ (∀ j ∈ q, j.ctx = .interrupt ∧ ∀ data, j ≠ .rbPut data) ∧
      HandoffAt (BitVec.ofNat 8 s.params.sbLen) s.converter.readyRaised s.converter.filling s.converter.next s.act
        ((i :: q).filter isHandoff) d ∧
      ∀ b, doneOf s b ∈ q → bufferWritten s b s.params.sbLen := by
  obtain ⟨q, hq, hctx, hat, hw⟩ := h.notifications
  cases q with
  | nil => simp [hq] at hP
  | cons i q =>
    obtain ⟨rfl, rfl⟩ : converterRecord i = p ∧ q.map converterRecord = rest := by simpa [hq] using hP
    obtain ⟨⟨hi, hput⟩, hrest⟩ := List.forall_mem_cons.1 hctx
    have hd := decodeCommand_converterRecord hput
    rw [hi] at hd
    exact ⟨i, q, rfl, rfl, hi, hput, hd, hrest, hat, fun b hb => hw b (List.mem_cons_of_mem i hb)⟩

/-- The state after a notification is delivered: it leaves port P, and `act` and the next destination may change. -/
theorem protocolAt_delivered {d' a : BitVec 1} {q : List Instr} {next : Option (BitVec 1)} (h : ProtocolAt d s)
    (hctx : ∀ i ∈ q, i.ctx = .interrupt ∧ ∀ data, i ≠ .rbPut data)
    (hat : HandoffAt (BitVec.ofNat 8 s.params.sbLen) s.converter.readyRaised s.converter.filling next a
      (q.filter isHandoff) d')
    (hw : ∀ b, doneOf s b ∈ q → bufferWritten s b s.params.sbLen) :
    ProtocolAt d'
      { s with
        portP := q.map converterRecord
        act := a
        converter := { s.converter with next := next } } :=
  ⟨h.valid, h.alone, h.elsewhere, h.configured, h.pos_le, ⟨q, rfl, hctx, hat, hw⟩, h.samples⟩

/-- A notification other than a buffer-request does no more to the protocol than to leave port P. -/
theorem ProtocolAt.undisturbed_settle_notification {i : Instr} {rest : List Packet} {u : State} (h : ProtocolAt d s)
    (hi : i = .adcEvtReady ∨ i = .adcEvtFin ∨ ∃ idx n, i = .adcEvtDone idx n) (hu : exec i s = .next u) :
    Undisturbed { s with portP := rest } (settle .interrupt (converterRecord i) rest u) := by
  obtain ⟨hop, hsrc, hresp⟩ : i.opcode ∉ [0x22#8, 0x28#8] ∧ (converterRecord i).source ≠ .converterRequest ∧
      ∀ len, i ≠ .rbGet len := by
    rcases hi with rfl | rfl | ⟨idx, n, rfl⟩ <;> simp [Instr.opcode, converterRecord]
  have hr : u.response ≠ none := fun hr => by
    obtain ⟨-, -, len, hget⟩ := beginsGet_of_exec_response_none hu hr
    exact hresp len hget
  have hsu := undisturbed_of_exec hop h.act_of_unconfigured hu
  have hpop : Undisturbed { s with portP := rest } (setPortQueue .interrupt rest u) := { hsu with portP := rfl }
  exact hpop.trans (undisturbed_settle hsrc hr)

/-- The answer to the converter's buffer-request is the new `act`, which becomes its next destination (R183 (2)). -/
theorem undisturbed_settle_request {rest : List Packet} {u : State} (hu : exec .adcEvtBufreq s = .next u) :
    Undisturbed
      { s with
        portP := rest
        act := s.act ^^^ 1
        converter := { s.converter with next := some (s.act ^^^ 1) } }
      (settle .interrupt (converterRecord .adcEvtBufreq) rest u) := by
  rw [exec_adcEvtBufreq] at hu
  cases hu
  have hidx : ((s.act ^^^ 1).zeroExtend 32).extractLsb' 0 1 = s.act ^^^ 1 := by
    generalize s.act ^^^ 1 = b
    revert b
    decide
  exact ⟨rfl, rfl, fun _ hp _ => hp, id, rfl, rfl, rfl, rfl, rfl, rfl, congrArg some hidx, rfl⟩

/-- A notification that is served leaves the protocol where it stands, but for a conversion-done, which is of the buffer
that is next to be reported; the other one is next after it. -/
theorem protocolAt_serve_interrupt {t : State} {p : Packet} {rest : List Packet} (h : ProtocolAt d s)
    (hP : s.portP = p :: rest) (ht : serve .interrupt s = .next t) :
    ∃ i, decodeCommand .interrupt p.word p.payload = .ok i ∧
      ((∃ n, i = .adcEvtDone d n ∧ ProtocolAt (d ^^^ 1) t) ∨ (∀ idx n, i ≠ .adcEvtDone idx n) ∧ ProtocolAt d t) := by
  obtain ⟨i, q, rfl, rfl, hi, hput, hd, hrest, hat, hw⟩ := h.portP_cons hP
  rw [serve_of_decodeCommand_ok (c := .interrupt) hP rfl hd] at ht
  obtain ⟨u, hu, rfl⟩ := onNext_next ht
  refine ⟨i, hd, ?_⟩
  cases i with
  | adcEvtDone idx n =>
    obtain ⟨rfl, hat'⟩ := HandoffAt.deliverDone (idx := idx) (m := n) hat
    exact .inl ⟨n, rfl, (protocolAt_delivered h hrest hat' hw).of_undisturbed
      (h.undisturbed_settle_notification (.inr (.inr ⟨idx, n, rfl⟩)) hu)⟩
  | adcEvtBufreq =>
    exact .inr ⟨by simp, (protocolAt_delivered h hrest (HandoffAt.deliverRequest hat) hw).of_undisturbed
      (undisturbed_settle_request hu)⟩
  | adcEvtReady =>
    exact .inr ⟨by simp, (protocolAt_delivered h hrest hat hw).of_undisturbed
      (h.undisturbed_settle_notification (.inl rfl) hu)⟩
  | adcEvtFin =>
    exact .inr ⟨by simp, (protocolAt_delivered h hrest hat hw).of_undisturbed
      (h.undisturbed_settle_notification (.inr (.inl rfl)) hu)⟩
  | rbPut data => exact absurd rfl (hput data)
  | _ => cases hi

end

/-! ### The step -/

/-- The command the next step runs stands at the head of its own port, and the next move serves that port. -/
theorem served_of_nextCommand {s : State} {i : Instr} (h : nextCommand s = some i) :
    ∃ later p rest, s.schedule = .serve i.ctx :: later ∧ portQueue i.ctx s = p :: rest ∧
      decodeCommand i.ctx p.word p.payload = .ok i := by
  unfold nextCommand at h
  split at h
  case h_1 c later hs =>
    split at h
    case h_1 p rest hq hg =>
      split at h
      case h_1 i' hd =>
        cases h
        obtain rfl := ctx_of_decodeCommand hd
        exact ⟨later, p, rest, hs, hq, hd⟩
      case h_2 => cases h
    case h_2 => cases h
  case h_2 => cases h

theorem stepDone_eq_nil {s : State} (h : ∀ idx n, nextCommand s ≠ some (.adcEvtDone idx n)) : stepDone s = [] := by
  unfold stepDone
  split
  case h_1 idx n hn => exact absurd hn (h idx n)
  case h_2 => rfl

/-- A step that does not serve port P delivers no conversion-done. -/
theorem stepDone_eq_nil_of_schedule {s : State} {m : Move} {later : List Move} (hs : s.schedule = m :: later)
    (hm : m ≠ .serve .interrupt) : stepDone s = [] := by
  refine stepDone_eq_nil fun idx n hn => ?_
  obtain ⟨later', -, -, hs', -⟩ := served_of_nextCommand hn
  rw [hs] at hs'
  exact hm (List.cons.inj hs').1

theorem nextCommand_interrupt {s : State} {later : List Move} {p : Packet} {rest : List Packet} {i : Instr}
    (hs : s.schedule = .serve .interrupt :: later) (hP : s.portP = p :: rest)
    (hd : decodeCommand .interrupt p.word p.payload = .ok i) : nextCommand s = some i := by
  simp [nextCommand, hs, portQueue, hP, getPending, hd]

theorem protocolAt_withSchedule {d : BitVec 1} {s : State} (h : ProtocolAt d s) {m : Move} {later : List Move}
    (hs : s.schedule = m :: later) : ProtocolAt d (withSchedule later s) :=
  ⟨h.valid, fun m' hm => h.alone m' (hs ▸ List.mem_cons_of_mem m hm), h.elsewhere, h.configured, h.pos_le,
    h.notifications, h.samples⟩

/-- A move other than the serving of port P leaves the next buffer to be reported as it is, if no other sender presents
on P and A. -/
theorem protocolAt_performMove {d : BitVec 1} {m : Move} {s t : State} (h : ProtocolAt d s)
    (hm : m ≠ .serve .interrupt)
    (halone : ∀ w payload, m ≠ .present .interrupt w payload ∧ m ≠ .present .converter w payload)
    (ht : performMove m s = .next t) : ProtocolAt d t := by
  cases m with
  | serve c =>
    cases c with
    | interrupt => exact absurd rfl hm
    | converter => exact protocolAt_serve_converter h ht
    | foreground => exact h.of_undisturbed (h.undisturbed_serve (.inl rfl) ht)
    | reserved => exact h.of_undisturbed (h.undisturbed_serve (.inr rfl) ht)
  | present c w payload =>
    cases ht
    obtain ⟨hnotP, hnotA⟩ := halone w payload
    have hc : c = .foreground ∨ c = .reserved := by
      cases c with
      | foreground => exact .inl rfl
      | reserved => exact .inr rfl
      | interrupt => exact absurd rfl hnotP
      | converter => exact absurd rfl hnotA
    exact h.of_undisturbed (undisturbed_present hc (by simp) s)
  | sample v => cases ht; exact protocolAt_converterSample v h
  | startBuffer => cases ht; exact protocolAt_converterStartBuffer h
  | endOfBatch => cases ht; exact protocolAt_converterEndOfBatch h
  | driverReady => cases ht; exact protocolAt_converterDriverReady h
  | startEvent | stopEvent => cases ht; exact h.of_undisturbed (undisturbed_host _ s)
  | tick => cases ht; exact h.of_undisturbed (undisturbed_hostTimerTick s)
  | hostTurn sendOk => cases ht; exact h.of_undisturbed (undisturbed_hostTurn sendOk s)

/-- Every step keeps the protocol, and one that delivers a conversion-done delivers that of the buffer that was next. -/
theorem protocolAt_step {d : BitVec 1} {s t : State} (h : ProtocolAt d s) (ht : step s = .next t) :
    (stepDone s = [] ∧ ProtocolAt d t) ∨ (stepDone s = [d] ∧ ProtocolAt (d ^^^ 1) t) := by
  cases hs : s.schedule with
  | nil =>
    rw [step_of_schedule_nil h.valid hs] at ht
    cases ht
    exact .inl ⟨by simp [stepDone, nextCommand, hs], h⟩
  | cons m later =>
    have h' := protocolAt_withSchedule h hs
    rw [step_of_schedule_cons h.valid hs] at ht
    by_cases hm : m = .serve .interrupt
    · subst hm
      cases hP : portQueue .interrupt (withSchedule later s) with
      | nil =>
        rw [performMove, serve_of_portQueue_nil hP] at ht
        cases ht
        have hP' : s.portP = [] := hP
        exact .inl ⟨by simp [stepDone, nextCommand, hs, portQueue, hP'], h'⟩
      | cons p rest =>
        obtain ⟨i, hd, hcase⟩ := protocolAt_serve_interrupt h' hP ht
        have hn := nextCommand_interrupt hs hP hd
        rcases hcase with ⟨n, rfl, hnext⟩ | ⟨hne, hsame⟩
        · exact .inr ⟨by simp [stepDone, hn], hnext⟩
        · exact .inl ⟨stepDone_eq_nil (by simpa [hn] using hne), hsame⟩
    · have halone := h.alone m (hs ▸ List.mem_cons_self)
      exact .inl ⟨stepDone_eq_nil_of_schedule hs hm, protocolAt_performMove h' hm halone ht⟩

/-! ### The conversion-dones alternate (R161) -/

/-- The conversion-dones of a run alternate, beginning with the buffer that is next to be reported. -/
theorem isChain_runDones {n : Nat} {d : BitVec 1} {s : State} (h : ProtocolAt d s) :
    ((d ^^^ 1) :: runDones n s).IsChain (fun a b => b = a ^^^ 1) := by
  induction n generalizing d s with
  | zero => exact List.isChain_singleton _
  | succ n ih =>
    unfold runDones
    split
    case h_1 t ht =>
      rcases protocolAt_step h ht with ⟨hnone, hsame⟩ | ⟨hdone, hnext⟩
      · rw [hnone]
        exact ih hsame
      · have hrest := ih hnext
        rw [xor_one_xor_one] at hrest
        rw [hdone]
        exact List.isChain_cons_cons.2 ⟨(xor_one_xor_one d).symm, hrest⟩
    all_goals exact List.isChain_singleton _

/-- Settles O57: every step keeps the protocol, which fixes the buffer that is next to be reported. -/
theorem conversionDonesAlternate : Obligations.ConversionDonesAlternate := by
  intro n s h
  obtain ⟨d, hd⟩ := (envHandoff_iff s).1 h
  exact (isChain_runDones hd).tail

/-! ### The buffer of a conversion-done that is on its way (R161, R185) -/

/-- What a conversion-done that the next step runs says of the protocol. -/
theorem ProtocolAt.of_nextCommand_done {d idx : BitVec 1} {n : BitVec 8} {s : State} (h : ProtocolAt d s)
    (hn : nextCommand s = some (.adcEvtDone idx n)) :
    idx = s.act ^^^ 1 ∧ n = BitVec.ofNat 8 s.params.sbLen ∧
      ∃ rest, s.portP = converterRecord (doneOf s idx) :: rest := by
  obtain ⟨-, p, rest, -, hP, hd⟩ := served_of_nextCommand hn
  obtain ⟨i, q, rfl, rfl, -, -, hd', -, hat, -⟩ := h.portP_cons hP
  cases hd'.symm.trans hd
  obtain ⟨rfl, rfl⟩ := HandoffAt.done_at_head (idx := idx) (m := n) hat
  exact ⟨rfl, rfl, _, hP⟩

/-- A buffer whose conversion-done is on its way is not being filled, and all of it was written. -/
theorem ProtocolAt.of_done_pending {d b : BitVec 1} {s : State} (h : ProtocolAt d s)
    (hb : converterRecord (doneOf s b) ∈ s.portP) :
    s.converter.filling ≠ some b ∧ bufferWritten s b s.params.sbLen := by
  obtain ⟨q, hq, -, hat, hw⟩ := h.notifications
  have hm : doneOf s b ∈ q := by
    rw [hq] at hb
    obtain ⟨i, hi, he⟩ := List.mem_map.1 hb
    exact converterRecord_injective he ▸ hi
  exact ⟨hat.filling_ne_of_done (List.mem_filter.2 ⟨hm, rfl⟩), hw b hm⟩

/-- A sample write that the next step runs is to the buffer being filled. -/
theorem ProtocolAt.of_nextCommand_sample {d idx : BitVec 1} {k : BitVec 7} {v : Sample} {s : State} (h : ProtocolAt d s)
    (hn : nextCommand s = some (.adcSwr idx k v)) : s.converter.filling = some idx := by
  obtain ⟨-, p, rest, -, hA, hd⟩ := served_of_nextCommand hn
  have hA' : s.portA = p :: rest := hA
  rcases h.portA_cases with hnil | ⟨f, j, u, us, hf, hcons, -⟩
  · simp [hnil] at hA'
  · obtain ⟨rfl, -⟩ := List.cons.inj (hcons.symm.trans hA')
    have hd' := (decodeCommand_adcSwr f (BitVec.ofNat 7 j) u).symm.trans hd
    cases hd'
    exact hf

theorem samples_of_agentsOnly {s t : State} (h : AgentsOnly s t) : t.samples = s.samples := by
  obtain ⟨_, _, _, _, _, _, _, rfl⟩ := h
  rfl

theorem samples_recordAnswer (c : Ctx) (s : State) : (recordAnswer c s).samples = s.samples := by
  obtain ⟨l, hl⟩ := recordAnswer_eq c s
  rw [hl]

/-- A step writes no sample cell but that of the sample write it runs. -/
theorem memRead_samples_of_step {s t : State} {a : Nat} (h : step s = .next t)
    (ha : ∀ idx k v, nextCommand s = some (.adcSwr idx k v) → a ≠ sampleAddress idx k.toNat) :
    memRead t.samples a = memRead s.samples a := by
  cases step_effect h with
  | agents hag => rw [samples_of_agentsOnly hag]
  | runs i s' u hn hs _ he ht =>
    rw [samples_of_agentsOnly ht, samples_recordAnswer, ← samples_of_agentsOnly hs]
    cases exec_effect he with
    | writesSample idx k v hi =>
      exact memRead_memWrite_other _ _ (ha idx k v (hi ▸ hn))
    | puts | converts => simp
    | _ => rfl
  | continues g s' _ hs _ ht =>
    rw [samples_of_agentsOnly ht, samples_recordAnswer, (undisturbed_getContinue g s').samples,
      samples_of_agentsOnly hs]
  | illegal c s' _ hs ht =>
    rw [samples_of_agentsOnly ht, samples_recordAnswer, reportIllegal_samples, samples_of_agentsOnly hs]

/-- Settles O56: the position of the protocol fixes the conversion-done at the head of port P, and samples are written
only to the buffer being filled, which is never one whose conversion-done is on its way. -/
theorem conversionDoneCopiesTheCompletedBuffer : Obligations.ConversionDoneCopiesTheCompletedBuffer := by
  refine ⟨fun idx n s h hn => ?_, fun b s t h ht hb => ?_⟩
  · obtain ⟨d, hd⟩ := (envHandoff_iff s).1 h
    obtain ⟨hidx, rfl, rest, hP⟩ := hd.of_nextCommand_done hn
    obtain ⟨hf, hw⟩ := hd.of_done_pending (b := idx) (hP ▸ List.mem_cons_self)
    obtain ⟨-, -, -, -, hlen, -⟩ := capacity_bounds h.valid
    exact ⟨hidx, by rw [BitVec.toNat_ofNat]; omega, hf, hw⟩
  · obtain ⟨d, hd⟩ := (envHandoff_iff s).1 h
    obtain ⟨hf, -⟩ := hd.of_done_pending hb
    refine ⟨hf, fun k hk => memRead_samples_of_step ht fun idx k' v hn ha => hf ?_⟩
    rw [← toNat_entry h.valid hk] at ha
    obtain ⟨rfl, -⟩ := sampleAddress_inj ha
    exact hd.of_nextCommand_sample hn

end Sys2Proof.Machine

/-! # The statements of 43_environment_agents: the moves of the agents, the consumer loop and its invariants, the converter
and the conversion-dones after a stop (R180 to R195, R210, R236) -/

namespace Sys2Proof.Machine

/-! ### The handoff protocol (R182 to R184) -/

/-- Settles O55: EnvHandoff is that the protocol stands at one of its positions, and a step leads from one to one. -/
theorem stepKeepsTheHandoffProtocol : Obligations.StepKeepsTheHandoffProtocol := by
  intro s t h ht
  obtain ⟨d, hd⟩ := (envHandoff_iff s).1 h
  rcases protocolAt_step hd ht with ⟨-, hsame⟩ | ⟨-, hnext⟩
  · exact (envHandoff_iff t).2 ⟨d, hsame⟩
  · exact (envHandoff_iff t).2 ⟨d ^^^ 1, hnext⟩

/-! ### The step as a move, and the serving of a port as a record served and settled -/

/-- A step rests on an empty schedule and otherwise performs the first move of it. -/
theorem step_cases {s t : State} (h : step s = .next t) :
    (s.schedule = [] ∧ t = s) ∨
      ∃ m later, s.schedule = m :: later ∧ performMove m (withSchedule later s) = .next t := by
  cases hv : s.params.valid with
  | false => simp [step_of_invalid hv] at h
  | true =>
    cases hs : s.schedule with
    | nil =>
      rw [step_of_schedule_nil hv hs] at h
      cases h
      exact .inl ⟨rfl, rfl⟩
    | cons m later => exact .inr ⟨m, later, rfl, step_of_schedule_cons hv hs ▸ h⟩

/-- Serving a port does nothing if nothing is pending there, and otherwise settles what the block made of the record. -/
theorem serve_cases {c : Ctx} {s t : State} (h : serve c s = .next t) :
    (portQueue c s = [] ∧ t = s) ∨
      ∃ p rest u, portQueue c s = p :: rest ∧ runPacket c p s = .next u ∧ t = settle c p rest u := by
  cases hq : portQueue c s with
  | nil =>
    rw [serve_of_portQueue_nil hq] at h
    cases h
    exact .inl ⟨rfl, rfl⟩
  | cons p rest =>
    rw [serve_of_portQueue_cons hq] at h
    obtain ⟨u, hu, rfl⟩ := onNext_next h
    exact .inr ⟨p, rest, u, rfl, hu, rfl⟩

/-! ### Moves that serve no port (R180) -/

/-- A move other than the serving of a port is the environment's. -/
theorem agentsOnly_performMove {m : Move} {s t : State} (hm : ∀ c, m ≠ .serve c) (h : performMove m s = .next t) :
    AgentsOnly s t := by
  cases m with
  | serve c => exact absurd rfl (hm c)
  | present c w payload => cases h; exact agentsOnly_present _ _ s
  | sample v => cases h; exact agentsOnly_converterSample v s
  | startBuffer => cases h; exact agentsOnly_converterStartBuffer s
  | endOfBatch => cases h; exact agentsOnly_converterEndOfBatch s
  | driverReady => cases h; exact agentsOnly_converterDriverReady s
  | startEvent | stopEvent => cases h; exact agentsOnly_host _ s
  | tick => cases h; exact agentsOnly_hostTimerTick s
  | hostTurn sendOk => cases h; exact agentsOnly_hostTurn sendOk s

theorem agentsOnly_step {s t : State} (h : step s = .next t) (hs : ∀ c later, s.schedule ≠ .serve c :: later) :
    AgentsOnly s t := by
  rcases step_cases h with ⟨-, rfl⟩ | ⟨m, later, hm, ht⟩
  · exact .refl t
  · exact (agentsOnly_schedule later s).trans (agentsOnly_performMove (fun c hc => hs c later (hc ▸ hm)) ht)

/-- Settles O12: a step that serves no port is the environment's, which changes nothing of the block. -/
theorem environmentMovesLeaveTheBlockAlone : Obligations.EnvironmentMovesLeaveTheBlockAlone := by
  intro s t h hs
  obtain ⟨_, _, _, _, _, _, _, rfl⟩ := agentsOnly_step h hs
  simp

/-- Settles O52: a step performs the first move of the schedule, and the session timer ticks only while it is on. -/
theorem stepPerformsTheMovesOfTheAgents : Obligations.StepPerformsTheMovesOfTheAgents := by
  intro m later s u hv hs hu
  have hstep : step s = performMove m u := by rw [hu]; exact step_of_schedule_cons hv hs
  rw [hstep]
  refine ⟨?_, ?_, ?_, ?_, ?_, ?_, ?_, ?_, ?_⟩
  · rintro v rfl; rfl
  · rintro rfl; rfl
  · rintro rfl; rfl
  · rintro rfl; rfl
  · rintro rfl; rfl
  · rintro rfl; rfl
  · rintro rfl ht
    have hon : u.host.timerOn = true := hu ▸ ht
    rw [performMove, hostTimerTick, if_pos hon]
    rfl
  · rintro rfl ht
    have hoff : ¬u.host.timerOn = true := by simp [hu, ht]
    rw [performMove, hostTimerTick, if_neg hoff]
  · rintro sendOk rfl; rfl

/-! ### The consumer loop, case by case (R186 to R193) -/

/-- The host issues a command on port F and waits. -/
theorem hostIssue_eq (p : HostPhase) {i : Instr} (s : State) (h : i.ctx = .foreground := by rfl) :
    hostIssue p i s =
      { s with
        portF := s.portF ++ [⟨encodeWord i, encodePayload i, .host⟩]
        host := { s.host with phase := p } } := by
  rw [hostIssue, issue_foreground _ _ h]

theorem hostTurn_of_event {e : HostEvent} {rest : List HostEvent} {s : State} (sendOk : Bool)
    (hp : s.host.phase = .ready) (hi : s.host.inbox = e :: rest) :
    hostTurn sendOk s = hostHandle e { s with host := { s.host with inbox := rest } } := by
  simp [hostTurn, hp, hi]

theorem hostTurn_of_no_event {s : State} (sendOk : Bool) (hp : s.host.phase = .ready) (hi : s.host.inbox = [])
    (hl : s.host.loopState = .streaming) : hostTurn sendOk s = hostDrain sendOk s := by
  simp [hostTurn, hp, hi, hl]

theorem hostHandle_start_idle {s : State} (h : s.host.loopState = .idle) :
    hostHandle .start s = hostIssue .awaitStart .adcStart s := by
  simp [hostHandle, h]

theorem hostHandle_stop_streaming {s : State} (h : s.host.loopState = .streaming) : hostHandle .stop s = hostStop s := by
  simp [hostHandle, h]

theorem hostHandle_tick_streaming {s : State} (h : s.host.loopState = .streaming) :
    hostHandle .tick s =
      hostIssue (.awaitTelemetry []) .adcBytes
        { s with host := { s.host with elapsedS := s.host.elapsedS + 1 } } := by
  simp [hostHandle, h]

/-- A Start in Streaming, and a Stop or a tick in Idle, have no effect (R191). -/
theorem hostHandle_ignored {e : HostEvent} {s : State}
    (h : (e = .start ∧ s.host.loopState = .streaming) ∨ (e ≠ .start ∧ s.host.loopState = .idle)) :
    hostHandle e s = s := by
  rcases h with ⟨rfl, hl⟩ | ⟨he, hl⟩
  · simp [hostHandle, hl]
  · cases e with
    | start => exact absurd rfl he
    | stop | tick => simp [hostHandle, hl]

theorem hostReceive_awaitStart (r : Response) {s : State} (h : s.host.phase = .awaitStart) :
    hostReceive r s = hostReceiveStart r s := by
  simp [hostReceive, h]

theorem hostReceive_awaitBaseline (r : Response) {s : State} (h : s.host.phase = .awaitBaseline) :
    hostReceive r s = { s with host := { s.host with phase := .ready, baseline := r.value } } := by
  simp [hostReceive, h]

theorem hostReceive_awaitChunk {sendOk : Bool} (r : Response) {s : State} (h : s.host.phase = .awaitChunk sendOk) :
    hostReceive r s = hostReceiveChunk sendOk r s := by
  simp [hostReceive, h]

theorem hostReceive_awaitTelemetry {got : List Word} (r : Response) {s : State}
    (h : s.host.phase = .awaitTelemetry got) : hostReceive r s = hostReceiveTelemetry got r.value s := by
  simp [hostReceive, h]

theorem hostReceive_awaitStop (r : Response) {s : State} (h : s.host.phase = .awaitStop) :
    hostReceive r s = hostReceiveStop s := by
  simp [hostReceive, h]

/-- Settles O45: the host's turn on a Start, and the answers to ADC.START and to the baseline's ADC.BYTES. -/
theorem hostStartsASessionOnlyOnOk : Obligations.HostStartsASessionOnlyOnOk := by
  refine ⟨?_, ?_, ?_, ?_, ?_⟩
  · intro sendOk rest s hp hi hl
    rw [hostTurn_of_event sendOk hp hi, hostHandle_start_idle (by exact hl), hostIssue_eq]
    rfl
  · intro r s hp hr hb
    simp [hostReceive_awaitStart r hp, hostReceiveStart, hr, hostSessionBegins, hb]
  · intro r s hp hr hb
    rw [hostReceive_awaitStart r hp, hostReceiveStart, if_pos hr, hostSessionBegins, if_pos hb, hostIssue_eq]
    rfl
  · intro r s hp
    exact hostReceive_awaitBaseline r hp
  · intro r s hp hr
    rw [hostReceive_awaitStart r hp, hostReceiveStart, if_neg hr]

/-- The word of a drain: opcode 0x12, with CHUNK as `len` (R92, R188). -/
theorem encodeWord_rbGet_chunk {p : Params} (hp : p.valid = true) :
    (encodeWord (.rbGet (BitVec.ofNat 16 p.chunk))).toNat = 0x12000000 + p.chunk := by
  obtain ⟨-, -, -, -, -, -, hchunk⟩ := capacity_bounds hp
  rw [encodeWord, formatL_toNat, BitVec.toNat_ofNat, Nat.mod_eq_of_lt (by omega)]
  rfl

/-- Settles O46: a drain, and the three branches of its answer. -/
theorem hostDrainsAndCountsOnlySuccessfulSends : Obligations.HostDrainsAndCountsOnlySuccessfulSends := by
  refine ⟨fun sendOk s hp hi hl hv => ⟨_, encodeWord_rbGet_chunk hv, ?_⟩, fun sendOk r s hp => ?_⟩
  · rw [hostTurn_of_no_event sendOk hp hi hl, hostDrain, hostIssue_eq]
    rfl
  · rw [hostReceive_awaitChunk r hp, hostReceiveChunk]
    refine ⟨fun hd => if_pos hd, fun hd hok => ?_, fun hd hok => ?_⟩
    · rw [if_neg hd, if_pos hok]
    · rw [if_neg hd, if_neg (by simp [hok])]

/-- The stop transition (R191). -/
theorem hostStop_eq (s : State) :
    hostStop s =
      { s with
        portF := s.portF ++ [⟨0x26000000, [], .host⟩]
        host :=
          { s.host with timerOn := false, inbox := s.host.inbox.filter (· ≠ .tick), phase := .awaitStop } } := by
  rw [hostStop, hostIssue_eq]
  rfl

/-- Settles O47: the host's turn on each event, and the answers to the six reads and to ADC.STOP. -/
theorem hostTickReportsAndThenStopsAtTheLimit : Obligations.HostTickReportsAndThenStopsAtTheLimit := by
  refine ⟨?_, ?_, ?_, ?_, ?_, ?_⟩
  · intro sendOk rest s hp hi hl
    rw [hostTurn_of_event sendOk hp hi, hostHandle_tick_streaming (by exact hl), hostIssue_eq]
    rfl
  · intro a o w r' r s
    exact ⟨hostReceive_awaitTelemetry r, hostReceive_awaitTelemetry r, hostReceive_awaitTelemetry r,
      hostReceive_awaitTelemetry r, hostReceive_awaitTelemetry r⟩
  · intro a o w r' d r s records hp hrec
    rw [hostReceive_awaitTelemetry r hp, hostReceiveTelemetry, hostEmitTelemetry, hrec]
    refine ⟨fun hlt => ?_, fun hle => ?_⟩
    · rw [if_neg (by omega)]
      rfl
    · rw [if_pos hle, hostStop_eq]
      rfl
  · intro r s hp
    exact hostReceive_awaitStop r hp
  · intro sendOk rest s hp hi hl
    rw [hostTurn_of_event sendOk hp hi, hostHandle_stop_streaming (by exact hl), hostStop_eq]
  · intro sendOk e rest s hp hi he
    rw [hostTurn_of_event sendOk hp hi]
    refine hostHandle_ignored (he.imp_right ?_)
    rintro ⟨rfl, hl⟩
    exact ⟨by simp, hl⟩

/-! ### The converter, case by case (R182, R183) -/

theorem batchComplete_iff (s : State) :
    batchComplete s = true ↔
      s.converter.pos = s.params.sbLen ∧ samplesPending s = false ∧ donePending s = false ∧
        s.converter.stopReported = false := by
  simp [batchComplete, and_assoc]

theorem converterEndOfBatch_of_complete {f : BitVec 1} {s : State} (hf : s.converter.filling = some f)
    (hb : batchComplete s = true) :
    converterEndOfBatch s = converterLink (issue .converter (doneOf s f) s) := by
  simp [converterEndOfBatch, hf, hb, doneOf]

theorem converterEndOfBatch_of_not_complete {s : State} (h : s.converter.filling = none ∨ batchComplete s = false) :
    converterEndOfBatch s = s := by
  unfold converterEndOfBatch
  split
  case h_1 f hf => rcases h with h | h <;> simp_all
  case h_2 => rfl

theorem converterLink_of_given {b : BitVec 1} {s : State} (ht : trigEn s = true) (hn : s.converter.next = some b) :
    converterLink s = converterBegin b s := by
  simp [converterLink, ht, hn]

theorem converterLink_of_starved {s : State} (ht : trigEn s = true) (hn : s.converter.next = none) :
    converterLink s = issue .converter .adcEvtFin (converterRest s) := by
  simp [converterLink, ht, hn]

theorem converterLink_of_not_trigEn {s : State} (ht : trigEn s = false) : converterLink s = converterRest s := by
  simp [converterLink, ht]

theorem converterBegin_eq (b : BitVec 1) (s : State) :
    converterBegin b s =
      { s with
        portP := s.portP ++ [⟨0x22000000, [], .converterRequest⟩]
        converter := { s.converter with filling := some b, pos := 0, next := none } } := by
  rw [converterBegin, issue_interrupt _ _ rfl]
  rfl

/-- Settles O50: a complete batch is reported and the end-of-batch link follows; any other is left alone. -/
theorem converterReportsDoneThenStartsTheNext : Obligations.ConverterReportsDoneThenStartsTheNext := by
  refine ⟨fun f s hf hpos hsamples hdone hstop hlen => ?_, fun s h => ?_⟩
  · have hb : batchComplete s = true := (batchComplete_iff s).2 ⟨hpos, hsamples, hdone, hstop⟩
    have hissue : issue .converter (doneOf s f) s =
        { s with portP := s.portP ++ [⟨encodeWord (doneOf s f), [], .converter⟩] } := issue_interrupt _ _ rfl
    refine ⟨encodeWord (doneOf s f), decodeCommand_adcEvtDone _ _, ?_, ?_, ?_, ?_⟩
    · rw [BitVec.toNat_ofNat]
      exact Nat.mod_eq_of_lt (by omega)
    · intro b ht hn
      rw [converterEndOfBatch_of_complete hf hb, converterLink_of_given (by simpa using ht) (by rwa [hissue]),
        converterBegin_eq, hissue, List.append_assoc]
      rfl
    · intro ht hn
      rw [converterEndOfBatch_of_complete hf hb, converterLink_of_starved (by simpa using ht) (by rwa [hissue]),
        issue_interrupt _ _ rfl, hissue]
      simp only [converterRest, List.append_assoc]
      rfl
    · intro ht
      rw [converterEndOfBatch_of_complete hf hb, converterLink_of_not_trigEn (by simpa using ht), hissue]
      rfl
  · refine converterEndOfBatch_of_not_complete (h.imp_right fun hgate => ?_)
    rw [← Bool.not_eq_true, batchComplete_iff]
    rintro ⟨hpos, hsamples, hdone, hstop⟩
    simp [hpos, hsamples, hdone, hstop] at hgate

theorem converterStartBuffer_of_given {b : BitVec 1} {s : State} (hf : s.converter.filling = none)
    (hn : s.converter.next = some b) (ht : trigEn s = true) : converterStartBuffer s = converterBegin b s := by
  simp [converterStartBuffer, hf, hn, ht]

theorem converterStartBuffer_of_not_given {s : State}
    (h : s.converter.filling ≠ none ∨ s.converter.next = none ∨ trigEn s = false) : converterStartBuffer s = s := by
  unfold converterStartBuffer
  split
  case h_1 b hf hn =>
    obtain ht : trigEn s = false := by simpa [hf, hn] using h
    simp [ht]
  all_goals rfl

theorem converterDriverReady_of_configured {s : State} (hc : s.cfg = .configured)
    (hr : s.converter.readyRaised = false) :
    converterDriverReady s =
      { s with
        portP := s.portP ++ [⟨0x21000000, [], .converter⟩]
        converter := { s.converter with readyRaised := true, next := some 0 } } := by
  rw [converterDriverReady, if_pos ⟨hc, hr⟩, issue_interrupt _ _ rfl]
  rfl

/-- Settles O51: the start of a buffer given, and driver-ready. -/
theorem converterStartsTheBufferItWasGiven : Obligations.ConverterStartsTheBufferItWasGiven := by
  refine ⟨fun b s hf hn ht => ?_, fun s => converterStartBuffer_of_not_given, fun s => ⟨?_, fun h => ?_⟩⟩
  · rw [converterStartBuffer_of_given hf hn ht, converterBegin_eq]
  · exact converterDriverReady_of_configured
  · refine if_neg ?_
    rintro ⟨hc, hr⟩
    simp [hc, hr] at h

/-! ### What the converter's moves and the answers leave of the other agents -/

/-- Everything that a move of the converter can do (R182). -/
inductive ConverterEffect (s : State) : State → Prop
  | rests : ConverterEffect s s
  | raisesReady :
      ConverterEffect s
        { s with
          portP := s.portP ++ [converterRecord .adcEvtReady]
          converter := { s.converter with readyRaised := true, next := some 0 } }
  | starts (b : BitVec 1) (ht : trigEn s = true) :
      ConverterEffect s
        { s with
          portP := s.portP ++ [converterRecord .adcEvtBufreq]
          converter := { s.converter with filling := some b, pos := 0, next := none } }
  | samples (i : Instr) (hp : s.converter.pos < s.params.sbLen) :
      ConverterEffect s
        { s with
          portA := s.portA ++ [converterRecord i]
          converter := { s.converter with pos := s.converter.pos + 1 } }
  /-- a full buffer is reported, and `q` is what the end-of-batch link presents behind the report -/
  | reports (f : BitVec 1) (q : List Instr) (filling next : Option (BitVec 1)) (hb : batchComplete s = true)
      (hq : q = [] ∨ trigEn s = true ∧ (q = [.adcEvtBufreq] ∨ q = [.adcEvtFin])) :
      ConverterEffect s
        { s with
          portP := s.portP ++ converterRecord (doneOf s f) :: q.map converterRecord
          converter := { s.converter with filling := filling, pos := 0, next := next } }

theorem converterEffect_driverReady (s : State) : ConverterEffect s (converterDriverReady s) := by
  unfold converterDriverReady
  split
  · rw [issue_interrupt _ _ rfl]
    exact .raisesReady
  · exact .rests

theorem converterEffect_startBuffer (s : State) : ConverterEffect s (converterStartBuffer s) := by
  unfold converterStartBuffer
  repeat' split
  case h_1.isTrue ht =>
    rw [converterBegin_eq]
    exact .starts _ ht
  all_goals exact .rests

theorem converterEffect_sample (v : Sample) (s : State) : ConverterEffect s (converterSample v s) := by
  unfold converterSample
  repeat' split
  case h_1.isTrue hc =>
    rw [issue_converter _ _ rfl]
    exact .samples _ hc.2
  all_goals exact .rests

theorem converterEffect_endOfBatch (s : State) : ConverterEffect s (converterEndOfBatch s) := by
  by_cases hc : s.converter.filling = none ∨ batchComplete s = false
  · rw [converterEndOfBatch_of_not_complete hc]
    exact .rests
  · obtain ⟨hf, hb⟩ : s.converter.filling ≠ none ∧ batchComplete s = true := by simpa using hc
    obtain ⟨f, hf⟩ := Option.ne_none_iff_exists'.1 hf
    have hissue : issue .converter (doneOf s f) s = { s with portP := s.portP ++ [converterRecord (doneOf s f)] } :=
      issue_interrupt _ _ rfl
    rw [converterEndOfBatch_of_complete hf hb, hissue]
    cases ht : trigEn s with
    | false =>
      rw [converterLink_of_not_trigEn (by exact ht)]
      exact .reports f [] none _ hb (.inl rfl)
    | true =>
      cases hn : s.converter.next with
      | some b =>
        rw [converterLink_of_given (by exact ht) (by exact hn), converterBegin_eq, List.append_assoc]
        exact .reports f [.adcEvtBufreq] (some b) none hb (.inr ⟨ht, .inl rfl⟩)
      | none =>
        rw [converterLink_of_starved (by exact ht) (by exact hn), issue_interrupt _ _ rfl]
        simp only [converterRest, List.append_assoc]
        exact .reports f [.adcEvtFin] none _ hb (.inr ⟨ht, .inr rfl⟩)

theorem params_of_agentsOnly {s t : State} (h : AgentsOnly s t) : t.params = s.params := by
  obtain ⟨_, _, _, _, _, _, _, rfl⟩ := h
  rfl

/-- Serving a record leaves the agents as they are: they move when the answer is delivered. -/
theorem agents_of_serves {s u : State} (h : Serves s u) :
    u.params = s.params ∧ u.converter = s.converter ∧ u.host = s.host := by
  cases h with
  | command i _ he =>
    obtain ⟨-, -, -, -, -, hconv, hhost⟩ := agents_of_exec he
    exact ⟨params_of_exec he, hconv, hhost⟩
  | getStep g =>
    unfold getContinue
    split <;> exact ⟨rfl, rfl, rfl⟩
  | illegal => exact ⟨rfl, rfl, rfl⟩

theorem hostTurn_converter (sendOk : Bool) (s : State) : (hostTurn sendOk s).converter = s.converter := by
  unfold hostTurn hostHandle hostDrain hostStop
  repeat' split
  all_goals rfl

theorem hostReceive_converter (r : Response) (s : State) : (hostReceive r s).converter = s.converter := by
  unfold hostReceive hostReceiveStart hostSessionBegins hostReceiveChunk hostReceiveTelemetry hostEmitTelemetry
  repeat' split
  all_goals rfl

/-- An answer gives the converter its next destination and changes nothing else of it (R183 (2)). -/
theorem deliver_converter (src : Source) (r : Response) (s : State) :
    ∃ next, (deliver src r s).converter = { s.converter with next := next } := by
  cases src with
  | external =>
    unfold deliver hostReportConfigError
    dsimp only
    split <;> exact ⟨_, rfl⟩
  | converter => exact ⟨_, rfl⟩
  | converterRequest => exact ⟨_, rfl⟩
  | host => exact ⟨_, hostReceive_converter r s⟩

theorem settle_pos (c : Ctx) (p : Packet) (rest : List Packet) (s : State) :
    (settle c p rest s).converter.pos = s.converter.pos := by
  cases hr : s.response with
  | none => rw [settle_of_response_none c p rest hr]
  | some r =>
    rw [settle_of_response_some c p rest hr]
    obtain ⟨next, hnext⟩ := deliver_converter p.source r
      (setPortQueue c rest { s with answered := s.answered ++ [⟨c, r⟩], converter := converterAfterAnswer p s })
    rw [hnext, setPortQueue_converter]
    rfl

/-! ### Where the consumer loop stands (R186 to R192) -/

/-- The positions of the consumer loop, with AUTO_STOP_S the limit of the session's elapsed time. -/
inductive HostAt (s : State) : Prop
  | idle (hl : s.host.loopState = .idle) (he : s.host.elapsedS = 0) (hb : s.host.bytesSent = 0)
      (ht : s.host.timerOn = false) (hp : s.host.phase = .ready ∨ s.host.phase = .awaitStart)
  | streaming (hl : s.host.loopState = .streaming) (hp : s.host.phase ≠ .awaitStop)
      (he : s.host.elapsedS < s.params.autoStopS)
  | reporting (got : List Word) (hl : s.host.loopState = .streaming) (hp : s.host.phase = .awaitTelemetry got)
      (he : s.host.elapsedS ≤ s.params.autoStopS)
  | stopping (hl : s.host.loopState = .streaming) (hp : s.host.phase = .awaitStop) (ht : s.host.timerOn = false)
      (he : s.host.elapsedS ≤ s.params.autoStopS)

/-- The host's invariants are that the loop stands at one of its positions. -/
theorem hostAt_iff (s : State) : HostAt s ↔ HostInv s ∧ AutoStopInv s := by
  constructor
  · intro h
    unfold HostInv AutoStopInv
    cases h with
    | idle hl he hb ht hp => simp_all
    | streaming hl hp he => simp [hl, hp, he, he.le]
    | reporting got hl hp he => simp [hl, hp, he]
    | stopping hl hp ht he => simp [hl, hp, ht, he]
  · rintro ⟨⟨hidle, hstop⟩, hauto⟩
    cases hl : s.host.loopState with
    | idle =>
      obtain ⟨he, hb, ht, hp⟩ := hidle hl
      exact .idle hl he hb ht hp
    | streaming =>
      obtain ⟨hle, hlt⟩ := hauto hl
      by_cases hs : s.host.phase = .awaitStop
      · exact .stopping hl hs (hstop hs) hle
      · by_cases hr : ∃ got, s.host.phase = .awaitTelemetry got
        · obtain ⟨got, hp⟩ := hr
          exact .reporting got hl hp hle
        · exact .streaming hl hs (hlt (not_exists.1 hr) hs)

/-- The position is read off five fields of the loop and the limit. -/
theorem HostAt.congr {s t : State} (h : HostAt s) (hpar : t.params = s.params)
    (hl : t.host.loopState = s.host.loopState) (he : t.host.elapsedS = s.host.elapsedS)
    (hb : t.host.bytesSent = s.host.bytesSent) (ht : t.host.timerOn = s.host.timerOn)
    (hp : t.host.phase = s.host.phase) : HostAt t := by
  cases h with
  | idle h1 h2 h3 h4 h5 => exact .idle (hl.trans h1) (he.trans h2) (hb.trans h3) (ht.trans h4) (hp ▸ h5)
  | streaming h1 h2 h3 => exact .streaming (hl.trans h1) (hp ▸ h2) (by rwa [he, hpar])
  | reporting got h1 h2 h3 => exact .reporting got (hl.trans h1) (hp.trans h2) (by rwa [he, hpar])
  | stopping h1 h2 h3 h4 => exact .stopping (hl.trans h1) (hp.trans h2) (ht.trans h3) (by rwa [he, hpar])

theorem HostAt.of_host_eq {s t : State} (h : HostAt s) (hhost : t.host = s.host) (hpar : t.params = s.params) :
    HostAt t :=
  h.congr hpar (by rw [hhost]) (by rw [hhost]) (by rw [hhost]) (by rw [hhost]) (by rw [hhost])

/-- While it waits for a baseline or a chunk the loop is in a session below the limit. -/
theorem HostAt.below_limit {s : State} (h : HostAt s)
    (hp : s.host.phase = .awaitBaseline ∨ ∃ sendOk, s.host.phase = .awaitChunk sendOk) :
    s.host.loopState = .streaming ∧ s.host.elapsedS < s.params.autoStopS := by
  cases h with
  | streaming hl _ he => exact ⟨hl, he⟩
  | idle _ _ _ _ hp' => rcases hp with hp | ⟨_, hp⟩ <;> simp [hp] at hp'
  | reporting _ _ hp' | stopping _ hp' => rcases hp with hp | ⟨_, hp⟩ <;> cases hp.symm.trans hp'

/-- While it makes the reads of a tick the loop is in a session within the limit. -/
theorem HostAt.within_limit {s : State} {got : List Word} (h : HostAt s) (hp : s.host.phase = .awaitTelemetry got) :
    s.host.loopState = .streaming ∧ s.host.elapsedS ≤ s.params.autoStopS := by
  cases h with
  | streaming hl _ he => exact ⟨hl, he.le⟩
  | reporting _ hl _ he => exact ⟨hl, he⟩
  | idle _ _ _ _ hp' => simp [hp] at hp'
  | stopping _ hp' => cases hp.symm.trans hp'

/-- While the stop is on its way the timer is off. -/
theorem HostAt.timer_off {s : State} (h : HostAt s) (hp : s.host.phase = .awaitStop) : s.host.timerOn = false :=
  ((hostAt_iff s).1 h).1.2 hp

/-- Issuing a command changes nothing of the loop but the phase, on whichever port. -/
@[simp] theorem hostIssue_host (p : HostPhase) (i : Instr) (s : State) :
    (hostIssue p i s).host = { s.host with phase := p } := by
  simp [hostIssue, issue, present]

theorem hostAt_hostStop {s : State} (hl : s.host.loopState = .streaming) (he : s.host.elapsedS ≤ s.params.autoStopS) :
    HostAt (hostStop s) := .stopping hl rfl rfl he

theorem hostAt_hostHandle {s : State} (e : HostEvent) (h : HostAt s) (hp : s.host.phase = .ready) :
    HostAt (hostHandle e s) := by
  cases h with
  | idle hl he hb ht hp' =>
    cases e with
    | start =>
      rw [hostHandle_start_idle hl]
      exact .idle hl he hb ht (.inr rfl)
    | stop | tick =>
      rw [hostHandle_ignored (.inr ⟨by simp, hl⟩)]
      exact .idle hl he hb ht hp'
  | streaming hl hp' he =>
    cases e with
    | start =>
      rw [hostHandle_ignored (.inl ⟨rfl, hl⟩)]
      exact .streaming hl hp' he
    | stop =>
      rw [hostHandle_stop_streaming hl]
      exact hostAt_hostStop hl he.le
    | tick =>
      rw [hostHandle_tick_streaming hl]
      exact .reporting [] hl rfl he
  | reporting _ _ hp' | stopping _ hp' => cases hp.symm.trans hp'

theorem hostAt_hostTurn {s : State} (sendOk : Bool) (h : HostAt s) : HostAt (hostTurn sendOk s) := by
  unfold hostTurn
  split
  case isTrue hp =>
    split
    case h_1 e rest _ => exact hostAt_hostHandle e (h.congr rfl rfl rfl rfl rfl rfl) hp
    case h_2 =>
      split
      case h_1 hl =>
        cases h with
        | idle hl' => cases hl.symm.trans hl'
        | streaming _ _ he => exact .streaming hl (by simp [hostDrain]) he
        | reporting _ _ hp' | stopping _ hp' => cases hp.symm.trans hp'
      case h_2 => exact h
  case isFalse => exact h

theorem hostAt_hostReceiveStart {s : State} (r : Response) (hlim : 1 ≤ s.params.autoStopS) (h : HostAt s)
    (hp : s.host.phase = .awaitStart) : HostAt (hostReceiveStart r s) := by
  unfold hostReceiveStart hostSessionBegins
  split
  · split
    · exact .streaming rfl (by simp) hlim
    · exact .streaming rfl (by simp) hlim
  · cases h with
    | idle hl he hb ht => exact .idle hl he hb ht (.inl rfl)
    | streaming hl _ he => exact .streaming hl (by simp) he
    | reporting _ _ hp' | stopping _ hp' => cases hp.symm.trans hp'

theorem hostAt_hostReceiveChunk {s : State} (sendOk : Bool) (r : Response) (hl : s.host.loopState = .streaming)
    (he : s.host.elapsedS < s.params.autoStopS) : HostAt (hostReceiveChunk sendOk r s) := by
  unfold hostReceiveChunk
  repeat' split
  all_goals exact .streaming hl (by simp) he

theorem hostAt_hostEmitTelemetry {s : State} (t : Telemetry) (hl : s.host.loopState = .streaming)
    (he : s.host.elapsedS ≤ s.params.autoStopS) : HostAt (hostEmitTelemetry t s) := by
  unfold hostEmitTelemetry
  split
  case isTrue => exact hostAt_hostStop hl he
  case isFalse hlt => exact .streaming hl (by simp) (Nat.lt_of_not_le hlt)

theorem hostAt_hostReceiveTelemetry {s : State} (got : List Word) (v : Word) (hl : s.host.loopState = .streaming)
    (he : s.host.elapsedS ≤ s.params.autoStopS) : HostAt (hostReceiveTelemetry got v s) := by
  unfold hostReceiveTelemetry
  split
  case h_6 => exact hostAt_hostEmitTelemetry _ hl he
  all_goals exact .reporting _ hl rfl he

theorem hostAt_hostReceive {s : State} (r : Response) (hlim : 1 ≤ s.params.autoStopS) (h : HostAt s) :
    HostAt (hostReceive r s) := by
  cases hp : s.host.phase with
  | ready => simpa [hostReceive, hp] using h
  | awaitStart =>
    rw [hostReceive_awaitStart r hp]
    exact hostAt_hostReceiveStart r hlim h hp
  | awaitBaseline =>
    obtain ⟨hl, he⟩ := h.below_limit (.inl hp)
    rw [hostReceive_awaitBaseline r hp]
    exact .streaming hl (by simp) he
  | awaitChunk sendOk =>
    obtain ⟨hl, he⟩ := h.below_limit (.inr ⟨sendOk, hp⟩)
    rw [hostReceive_awaitChunk r hp]
    exact hostAt_hostReceiveChunk sendOk r hl he
  | awaitTelemetry got =>
    obtain ⟨hl, he⟩ := h.within_limit hp
    rw [hostReceive_awaitTelemetry r hp]
    exact hostAt_hostReceiveTelemetry got r.value hl he
  | awaitStop =>
    rw [hostReceive_awaitStop r hp]
    exact .idle rfl rfl rfl (h.timer_off hp) (.inl rfl)

theorem hostAt_deliver {s : State} (src : Source) (r : Response) (hlim : 1 ≤ s.params.autoStopS) (h : HostAt s) :
    HostAt (deliver src r s) := by
  cases src with
  | external =>
    unfold deliver hostReportConfigError
    dsimp only
    split
    · exact h.congr rfl rfl rfl rfl rfl rfl
    · exact h
  | converter => exact h
  | converterRequest => exact h.of_host_eq rfl rfl
  | host => exact hostAt_hostReceive r hlim h

theorem hostAt_settle {s : State} (c : Ctx) (p : Packet) (rest : List Packet) (hlim : 1 ≤ s.params.autoStopS)
    (h : HostAt s) : HostAt (settle c p rest s) := by
  cases hr : s.response with
  | none => rwa [settle_of_response_none c p rest hr]
  | some r =>
    rw [settle_of_response_some c p rest hr]
    refine hostAt_deliver p.source r (by simpa using hlim) (h.of_host_eq ?_ ?_) <;> simp

/-- The agents stand where the invariants of the environment say. -/
structure AgentsAt (s : State) : Prop where
  limit : 1 ≤ s.params.autoStopS
  host : HostAt s
  converter : ConverterInv s

/-- What leaves the host's loop at a position and the converter at its place leaves the agents where they may be. -/
theorem AgentsAt.of_host {s t : State} (h : AgentsAt s) (hhost : HostAt t) (hpar : t.params = s.params)
    (hpos : t.converter.pos = s.converter.pos) : AgentsAt t :=
  ⟨hpar ▸ h.limit, hhost, by simpa [ConverterInv, hpos, hpar] using h.converter⟩

theorem AgentsAt.of_converterEffect {s t : State} (h : AgentsAt s) (ht : ConverterEffect s t) : AgentsAt t := by
  cases ht with
  | rests => exact h
  | raisesReady => exact ⟨h.limit, h.host.of_host_eq rfl rfl, h.converter⟩
  | starts | reports => exact ⟨h.limit, h.host.of_host_eq rfl rfl, Nat.zero_le _⟩
  | samples i hp => exact ⟨h.limit, h.host.of_host_eq rfl rfl, hp⟩

theorem agentsAt_serve {c : Ctx} {s t : State} (h : AgentsAt s) (ht : serve c s = .next t) : AgentsAt t := by
  rcases serve_cases ht with ⟨-, rfl⟩ | ⟨p, rest, u, -, hu, rfl⟩
  · exact h
  · obtain ⟨hpar, hconv, hhost⟩ := agents_of_serves (serves_of_runPacket hu)
    have hu' : AgentsAt u := h.of_host (h.host.of_host_eq hhost hpar) hpar (by rw [hconv])
    refine hu'.of_host (hostAt_settle c p rest hu'.limit hu'.host) ?_ (settle_pos c p rest u)
    rw [params_of_agentsOnly (agentsOnly_settle c p rest u)]
    obtain ⟨l, hl⟩ := recordAnswer_eq c u
    rw [hl]

theorem agentsAt_performMove {m : Move} {s t : State} (h : AgentsAt s) (ht : performMove m s = .next t) :
    AgentsAt t := by
  cases m with
  | serve c => exact agentsAt_serve h ht
  | present c w payload =>
    cases ht
    exact h.of_host (h.host.of_host_eq (by simp [present]) (by simp [present])) (by simp [present]) (by simp [present])
  | sample v => cases ht; exact h.of_converterEffect (converterEffect_sample v s)
  | startBuffer => cases ht; exact h.of_converterEffect (converterEffect_startBuffer s)
  | endOfBatch => cases ht; exact h.of_converterEffect (converterEffect_endOfBatch s)
  | driverReady => cases ht; exact h.of_converterEffect (converterEffect_driverReady s)
  | startEvent | stopEvent => cases ht; exact h.of_host (h.host.congr rfl rfl rfl rfl rfl rfl) rfl rfl
  | tick =>
    cases ht
    unfold hostTimerTick
    split
    · exact h.of_host (h.host.congr rfl rfl rfl rfl rfl rfl) rfl rfl
    · exact h
  | hostTurn sendOk =>
    cases ht
    exact h.of_host (hostAt_hostTurn sendOk h.host) (params_of_agentsOnly (agentsOnly_hostTurn sendOk s))
      (by rw [hostTurn_converter])

/-- Settles O48: the invariants say where the agents stand (`hostAt_iff`), and every move leads from one place to one. -/
theorem stepKeepsTheEnvironmentInvariants : Obligations.StepKeepsTheEnvironmentInvariants := by
  intro s t hhost hauto hconv hlim h
  have hs : AgentsAt s := ⟨hlim, (hostAt_iff s).2 ⟨hhost, hauto⟩, hconv⟩
  have ht : AgentsAt t := by
    rcases step_cases h with ⟨-, rfl⟩ | ⟨m, later, -, ht⟩
    · exact hs
    · exact agentsAt_performMove (s := withSchedule later s) ⟨hlim, hs.host.of_host_eq rfl rfl, hconv⟩ ht
  obtain ⟨hhost', hauto'⟩ := (hostAt_iff t).1 ht.host
  exact ⟨hhost', hauto', ht.converter⟩

/-! ### What a move leaves on port P, and the note of a conversion-done answered after a stop (R184, R210, R236) -/

/-- Of the converter's notifications only a conversion-done is one. -/
theorem isOwnDone_converterRecord_other {i : Instr} (hi : i = .adcEvtReady ∨ i = .adcEvtBufreq ∨ i = .adcEvtFin) :
    isOwnDone (converterRecord i) = false := by
  rcases hi with rfl | rfl | rfl <;> decide

/-- A buffer is reported only when no earlier report waits. -/
theorem donesPending_of_batchComplete {s : State} (hb : batchComplete s = true) : donesPending s = 0 := by
  obtain ⟨-, -, hdone, -⟩ := (batchComplete_iff s).1 hb
  rw [donesPending, List.countP_eq_zero]
  simpa [donePending] using hdone

theorem ConverterEffect.stopReported {s t : State} (h : ConverterEffect s t) :
    t.converter.stopReported = s.converter.stopReported := by
  cases h <;> rfl

theorem ConverterEffect.donesPending_le {s t : State} (h : ConverterEffect s t) :
    donesPending t ≤ donesPending s ∨ donesPending t = 1 ∧ batchComplete s = true := by
  cases h with
  | rests | samples => exact .inl le_rfl
  | raisesReady => exact .inl (by simp [donesPending, isOwnDone_converterRecord_other])
  | starts => exact .inl (by simp [donesPending, isOwnDone_converterRecord_other])
  | reports f q filling next hb hq =>
    have hold : s.portP.countP isOwnDone = 0 := donesPending_of_batchComplete hb
    have hlink : (q.map converterRecord).countP isOwnDone = 0 := by
      rcases hq with rfl | ⟨-, rfl | rfl⟩ <;> simp [isOwnDone_converterRecord_other]
    have hreport : isOwnDone (converterRecord (doneOf s f)) = true := isOwnDone_converterRecord f _
    exact .inr ⟨by rw [donesPending, List.countP_append, List.countP_cons_of_pos hreport, hold, hlink], hb⟩

theorem ConverterEffect.requestsPending_le {s t : State} (h : ConverterEffect s t) (ht : trigEn s = false) :
    requestsPending t ≤ requestsPending s := by
  cases h with
  | rests | samples => exact le_rfl
  | raisesReady => simp [requestsPending, converterRecord]
  | starts b hon => simp [ht] at hon
  | reports f q filling next hb hq =>
    obtain rfl : q = [] := hq.resolve_right (by simp [ht])
    simp [requestsPending, converterRecord, doneOf]

/-- What a move does to port P and to the converter's note. -/
inductive NotificationEffect (s t : State) : Prop
  | serves (c : Ctx) (h : serve c s = .next t)
  | converter (h : ConverterEffect s t)
  /-- another agent moves; only an unconstrained sender presents on port P -/
  | others (q : List Packet) (hP : t.portP = s.portP ++ q) (hq : ∀ p ∈ q, p.source = .external)
      (hconv : t.converter = s.converter)

theorem notificationEffect_present (c : Ctx) {p : Packet} (hp : p.source = .external) (s : State) :
    NotificationEffect s (present c p s) := by
  cases c with
  | interrupt => exact .others [p] rfl (by simpa using hp) rfl
  | foreground | converter | reserved => exact .others [] (List.append_nil _).symm (by simp) rfl

theorem notificationEffect_host {s t : State} (hP : t.portP = s.portP) (hconv : t.converter = s.converter) :
    NotificationEffect s t := .others [] (by simpa using hP) (by simp) hconv

theorem notificationEffect_performMove {m : Move} {s t : State} (h : performMove m s = .next t) :
    NotificationEffect s t := by
  cases m with
  | serve c => exact .serves c h
  | present c w payload => cases h; exact notificationEffect_present c rfl s
  | sample v => cases h; exact .converter (converterEffect_sample v s)
  | startBuffer => cases h; exact .converter (converterEffect_startBuffer s)
  | endOfBatch => cases h; exact .converter (converterEffect_endOfBatch s)
  | driverReady => cases h; exact .converter (converterEffect_driverReady s)
  | startEvent | stopEvent => cases h; exact notificationEffect_host rfl rfl
  | tick =>
    cases h
    unfold hostTimerTick
    split <;> exact notificationEffect_host rfl rfl
  | hostTurn sendOk =>
    cases h
    exact notificationEffect_host (hostTurn_portP sendOk s) (hostTurn_converter sendOk s)

/-! The block. -/

/-- A record of another port than F is answered when it is served. -/
theorem response_of_runPacket {c : Ctx} {p : Packet} {s u : State} (hc : c ≠ .foreground)
    (h : runPacket c p s = .next u) : u.response ≠ none := by
  rw [runPacket_of_getPending_none p (getPending_eq_none fun hf => absurd hf hc)] at h
  cases hd : decodeCommand c p.word p.payload with
  | ok i =>
    rw [runRecord_of_decodeCommand_ok s hd] at h
    intro hr
    obtain ⟨-, -, len, rfl⟩ := beginsGet_of_exec_response_none h hr
    exact hc (ctx_of_decodeCommand hd).symm
  | error e =>
    by_cases he : e = .payloadNotOfLength
    · simp [runRecord, hd, he] at h
    · rw [runRecord_of_illegal s hd he] at h
      cases h
      simp

theorem settle_portP {c : Ctx} {p : Packet} {rest : List Packet} {u : State} (hr : u.response ≠ none) :
    (settle c p rest u).portP = (setPortQueue c rest u).portP := by
  obtain ⟨r, hr⟩ := Option.ne_none_iff_exists'.1 hr
  rw [settle_of_response_some c p rest hr, deliver_portP]
  cases c <;> rfl

/-- The note after an answer: while `trig_en` is 0, whether a conversion-done of the converter's was answered (R184). -/
theorem settle_stopReported {c : Ctx} {p : Packet} {rest : List Packet} {u : State} (hr : u.response ≠ none) :
    (settle c p rest u).converter.stopReported =
      (!trigEn (settle c p rest u) && (isOwnDone p || u.converter.stopReported)) := by
  obtain ⟨r, hr⟩ := Option.ne_none_iff_exists'.1 hr
  rw [settle_of_response_some c p rest hr]
  generalize hv : setPortQueue c rest
    { u with answered := u.answered ++ [⟨c, r⟩], converter := converterAfterAnswer p u } = v
  obtain ⟨hconv, htrig⟩ : v.converter = converterAfterAnswer p u ∧ trigEn v = trigEn u := by
    rw [← hv]
    cases c <;> exact ⟨rfl, rfl⟩
  obtain ⟨next, hnext⟩ := deliver_converter p.source r v
  rw [hnext, deliver_trigEn, htrig]
  exact congrArg Converter.stopReported hconv

/-- Serving a port takes at most the record at its head off port P. -/
theorem portP_of_serve {c : Ctx} {s t : State} (h : serve c s = .next t) : t.portP <:+ s.portP := by
  rcases serve_cases h with ⟨-, rfl⟩ | ⟨p, rest, u, hq, hu, rfl⟩
  · exact List.suffix_refl _
  · have hP : u.portP = s.portP := portQueue_of_serves .interrupt (serves_of_runPacket hu)
    by_cases hr : u.response = none
    · rw [settle_of_response_none c p rest hr, hP]
    · rw [settle_portP hr]
      cases c with
      | interrupt =>
        have hq' : s.portP = p :: rest := hq
        rw [hq']
        exact List.suffix_cons p rest
      | foreground | converter | reserved => exact hP ▸ List.suffix_refl _

/-- Serving a port leaves a note that stands as it is while `trig_en` is 0. -/
theorem stopReported_of_serve {c : Ctx} {s t : State} (h : serve c s = .next t)
    (hs : s.converter.stopReported = true) : trigEn t = true ∨ t.converter.stopReported = true := by
  rcases serve_cases h with ⟨-, rfl⟩ | ⟨p, rest, u, -, hu, rfl⟩
  · exact .inr hs
  · obtain ⟨-, hconv, -⟩ := agents_of_serves (serves_of_runPacket hu)
    by_cases hr : u.response = none
    · rw [settle_of_response_none c p rest hr, hconv]
      exact .inr hs
    · rw [settle_stopReported hr, hconv, hs]
      simp

/-- The record at the head of port P is answered when the port is served; a conversion-done of the converter's is noted. -/
theorem serve_interrupt {p : Packet} {rest : List Packet} {s t : State} (hP : s.portP = p :: rest)
    (h : serve .interrupt s = .next t) :
    t.portP = rest ∧ (isOwnDone p = true → trigEn t = true ∨ t.converter.stopReported = true) := by
  have hq : portQueue .interrupt s = p :: rest := hP
  rw [serve_of_portQueue_cons hq] at h
  obtain ⟨u, hu, rfl⟩ := onNext_next h
  have hr := response_of_runPacket (by simp) hu
  refine ⟨settle_portP hr, fun hp => ?_⟩
  rw [settle_stopReported hr, hp]
  simp

/-! Every move. -/

theorem donesPending_performMove {m : Move} {s t : State} (h : performMove m s = .next t) :
    donesPending t ≤ donesPending s ∨ donesPending t = 1 ∧ batchComplete s = true := by
  cases notificationEffect_performMove h with
  | serves c hserve => exact .inl (portP_of_serve hserve).sublist.countP_le
  | converter hconv => exact hconv.donesPending_le
  | others q hP hq =>
    have hnone : q.countP isOwnDone = 0 :=
      List.countP_eq_zero.2 fun p hp => by simp [isOwnDone_of_external (hq p hp)]
    exact .inl (by rw [donesPending, donesPending, hP, List.countP_append, hnone, Nat.add_zero])

/-- While `trig_en` is 0 no buffer-request is raised (R210). -/
theorem requestsPending_performMove {m : Move} {s t : State} (h : performMove m s = .next t) (ht : trigEn s = false) :
    requestsPending t ≤ requestsPending s := by
  cases notificationEffect_performMove h with
  | serves c hserve => exact (portP_of_serve hserve).sublist.countP_le
  | converter hconv => exact hconv.requestsPending_le ht
  | others q hP hq =>
    have hnone : q.countP (fun p => p.source == .converterRequest) = 0 :=
      List.countP_eq_zero.2 fun p hp => by simp [hq p hp]
    rw [requestsPending, requestsPending, hP, List.countP_append, hnone, Nat.add_zero]

theorem stopReported_performMove {m : Move} {s t : State} (h : performMove m s = .next t)
    (hs : s.converter.stopReported = true) : trigEn t = true ∨ t.converter.stopReported = true := by
  cases notificationEffect_performMove h with
  | serves c hserve => exact stopReported_of_serve hserve hs
  | converter hconv => exact .inr (hconv.stopReported.trans hs)
  | others q _ _ hconv => exact .inr (by rw [hconv, hs])

/-! ### At most one conversion-done arrives after a stop (R184, R210, R236) -/

/-- The one conversion-done that may follow a stop has arrived: it was answered, and no other is on its way. -/
structure DoneSpent (s : State) : Prop where
  noneOnItsWay : donesPending s = 0
  noted : s.converter.stopReported = true

/-- While `trig_en` stays 0 the converter raises no other conversion-done. -/
theorem DoneSpent.performMove {m : Move} {s t : State} (hs : DoneSpent s) (h : performMove m s = .next t) :
    trigEn t = true ∨ DoneSpent t := by
  have hgate : batchComplete s ≠ true := fun hb => by
    obtain ⟨-, -, -, hstop⟩ := (batchComplete_iff s).1 hb
    simp [hs.noted] at hstop
  have hnone : donesPending t = 0 := by
    have hle := (donesPending_performMove h).resolve_right fun hb => hgate hb.2
    rw [hs.noneOnItsWay] at hle
    exact Nat.le_zero.1 hle
  exact (stopReported_performMove h hs.noted).imp_right fun hnoted => ⟨hnone, hnoted⟩

theorem DoneSpent.step {s t : State} (hs : DoneSpent s) (h : step s = .next t) : trigEn t = true ∨ DoneSpent t := by
  rcases step_cases h with ⟨-, rfl⟩ | ⟨m, later, -, ht⟩
  · exact .inr hs
  · exact DoneSpent.performMove (s := withSchedule later s) ⟨hs.noneOnItsWay, hs.noted⟩ ht

/-- A step delivers a conversion-done of the converter only by serving port P with one at its head. -/
theorem stepDelivers_cases (s : State) :
    stepDelivers s = 0 ∨ stepDelivers s = 1 ∧
      ∃ later p rest, s.schedule = .serve .interrupt :: later ∧ s.portP = p :: rest ∧ isOwnDone p = true := by
  unfold stepDelivers
  split
  case h_1 later p rest hs hP =>
    cases hp : isOwnDone p with
    | true => exact .inr ⟨rfl, later, p, rest, hs, hP, hp⟩
    | false => exact .inl rfl
  case h_2 => exact .inl rfl

theorem stepDelivers_of_donesPending_zero {s : State} (h : donesPending s = 0) : stepDelivers s = 0 := by
  rcases stepDelivers_cases s with h0 | ⟨-, later, p, rest, -, hP, hp⟩
  · exact h0
  · simp [donesPending, hP, hp] at h

/-- A conversion-done delivered was the only one on its way. -/
theorem doneSpent_of_stepDelivers {s t : State} (h1 : donesPending s ≤ 1) (hd : stepDelivers s = 1)
    (h : step s = .next t) : trigEn t = true ∨ DoneSpent t := by
  rcases stepDelivers_cases s with h0 | ⟨-, later, p, rest, hs, hP, hp⟩
  · simp [h0] at hd
  · rcases step_cases h with ⟨hnil, -⟩ | ⟨m, later', hs', ht⟩
    · simp [hnil] at hs
    · obtain ⟨rfl, rfl⟩ := List.cons.inj (hs'.symm.trans hs)
      obtain ⟨hrest, hnoted⟩ := serve_interrupt (s := withSchedule later' s) hP ht
      have hnone : donesPending t = 0 := by
        rw [donesPending, hP, List.countP_cons_of_pos hp] at h1
        rw [donesPending, hrest]
        omega
      exact (hnoted hp).imp_right fun hst => ⟨hnone, hst⟩

theorem donesPending_step {s t : State} (h1 : donesPending s ≤ 1) (h : step s = .next t) : donesPending t ≤ 1 := by
  rcases step_cases h with ⟨-, rfl⟩ | ⟨m, later, -, ht⟩
  · exact h1
  · rcases donesPending_performMove ht with hle | ⟨hone, -⟩
    · exact hle.trans h1
    · exact hone.le

theorem requestsPending_step {s t : State} (ht : trigEn s = false) (h : step s = .next t) :
    requestsPending t ≤ requestsPending s := by
  rcases step_cases h with ⟨-, rfl⟩ | ⟨m, later, -, hm⟩
  · exact le_rfl
  · exact requestsPending_performMove (s := withSchedule later s) hm ht

/-! Runs while `trig_en` stays 0. -/

theorem donesWhileStopped_of_trigEn (n : Nat) {s : State} (h : trigEn s = true) : donesWhileStopped n s = 0 := by
  cases n with
  | zero => rfl
  | succ n => simp [donesWhileStopped, h]

/-- A bound on the conversion-dones of a run, from one on those of its first step and of the rest. -/
theorem donesWhileStopped_succ_le {n k : Nat} {s : State}
    (h : ∀ t, step s = .next t → stepDelivers s + donesWhileStopped n t ≤ k) : donesWhileStopped (n + 1) s ≤ k := by
  unfold donesWhileStopped
  split
  · exact Nat.zero_le k
  · split
    case h_1 t ht => exact h t ht
    all_goals exact Nat.zero_le k

theorem DoneSpent.donesWhileStopped {s : State} (h : DoneSpent s) (n : Nat) : donesWhileStopped n s = 0 := by
  induction n generalizing s with
  | zero => rfl
  | succ n ih =>
    refine Nat.le_zero.1 (donesWhileStopped_succ_le fun t ht => ?_)
    rw [stepDelivers_of_donesPending_zero h.noneOnItsWay, Nat.zero_add]
    rcases h.step ht with hon | hspent
    · exact (donesWhileStopped_of_trigEn n hon).le
    · exact (ih hspent).le

theorem donesWhileStopped_le_one (n : Nat) {s : State} (h1 : donesPending s ≤ 1) : donesWhileStopped n s ≤ 1 := by
  induction n generalizing s with
  | zero => exact Nat.zero_le 1
  | succ n ih =>
    refine donesWhileStopped_succ_le fun t ht => ?_
    rcases stepDelivers_cases s with h0 | ⟨hd, -⟩
    · rw [h0, Nat.zero_add]
      exact ih (donesPending_step h1 ht)
    · have hrest : donesWhileStopped n t = 0 := by
        rcases doneSpent_of_stepDelivers h1 hd ht with hon | hspent
        · exact donesWhileStopped_of_trigEn n hon
        · exact hspent.donesWhileStopped n
      rw [hd, hrest]

/-- Settles O53: once one is delivered after a stop it is noted, and the note keeps the converter from another. -/
theorem atMostOneConversionDoneArrivesAfterAStop : Obligations.AtMostOneConversionDoneArrivesAfterAStop :=
  ⟨fun _ _ => rfl, fun _ _ h => ⟨fun h1 => donesPending_step h1 h, fun ht => requestsPending_step ht h⟩,
    fun n _ h1 => donesWhileStopped_le_one n h1⟩

end Sys2Proof.Machine


/-! # The statement of 60_exceptions: what an error answer changes (R200, R201, R204) -/

namespace Sys2Proof.Machine

/-- What the answer `r` says of a command's effect, from `s` to `t`, by the kind of its status: OK leaves the fault
register, NOT_READY and NO_EFFECT leave everything, the two errors with a fault bit (R201) set that bit, and CFG_ERROR
writes the configuration. -/
inductive AnswerEffect (s t : State) (r : Response) : Prop
  | succeeds (hst : r.status = .ok) (hf : t.fault = s.fault)
  | changesNothing (hst : r.status = .notReady ∨ r.status = .noEffect) (ht : t = { s with response := some r })
  | setsFaultBit (hst : r.status = .badOperand ∨ r.status = .outOfOrder) (hv : r.value = 0)
      (ht : t = { s with fault := s.fault ||| r.status.faultBit, response := some r })
  | failsConfig (hst : r.status = .cfgError)
      (ht : t = { s with cfg := .failed, cfgErr := t.cfgErr, response := some r })

/-- Every answer of a command is of one of these kinds; step G1 of a split get gives none (R240). -/
theorem answerEffect_of_exec {i : Instr} {s t : State} {r : Response} (h : exec i s = .next t)
    (hr : t.response = some r) : AnswerEffect s t r := by
  cases exec_effect h with
  | answers _ _ hst =>
    cases hr
    rcases hst with rfl | herr
    · exact .succeeds rfl rfl
    · exact .changesNothing herr rfl
  | fails _ hst => cases hr; exact .setsFaultBit hst rfl rfl
  | failsConfig => cases hr; exact .failsConfig rfl rfl
  | beginsGet => cases hr
  | puts | converts => cases hr; exact .succeeds rfl (by simp)
  | _ => cases hr; exact .succeeds rfl rfl

/-- Settles O40: the status of the answer selects one of the four kinds, and with it the one clause that applies. -/
theorem errorsChangeNothingButTheFaultBit : Obligations.ErrorsChangeNothingButTheFaultBit := by
  intro i s t r h hr
  cases answerEffect_of_exec h hr with
  | succeeds hst hf => simp [hst, hf]
  | changesNothing hst ht => rcases hst with hst | hst <;> simpa [hst] using ht
  | setsFaultBit hst hv ht =>
    rcases hst with hst | hst <;> simpa [hst, hv, Status.faultBit, faultOpd, faultSeq] using ht
  | failsConfig hst ht => simpa [hst] using ht

end Sys2Proof.Machine
